-- ==== Sys2Proof/Word.lean ====
section
/-!
DEFINITION. The word types of CANTXT (00_scope R6, R8; 20_memory R64): octets, 32-bit bus words and
command words, 64-bit accumulators. Every value is unsigned (R6).
-/

namespace Sys2Proof

/-- One octet: a character of the frame text or a payload byte (00_scope R8). -/
abbrev Byte := BitVec 8

/-- The 32-bit word of one bus access, and of one command (20_memory R64, 30_encoding R90). -/
abbrev Word := BitVec 32

/-- A 64-bit accumulator or value operand (10_state R31, R42). -/
abbrev Dword := BitVec 64

end Sys2Proof
end

