-- ==== Sys2Proof/Syntax.lean ====
section
/-!
DEFINITION. The commands of CANTXT: one constructor for each row of spec/opcode_table.json
(30_encoding R90 to R95). Operands are the unsigned numbers of R94 and R99; `WellFormed` holds them
to their fields.
-/

namespace Sys2Proof

/-- RENDER's IDL field (30_encoding R93): the length of the identifier text. -/
inductive IdLen where
  /-- IDL = 0, `id3` in the assembler: 3 characters. -/
  | id3
  /-- IDL = 1, `id8` in the assembler: 8 characters. -/
  | id8
  deriving DecidableEq, Repr

/-- `n_id` of 30_encoding R94. -/
def IdLen.chars : IdLen → Nat
  | .id3 => 3
  | .id8 => 8

/-- A command (30_encoding R95). -/
inductive Instr where
  /-- NOP, format N (44_control R213). -/
  | nop
  /-- PARSE, format N (43_parser R173). -/
  | parse
  /-- PACK, format P (30_encoding R92): SLOT, POS, SIZE, DLC in the assembler's order (R99). -/
  | pack (slot pos size dlc : Nat)
  /-- RENDER, format R (30_encoding R93): SLOT, DLC, IDL in the assembler's order (R99). -/
  | render (slot dlc : Nat) (idl : IdLen)
  /-- SRST, format N (44_control R214). -/
  | srst
  deriving DecidableEq, Repr

end Sys2Proof
end

