-- ==== Sys2Proof/WellFormed.lean ====
section
/-!
DEFINITION. Which commands an assembler accepts (30_encoding R99): every operand fits its field. A
well-formed command is one that has a word; whether its operands are usable is not legality (R97).
-/

namespace Sys2Proof

/-- The operands fit the fields of 30_encoding R92 and R93, as R99's assembler requires. -/
def Instr.wf : Instr → Bool
  | .nop => true
  | .parse => true
  | .pack slot pos size dlc =>
      decide (slot ≤ 15) && decide (pos ≤ 511) && decide (size ≤ 127) && decide (dlc ≤ 127)
  | .render slot dlc _ => decide (slot ≤ 15) && decide (dlc ≤ 127)
  | .srst => true

end Sys2Proof
end

