-- ==== Sys2Proof/Decode.lean ====
section
/-!
DEFINITION. Command words (30_encoding): the decoder, which follows the opcode map R95 and names
the class of illegal word (R96) it refuses, and after it the encoder, written from the formats R91
to R93 and the assembler table R99. A command is exactly one 32-bit word (R90, R98).
-/

namespace Sys2Proof

/-- Why a word is illegal (30_encoding R96). -/
inductive IllegalWord where
  /-- OP is one of the reserved values 0x4..0xE. -/
  | reservedOp
  /-- A format N word (OP 0x0, 0x1 or 0xF) with one of bits [31:4] set. -/
  | formatNBits
  /-- A PACK word with bit 31 set. -/
  | packBit31
  /-- A RENDER word with bit 31 or one of bits [23:9] set. -/
  | renderBits
  deriving DecidableEq, Repr

/-- The five rows of the opcode map (30_encoding R95). -/
inductive OpName where
  | nop
  | parse
  | pack
  | render
  | srst
  deriving DecidableEq, Repr

/-- One row of the opcode map: a word `c` matches when `c & mask = pattern` (30_encoding R95). -/
structure OpRow where
  name : OpName
  pattern : Word
  mask : Word
  deriving DecidableEq, Repr

/-- The opcode map of 30_encoding R95. -/
def opMap : List OpRow :=
  [ { name := .nop,    pattern := 0x00000000, mask := 0xFFFFFFFF },
    { name := .parse,  pattern := 0x00000001, mask := 0xFFFFFFFF },
    { name := .pack,   pattern := 0x00000002, mask := 0x8000000F },
    { name := .render, pattern := 0x00000003, mask := 0x80FFFE0F },
    { name := .srst,   pattern := 0x0000000F, mask := 0xFFFFFFFF } ]

/-- `c & mask = pattern` (30_encoding R95). -/
def OpRow.fits (r : OpRow) (c : Word) : Bool := (c &&& r.mask) == r.pattern

/-- The field `v[hi:lo]`, read as an unsigned number (00_scope R6, 30_encoding R94). -/
def field (v : Word) (hi lo : Nat) : Nat := (v.extractLsb hi lo).toNat

/-- The operands of a word that matches a row (30_encoding R94). -/
def operandsOf (c : Word) : OpName → Instr
  | .nop => .nop
  | .parse => .parse
  | .pack => .pack (field c 7 4) (field c 16 8) (field c 23 17) (field c 30 24)
  | .render => .render (field c 7 4) (field c 30 24) (if field c 8 8 = 0 then .id3 else .id8)
  | .srst => .srst

/-- The class of an illegal word, by its OP field (30_encoding R96). -/
def illegalClass (c : Word) : IllegalWord :=
  let op := field c 3 0
  if op = 0x0 ∨ op = 0x1 ∨ op = 0xF then .formatNBits
  else if op = 0x2 then .packBit31
  else if op = 0x3 then .renderBits
  else .reservedOp

/-- The decoder: the command a word stands for, or the name of its illegality (30_encoding R95, R96). -/
def decode (c : Word) : Except IllegalWord Instr :=
  match opMap.find? (fun r => r.fits c) with
  | some r => .ok (operandsOf c r.name)
  | none => .error (illegalClass c)

/-- The 32-bit word of four bytes, the first in bits [7:0] (the packing 20_memory R65 gives the byte
buffers). -/
def wordOfBytes (b0 b1 b2 b3 : Byte) : Word := b3 ++ b2 ++ b1 ++ b0

/-- The command read from the front of a list of bytes, with the rest (30_encoding R90, R98: one 32-bit
word, no other length). Fewer than four bytes are no command. A command comes to the block as a word,
and "there is no instruction byte order" (20_memory R65): that the first byte is the word's lowest is
the model's (DESIGN CHOICE, log 23), and no step decodes bytes. -/
def decodeBytes : List Byte → Option (Except IllegalWord Instr × List Byte)
  | b0 :: b1 :: b2 :: b3 :: rest => some (decode (wordOfBytes b0 b1 b2 b3), rest)
  | _ => none

/-! ### The encoder -/

/-- The IDL bit (30_encoding R93). -/
def IdLen.bit : IdLen → Nat
  | .id3 => 0
  | .id8 => 1

/-- The word of a well-formed command: the sums of shifted fields of 30_encoding R99. -/
def encode : Instr → Word
  | .nop => 0x00000000
  | .parse => 0x00000001
  | .pack slot pos size dlc =>
      (BitVec.ofNat 32 dlc <<< 24) ||| (BitVec.ofNat 32 size <<< 17) ||| (BitVec.ofNat 32 pos <<< 8)
        ||| (BitVec.ofNat 32 slot <<< 4) ||| 0x2
  | .render slot dlc idl =>
      (BitVec.ofNat 32 dlc <<< 24) ||| (BitVec.ofNat 32 idl.bit <<< 8)
        ||| (BitVec.ofNat 32 slot <<< 4) ||| 0x3
  | .srst => 0x0000000F

/-- The value of a command's OP field, bits [3:0] (30_encoding R90, R95). -/
def opField : Instr → Nat
  | .nop => 0x0
  | .parse => 0x1
  | .pack _ _ _ _ => 0x2
  | .render _ _ _ => 0x3
  | .srst => 0xF

/-- The assembler of 30_encoding R99: the word of a command, refused where an operand does not fit. -/
def assemble (i : Instr) : Option Word := if i.wf then some (encode i) else none

/-- What a disassembler prints for a word (30_encoding R99): a command, or `.word` with the value. -/
inductive AsmLine where
  | command (i : Instr)
  | word (c : Word)
  deriving DecidableEq, Repr

/-- The disassembler of 30_encoding R99. -/
def disassemble (c : Word) : AsmLine :=
  match decode c with
  | .ok i => .command i
  | .error _ => .word c

/-- The command the decoder reads from a row's bits, numbered as spec/opcode_table.json numbers them.
Every row has 32 bits (30_encoding R90); bits above `nbits` are 0 (DESIGN CHOICE, log 20). -/
def decodeTableWord (nbits w : Nat) : Option Instr :=
  if 32 < nbits then none
  else
    match decode (BitVec.ofNat 32 (w % 2 ^ nbits)) with
    | .ok i => some i
    | .error _ => none

end Sys2Proof
end

