-- ==== Sys2Proof/Config.lean ====
section
/-!
DEFINITION. The fixed values and parameters of 00_scope R5, and the one value the spec leaves open
(20_memory R79). The parameters that vary between instances are plain data (`Params`), so that every
statement about the machine holds for each of them.
-/

namespace Sys2Proof

/-- Parameter HEXCASE (00_scope R5): the letter case of the hex digits RENDER writes. -/
inductive HexCase where
  | upper
  | lower
  deriving DecidableEq, Repr

/-- The parameters one instance of the block is built with (00_scope R5). -/
structure Params where
  /-- NACC, the number of accumulator slots, 1..16. -/
  nacc : Nat
  /-- HEXCASE. -/
  hexCase : HexCase
  /-- BASE, the bus address of the window (20_memory R60). -/
  base : Nat
  deriving DecidableEq, Repr

namespace Config

/-- TEXT_SIZE (00_scope R5). -/
def textSize : Nat := 256

/-- CLASSIC_MAX: most payload bytes of a classic frame (00_scope R5). -/
def classicMax : Nat := 8

/-- FD_MAX: most payload bytes of an FD frame (00_scope R5). -/
def fdMax : Nat := 64

/-- RTR_MAX: largest length an RTR length digit may request (00_scope R5). -/
def rtrMax : Nat := 8

/-- MTU_CLASSIC (00_scope R5). -/
def mtuClassic : BitVec 8 := 16

/-- MTU_FD (00_scope R5). -/
def mtuFd : BitVec 8 := 72

/-- CANON: the lengths a frame may carry (00_scope R5). -/
def canonLengths : List Nat := [0, 1, 2, 3, 4, 5, 6, 7, 8, 12, 16, 20, 24, 32, 48, 64]

/-- The block identifier that register ID reads (10_state R22). -/
def idValue : Word := 0x43414E31

/-- The size of the window in bytes (20_memory R60). -/
def windowSize : Nat := 0x1000

/-- FREE VALUE (20_memory R79, log 4): what the `k`-th read of a register in the running command's
write set returns. It has no body: nothing can be proved of its value. -/
opaque busyRead (k : Nat) : Word

/-- The parameters of this hardware (00_scope R5: NACC 16, HEXCASE UPPER). BASE is the platform's
choice; DESIGN CHOICE 0 (log 6). -/
def params : Params := { nacc := 16, hexCase := .upper, base := 0 }

end Config

end Sys2Proof
end

