-- ==== Sys2Proof/Machine/State.lean ====
section
/-!
DEFINITION. The state of CANTXT as plain data: the architectural state of 10_state R20, the engine's
hidden state of 10_state R44, and the model's own fields for the host's side of the bus. INVENTORY.md
lists each with its rule and reset value.
-/

namespace Sys2Proof.Machine

/-- The spec gives the machine no fault: "The block never traps and never stops" (60_exceptions
R230; DEDUCED, log 22). No step raises one. -/
inductive Fault
  deriving DecidableEq, Repr

/-- Why an instruction or a host program is refused. -/
inductive Refusal where
  /-- Raised by an arm of `exec` whose instruction has no meaning yet; safe. No arm raises it now. -/
  | notModelled (mnemonic : String)
  /-- Raised by `State.load` for a host program in which several masters use the block without the lock
  (70_reset_and_hazards R268, 93_implementation_defined section 2); safe. No step raises it. -/
  | mastersWithoutLock
  deriving DecidableEq, Repr

/-- The byte buffers TEXT, RID and FRM_DATA, keyed by window offset (20_memory R63, R65): strictly
rising offsets, no entry equal to what an unlisted offset reads as, which is the reset value 0x00 of
all three buffers (10_state R30, R32, R40; DESIGN CHOICE, log 7). -/
abbrev Memory := List Host.Cell

/-- The reasons of 10_state R35 for which PARSE rejects a text. -/
inductive Reason where
  | short
  | nodelim
  | badId
  | badFlag
  | badData
  deriving DecidableEq, Repr

/-- The kinds of an accepted frame (10_state R34). -/
inductive FrameKind where
  | classic
  | fd
  deriving DecidableEq, Repr

/-- The states of the frame-format state machine (43_parser R189), and its two ends. -/
inductive FsmLabel where
  | sLen
  | sDelim
  | sId
  | sEff
  | sSel
  | sRtr
  | sFdf
  | sData
  | sDsep
  | sDhi
  | sDlo
  /-- `accept(kind)` has been reached (43_parser R172). -/
  | accepted
  /-- `reject(r)` has been reached (43_parser R172). -/
  | rejected (r : Reason)
  deriving DecidableEq, Repr

/-- The working values of a running PARSE (10_state R44, 43_parser R173). -/
structure Fsm where
  label  : FsmLabel
  /-- The identifier being assembled. -/
  id     : Word
  /-- `len`, the payload length or the requested length. -/
  len    : Nat
  /-- The FD flags digit. -/
  flags  : Nat
  /-- `data[0..i-1]`, the payload bytes assigned so far. -/
  data   : List Byte
  /-- The character index. -/
  idx    : Nat
  /-- The byte count. -/
  i      : Nat
  /-- The high nibble of the pair being read. -/
  hi     : Nat
  maxlen : Nat
  kind   : FrameKind
  /-- The number of identifier digits, 3 or 8. -/
  n      : Nat
  /-- The identifier digit being read. -/
  k      : Nat
  deriving DecidableEq, Repr

/-- The engine's hidden working values (10_state R44; DESIGN CHOICE, log 9). -/
inductive Work where
  /-- A NOP has none. -/
  | none
  /-- The frame-format state machine of a PARSE. -/
  | parse (f : Fsm)
  /-- A PACK: the result code of the checks, and `sh`, `mask` and `f` of 41_packer R133. -/
  | pack (code : BitVec 3) (sh : Nat) (mask f : Dword)
  /-- A RENDER: the result code of the checks, and `n`, `v` and `j` of 42_render R152. -/
  | render (code : BitVec 3) (n v j : Nat)
  deriving DecidableEq, Repr

/-- The command the engine is executing; it exists only while BUSY = 1 (10_state R44). -/
structure Running where
  /-- `current` (44_control R210), decoded. -/
  cmd  : Instr
  /-- The model's own: the cycles of LAT left before completion (00_scope R5; DESIGN CHOICE, log 2). -/
  left : Nat
  work : Work
  deriving DecidableEq, Repr

/-- What the host's side does to the block, one entry for each access in bus order (20_memory R72;
DESIGN CHOICE, logs 1, 13). Addresses are bus addresses, the window being at BASE (20_memory R60). -/
inductive HostOp where
  /-- A read of `size` bytes (20_memory R67). -/
  | read (addr size : Nat)
  /-- A write of `size` bytes of value `v` (20_memory R68; DESIGN CHOICE, log 10). `lat` is LAT for the command the write
  starts, if it starts one (00_scope R5; DESIGN CHOICE, log 2): the number of cycles in which BUSY = 1 can be seen. -/
  | write (addr size : Nat) (v : Word) (lat : Nat)
  /-- The pseudo-instruction `wait` (30_encoding R101): reads of STATUS until BUSY = 0
  (DESIGN CHOICE, log 15). -/
  | wait
  /-- The hardware reset input (70_reset_and_hazards R260; DESIGN CHOICE, log 14). -/
  | hwReset
  deriving DecidableEq, Repr

/-- One entry of a host program of several masters (70_reset_and_hazards R268; DESIGN CHOICE, log 13). -/
inductive MasterOp where
  /-- Master `m` takes the platform's lock. -/
  | acquire (m : Nat)
  /-- Master `m` gives the platform's lock up. -/
  | release (m : Nat)
  /-- Master `m` makes an access. A hardware reset is the platform's, whichever master is named. -/
  | access (m : Nat) (op : HostOp)
  deriving DecidableEq, Repr

/-- The state of the block (10_state R20, R44) and of the host's side of the bus. -/
structure State where
  /-- The parameters of 00_scope R5; constant for one instance (10_state R23). -/
  params   : Params
  /-- STATUS.DONE (10_state R27). STATUS.BUSY is `State.busy` (DESIGN CHOICE, log 3). -/
  done     : Bool
  /-- STATUS.ILLCMD (10_state R28). -/
  illcmd   : Bool
  /-- STATUS.BUSERR (10_state R28). -/
  buserr   : Bool
  /-- STATUS.WBUSY (10_state R28). -/
  wbusy    : Bool
  /-- TLEN (10_state R29). -/
  tlen     : BitVec 9
  /-- VAL (10_state R31). -/
  val      : Dword
  /-- PRS_RES.KIND (10_state R34). -/
  kind     : BitVec 2
  /-- PRS_RES.REASON (10_state R35). -/
  reason   : BitVec 3
  /-- PRS_RES.MTU (10_state R36). -/
  mtu      : BitVec 8
  /-- FRM_ID (10_state R37). -/
  frmId    : Word
  /-- FRM_LEN (10_state R38). -/
  frmLen   : BitVec 7
  /-- FRM_FLAGS (10_state R39). -/
  frmFlags : BitVec 8
  /-- PCK_RES.CODE (10_state R41). -/
  code     : BitVec 3
  /-- PCK_RES.LASTOP (10_state R41). -/
  lastop   : BitVec 2
  /-- ACC (10_state R42): 16 slots, of which NACC are mapped (DESIGN CHOICE, log 19). -/
  acc      : Vector Dword 16
  /-- TEXT, RID and FRM_DATA (10_state R30, R32, R40). -/
  mem      : Memory
  /-- The running command and the hidden state (10_state R44); none while BUSY = 0. -/
  current  : Option Running
  /-- The model's own: the host's pending accesses, oldest first (DESIGN CHOICE, log 1). -/
  bus      : List HostOp
  /-- The model's own: the host program that has come to the block by `State.load`, oldest entry first;
  the lock rule is checked over all of it (70_reset_and_hazards R268; DESIGN CHOICE, log 13). -/
  loaded   : List MasterOp
  /-- The model's own: the words returned to the host, newest first (DESIGN CHOICE, log 5). -/
  reads    : List Word
  /-- The model's own: how many free values have been used (DESIGN CHOICE, log 4). -/
  fresh    : Nat
  deriving DecidableEq, Repr

/-- The state after a reset of an instance with parameters `p` (70_reset_and_hazards R261). -/
def State.resetWith (p : Params) : State :=
  { params := p, done := false, illcmd := false, buserr := false, wbusy := false,
    tlen := 0, val := 0, kind := 0, reason := 0, mtu := 0, frmId := 0, frmLen := 0, frmFlags := 0,
    code := 0, lastop := 0, acc := Vector.replicate 16 0, mem := [], current := none,
    bus := [], loaded := [], reads := [], fresh := 0 }

/-- The machine right after reset (70_reset_and_hazards R261, R262): every register 0, idle, the
parameters of this hardware (00_scope R5), no access pending. -/
def State.reset : State := State.resetWith Config.params

end Sys2Proof.Machine
end

