-- ==== Sys2Proof/Machine/Flags.lean ====
section
/-!
DEFINITION. The STATUS register (10_state R25 to R28): its five bits are the block's only flags
(10_state R45). What reads them, what sets each, and what a host write clears.
-/

namespace Sys2Proof.Machine

/-- STATUS.BUSY: 1 from the acceptance of a command until its completion or a reset (10_state R26). -/
def State.busy (s : State) : Bool := s.current.isSome

/-- The word a read of STATUS returns: `{27'b0, WBUSY, BUSERR, ILLCMD, DONE, BUSY}` (20_memory R67). -/
def State.statusWord (s : State) : Word :=
  (0 : BitVec 27) ++ BitVec.ofBool s.wbusy ++ BitVec.ofBool s.buserr ++ BitVec.ofBool s.illcmd
    ++ BitVec.ofBool s.done ++ BitVec.ofBool s.busy

/-- A write to STATUS: for each b in 1..4 a written 1 at b clears STATUS[b], and nothing else
changes (10_state R25, 20_memory R68 step 2). -/
def State.clearStatus (s : State) (v : Word) : State :=
  { s with done   := s.done && !v.getLsbD 1,
           illcmd := s.illcmd && !v.getLsbD 2,
           buserr := s.buserr && !v.getLsbD 3,
           wbusy  := s.wbusy && !v.getLsbD 4 }

/-- STATUS.ILLCMD <- 1 (44_control R211). -/
def State.setIllcmd (s : State) : State := { s with illcmd := true }

/-- STATUS.BUSERR <- 1 (20_memory R62, R69). -/
def State.setBuserr (s : State) : State := { s with buserr := true }

/-- STATUS.WBUSY <- 1 (20_memory R68 step 4). -/
def State.setWbusy (s : State) : State := { s with wbusy := true }

end Sys2Proof.Machine
end

