-- ==== Sys2Proof/Machine/Ops.lean ====
section
/-!
DEFINITION. The named operations over memory and registers: the byte buffers, the accumulator file,
the completion of a command, and the reset. The spec gives the machine no trap: "no state is saved,
no mode changes and there is no vector" (60_exceptions R235), so there is no exception entry and no
return here. A failed command or access only writes its code (60_exceptions R230).
-/

namespace Sys2Proof.Machine

/-! ### Bytes and words -/

/-- Byte `k` of a bus word: bits [8k+7:8k] (20_memory R65). -/
def byteOf (v : Word) (k : Nat) : Byte := v.extractLsb' (8 * k) 8

/-- The low half of a 64-bit register (20_memory R66). -/
def lowHalf (v : Dword) : Word := v.extractLsb' 0 32

/-- The high half of a 64-bit register (20_memory R66). -/
def highHalf (v : Dword) : Word := v.extractLsb' 32 32

/-- `v` with its low half replaced (10_state R31, 20_memory R68 step 8). -/
def withLow (v : Dword) (w : Word) : Dword := highHalf v ++ w

/-- `v` with its high half replaced (10_state R31, 20_memory R68 step 8). -/
def withHigh (v : Dword) (w : Word) : Dword := w ++ lowHalf v

/-! ### The byte buffers -/

/-- The byte at a window offset; an unlisted offset reads as its reset value 0x00 (DESIGN CHOICE, log 7). -/
def Memory.read : Memory → Nat → Byte
  | [], _ => 0
  | (a, b) :: rest, x => if x = a then b else Memory.read rest x

/-- Writes one byte and keeps the canonical form: writing 0x00 removes the entry. -/
def Memory.write : Memory → Nat → Byte → Memory
  | [], x, v => if v = 0 then [] else [(x, v)]
  | (a, b) :: rest, x, v =>
      if x < a then (if v = 0 then (a, b) :: rest else (x, v) :: (a, b) :: rest)
      else if x = a then (if v = 0 then rest else (x, v) :: rest)
      else (a, b) :: Memory.write rest x v

/-- The canonical form: strictly rising offsets, no entry equal to what an unlisted offset reads as. -/
def Memory.wf : Memory → Bool
  | [] => true
  | (a, b) :: rest => (b != 0) && rest.all (fun c => decide (a < c.1)) && Memory.wf rest

/-- Writes bytes at rising offsets from `x`. -/
def Memory.writeBytes : Memory → Nat → List Byte → Memory
  | m, _, [] => m
  | m, x, v :: vs => Memory.writeBytes (m.write x v) (x + 1) vs

/-- The word at offset `x`, little-endian (20_memory R65). -/
def Memory.word (m : Memory) (x : Nat) : Word :=
  wordOfBytes (m.read x) (m.read (x + 1)) (m.read (x + 2)) (m.read (x + 3))

/-- Writes a word at offset `x`, little-endian (20_memory R65). -/
def Memory.writeWord (m : Memory) (x : Nat) (v : Word) : Memory :=
  m.writeBytes x [byteOf v 0, byteOf v 1, byteOf v 2, byteOf v 3]

/-- The window offset of RID[0] (10_state R32). -/
def ridBase : Nat := 0x030

/-- The window offset of TEXT[0] (10_state R30). -/
def textBase : Nat := 0x100

/-- The window offset of FRM_DATA[0] (10_state R40). -/
def frmBase : Nat := 0x200

/-- TEXT[i], i in 0..255 (10_state R30). There is no TEXT[i] above 255: it reads 0x00 (DEDUCED, log 17). -/
def State.textByte (s : State) (i : Nat) : Byte :=
  if i < Config.textSize then s.mem.read (textBase + i) else 0

/-- RID[k], k in 0..7 (10_state R32). -/
def State.ridByte (s : State) (k : Nat) : Byte := s.mem.read (ridBase + k)

/-- FRM_DATA[j], j in 0..63 (10_state R40). -/
def State.frmByte (s : State) (j : Nat) : Byte := s.mem.read (frmBase + j)

/-! ### The accumulator file -/

/-- ACC[k] (10_state R42). -/
def State.accAt (s : State) (k : Nat) : Dword := (s.acc[k]?).getD 0

/-- ACC[k] <- v (10_state R42). -/
def State.setAcc (s : State) (k : Nat) (v : Dword) : State :=
  { s with acc := s.acc.setIfInBounds k v }

/-! ### Completion and reset -/

/-- The completion of a command whose own writes have been made: BUSY <- 0, DONE <- 1
(44_control R212 steps 2 and 3). The hidden state is discarded (10_state R44). -/
def State.complete (s : State) : State := { s with current := none, done := true }

/-- The reset of a running machine (70_reset_and_hazards R261): a running command is abandoned and
every piece of the block's state takes its reset value. The parameters are constants; the host's
side of the bus and the count of free values are not the block's state. -/
def State.softReset (s : State) : State :=
  { State.resetWith s.params with bus := s.bus, loaded := s.loaded, reads := s.reads, fresh := s.fresh }

end Sys2Proof.Machine
end

