-- ==== Sys2Proof/Machine/Control.lean ====
section
/-!
DEFINITION. The two commands with no operands and no result registers: NOP and SRST (44_control).
-/

namespace Sys2Proof.Machine

/-- NOP: no effect, then completion (44_control R213). -/
def execNop (s : State) : Host.Outcome State Fault Refusal := .next s.complete

/-- SRST: the reset of 70_reset_and_hazards R261; DONE stays at its reset value 0 (44_control R214). -/
def execSrst (s : State) : Host.Outcome State Fault Refusal := .next s.softReset

end Sys2Proof.Machine
end

