-- ==== Sys2Proof/Machine/Operands.lean ====
section
/-!
DEFINITION. Operands of the commands and what is computed from them: the nibble codec
(40_nibble), the effective text of PARSE (43_parser R170, R171), the canonical lengths and the
checks and result codes of PACK and RENDER (41_packer R131, R132; 42_render R151).
-/

namespace Sys2Proof.Machine

/-! ### Characters (00_scope R8; PRESUMED, log 8) and the nibble codec (40_nibble) -/

/-- `'#'`. -/
def chHash : Byte := 0x23

/-- `'.'`. -/
def chDot : Byte := 0x2E

/-- `'R'`. -/
def chUpperR : Byte := 0x52

/-- `'r'`. -/
def chLowerR : Byte := 0x72

/-- `nib(c)`: the value of a hex digit, and 16 for every other octet (40_nibble R120). -/
def nib (c : Byte) : Nat :=
  let n := c.toNat
  if 0x30 ≤ n ∧ n ≤ 0x39 then n - 0x30
  else if 0x41 ≤ n ∧ n ≤ 0x46 then n - 0x41 + 10
  else if 0x61 ≤ n ∧ n ≤ 0x66 then n - 0x61 + 10
  else 16

/-- `hexch(n)` for a nibble `n`, in the letter case of parameter HEXCASE (40_nibble R122). -/
def hexch (hc : HexCase) (n : Nat) : Byte :=
  if n ≤ 9 then BitVec.ofNat 8 (0x30 + n)
  else
    match hc with
    | .upper => BitVec.ofNat 8 (0x41 + (n - 10))
    | .lower => BitVec.ofNat 8 (0x61 + (n - 10))

/-! ### The text of a PARSE -/

/-- TEXT[0..L-1], L the index of the first 0x00 in TEXT[0..TLEN-1], or TLEN (43_parser R170). -/
def State.effText (s : State) : List Byte :=
  ((List.range s.tlen.toNat).map s.textByte).takeWhile (fun c => c != 0)

/-- `ch(i)`: the character at `i`, and 0x00 at or past the end (43_parser R171). -/
def ch (t : List Byte) (i : Nat) : Byte := t.getD i 0

/-! ### Checks and codes of PACK and RENDER -/

/-- `canon(d)` (41_packer R131). -/
def canon (d : Nat) : Bool := Config.canonLengths.contains d

/-- The result codes of 10_state R41. -/
inductive PckCode where
  | ok
  | errSlot
  | errDlc
  | errSize
  | errRange
  | errWide
  deriving DecidableEq, Repr

/-- The value of PCK_RES.CODE (10_state R41). -/
def PckCode.value : PckCode → BitVec 3
  | .ok => 0
  | .errSlot => 1
  | .errDlc => 2
  | .errSize => 3
  | .errRange => 4
  | .errWide => 5

/-- PCK_RES.LASTOP of a PACK (10_state R41). -/
def lastopPack : BitVec 2 := 1

/-- PCK_RES.LASTOP of a RENDER (10_state R41). -/
def lastopRender : BitVec 2 := 2

/-- The checks of a PACK, in order, the first that fails giving the code (41_packer R132). -/
def packCheck (nacc slot pos size dlc : Nat) : PckCode :=
  if slot ≥ nacc then .errSlot
  else if !canon dlc then .errDlc
  else if size = 0 ∨ size > 64 then .errSize
  else if pos + size > 8 * dlc then .errRange
  else if 8 * dlc - pos > 64 then .errWide
  else .ok

/-- The checks of a RENDER, in order (42_render R151). -/
def renderCheck (nacc slot dlc : Nat) : PckCode :=
  if slot ≥ nacc then .errSlot
  else if !canon dlc then .errDlc
  else .ok

/-- `finish(code)` of a PACK or a RENDER: PCK_RES is written and the command completes
(41_packer R132, 42_render R151). -/
def State.finishPck (s : State) (c : PckCode) (op : BitVec 2) : State :=
  State.complete { s with code := c.value, lastop := op }

end Sys2Proof.Machine
end

