-- ==== Sys2Proof/Machine/Packer.lean ====
section
/-!
DEFINITION. PACK, the signal bit-packer (41_packer).
-/

namespace Sys2Proof.Machine

/-- `sh = 8*DLC - SIZE - POS` (41_packer R133). -/
def packShift (pos size dlc : Nat) : Nat := 8 * dlc - size - pos

/-- `mask = 2^SIZE - 1` as a 64-bit value, all ones when SIZE = 64 (41_packer R133). -/
def packMask (size : Nat) : Dword := BitVec.ofNat 64 (2 ^ size - 1)

/-- The merge: the field of `acc` is cleared and the low SIZE bits of `val` put in its place
(41_packer R133). -/
def packMerge (acc val : Dword) (pos size dlc : Nat) : Dword :=
  let sh := packShift pos size dlc
  let mask := packMask size
  let f := val &&& mask
  (acc &&& ~~~(mask <<< sh)) ||| (f <<< sh)

/-- PACK (41_packer R132, R133): a failing check leaves ACC unchanged. -/
def execPack (slot pos size dlc : Nat) (s : State) : Host.Outcome State Fault Refusal :=
  match packCheck s.params.nacc slot pos size dlc with
  | .ok => .next ((s.setAcc slot (packMerge (s.accAt slot) s.val pos size dlc)).finishPck .ok lastopPack)
  | c => .next (s.finishPck c lastopPack)

end Sys2Proof.Machine
end

