-- ==== Sys2Proof/Machine/Parser.lean ====
section
/-!
DEFINITION. PARSE, the ASCII frame parser (43_parser): the algorithm of R173 as a function of the
effective text, the writes of R172, and the frame-format state machine of R189, whose transitions
the engine's hidden state makes one at a time.
-/

namespace Sys2Proof.Machine

/-! ### Results -/

/-- The frame an accepted text gives (43_parser R172). `data` holds the bytes assigned; the others
are 0. -/
structure Frame where
  id    : Word
  len   : Nat
  flags : Nat
  data  : List Byte
  deriving DecidableEq, Repr

/-- The two ways a PARSE ends (43_parser R172). -/
inductive ParseResult where
  | accept (k : FrameKind) (f : Frame)
  | reject (r : Reason)
  deriving DecidableEq, Repr

/-- The value of PRS_RES.KIND of an accepted frame (10_state R34). -/
def FrameKind.value : FrameKind → BitVec 2
  | .classic => 1
  | .fd => 2

/-- The value of PRS_RES.MTU of an accepted frame (10_state R36). -/
def FrameKind.mtu : FrameKind → BitVec 8
  | .classic => Config.mtuClassic
  | .fd => Config.mtuFd

/-- The value of PRS_RES.REASON (10_state R35). -/
def Reason.value : Reason → BitVec 3
  | .short => 1
  | .nodelim => 2
  | .badId => 3
  | .badFlag => 4
  | .badData => 5

/-! ### The algorithm (43_parser R173) -/

/-- S_ID: digits `k ..` of an identifier of `n` digits, `left` of them still to read
(43_parser R176). -/
def parseIdent (t : List Byte) (n : Nat) : (left k : Nat) → Word → Except Reason Word
  | 0, _, id => .ok id
  | left + 1, k, id =>
      let d := nib (ch t k)
      if d > 15 then .error .badId
      else parseIdent t n left (k + 1) (id ||| (BitVec.ofNat 32 d <<< (4 * (n - 1 - k))))

/-- The EFF flag, bit 31 of FRM_ID (10_state R37; PRESUMED, log 8). -/
def effBit : Word := 0x80000000

/-- The RTR flag, bit 30 of FRM_ID (10_state R37). -/
def rtrBit : Word := 0x40000000

/-- S_EFF: the 8-digit form sets EFF unless ERR, bit 29, is set (43_parser R177). -/
def markExtended (n : Nat) (id : Word) : Word :=
  if n = 8 ∧ id.getLsbD 29 = false then id ||| effBit else id

/-- S_DSEP's test: the index after one optional separator (43_parser R181). -/
def skipDot (t : List Byte) (idx : Nat) : Nat := if ch t idx = chDot then idx + 1 else idx

/-- The byte of two nibbles, high nibble first (43_parser R183). -/
def pairByte (hi lo : Nat) : Byte := BitVec.ofNat 8 (16 * hi + lo)

/-- S_DATA: the payload loop, `left` = `maxlen - i` bytes still allowed, `data` those read so far
(43_parser R181 to R183). -/
def parsePairs (t : List Byte) : (left idx : Nat) → List Byte → Except Reason (List Byte)
  | 0, _, data => .ok data
  | left + 1, idx, data =>
      let at' := skipDot t idx
      if at' ≥ t.length then .ok data
      else
        let hi := nib (ch t at')
        if hi > 15 then .error .badData
        else
          let lo := nib (ch t (at' + 1))
          if lo > 15 then .error .badData
          else parsePairs t left (at' + 2) (data ++ [pairByte hi lo])

/-- S_DATA and the accept after it: the number of bytes read is the length (43_parser R182, R184). -/
def parsePayload (t : List Byte) (id : Word) (flags maxlen : Nat) (kind : FrameKind) (idx : Nat) :
    ParseResult :=
  match parsePairs t maxlen idx [] with
  | .ok data => .accept kind { id := id, len := data.length, flags := flags, data := data }
  | .error r => .reject r

/-- S_RTR: a remote frame, with its optional length digit (43_parser R179). -/
def parseRemote (t : List Byte) (id : Word) (idx : Nat) : ParseResult :=
  let d := nib (ch t (idx + 1))
  .accept .classic
    { id := id ||| rtrBit, len := if d ≤ Config.rtrMax then d else 0, flags := 0, data := [] }

/-- S_FDF: the FD escape (43_parser R180). -/
def parseFd (t : List Byte) (id : Word) (idx : Nat) : ParseResult :=
  let d := nib (ch t (idx + 1))
  if d > 15 then .reject .badFlag
  else parsePayload t id d Config.fdMax .fd (idx + 2)

/-- S_SEL: the selector, the first character after the delimiter (43_parser R178). -/
def parseSelector (t : List Byte) (id : Word) (idx : Nat) : ParseResult :=
  if ch t idx = chUpperR ∨ ch t idx = chLowerR then parseRemote t id idx
  else if ch t idx = chHash then parseFd t id idx
  else parsePayload t id 0 Config.classicMax .classic idx

/-- S_ID and S_EFF with an identifier of `n` digits, then the rest (43_parser R176, R177). -/
def parseFrom (t : List Byte) (n idx : Nat) : ParseResult :=
  match parseIdent t n n 0 0 with
  | .ok id => parseSelector t (markExtended n id) idx
  | .error r => .reject r

/-- PARSE of an effective text (43_parser R173): S_LEN (R174), S_DELIM (R175), and the rest. -/
def parseText (t : List Byte) : ParseResult :=
  if t.length < 4 then .reject .short
  else if ch t 3 = chHash then parseFrom t 3 4
  else if ch t 8 = chHash then parseFrom t 8 9
  else .reject .nodelim

/-! ### The writes (43_parser R172) -/

/-- The 64 bytes of FRM_DATA for a list of assigned bytes: the rest are 0 (43_parser R172). -/
def frameBytes (data : List Byte) : List Byte := (List.range 64).map (fun j => data.getD j 0)

/-- `accept` and `reject`: all the parse registers are written at once (43_parser R172). -/
def State.commitParse (s : State) : ParseResult → State
  | .accept k f =>
      { s with kind := k.value, reason := 0, mtu := k.mtu, frmId := f.id,
               frmLen := BitVec.ofNat 7 f.len, frmFlags := BitVec.ofNat 8 f.flags,
               mem := s.mem.writeBytes frmBase (frameBytes f.data) }
  | .reject r =>
      { s with kind := 0, reason := r.value, mtu := 0, frmId := 0, frmLen := 0, frmFlags := 0,
               mem := s.mem.writeBytes frmBase (frameBytes []) }

/-- PARSE (43_parser R172, R173). -/
def execParse (s : State) : Host.Outcome State Fault Refusal :=
  .next (s.commitParse (parseText s.effText)).complete

/-! ### The frame-format state machine (43_parser R189) -/

/-- The machine at S_LEN, before anything is read. -/
def Fsm.start : Fsm :=
  { label := .sLen, id := 0, len := 0, flags := 0, data := [], idx := 0, i := 0, hi := 0,
    maxlen := Config.classicMax, kind := .classic, n := 0, k := 0 }

/-- One transition of the table of 43_parser R189, over the effective text. -/
def Fsm.next (t : List Byte) (f : Fsm) : Fsm :=
  match f.label with
  | .sLen => if t.length < 4 then { f with label := .rejected .short } else { f with label := .sDelim }
  | .sDelim =>
      if ch t 3 = chHash then { f with label := .sId, n := 3, k := 0, idx := 4 }
      else if ch t 8 = chHash then { f with label := .sId, n := 8, k := 0, idx := 9 }
      else { f with label := .rejected .nodelim }
  | .sId =>
      let d := nib (ch t f.k)
      if d > 15 then { f with label := .rejected .badId }
      else
        { f with label := if f.k + 1 < f.n then .sId else .sEff,
                 id := f.id ||| (BitVec.ofNat 32 d <<< (4 * (f.n - 1 - f.k))), k := f.k + 1 }
  | .sEff => { f with label := .sSel, id := markExtended f.n f.id }
  | .sSel =>
      if ch t f.idx = chUpperR ∨ ch t f.idx = chLowerR then { f with label := .sRtr }
      else if ch t f.idx = chHash then { f with label := .sFdf }
      else { f with label := .sData }
  | .sRtr =>
      let d := nib (ch t (f.idx + 1))
      { f with label := .accepted, id := f.id ||| rtrBit, kind := .classic,
               len := if d ≤ Config.rtrMax then d else f.len }
  | .sFdf =>
      let d := nib (ch t (f.idx + 1))
      if d > 15 then { f with label := .rejected .badFlag }
      else
        { f with label := .sData, flags := d, maxlen := Config.fdMax, kind := .fd, idx := f.idx + 2 }
  | .sData => { f with label := .sDsep, i := 0 }
  | .sDsep =>
      if f.i < f.maxlen then
        let at' := skipDot t f.idx
        if at' ≥ t.length then { f with label := .accepted, idx := at', len := f.i }
        else { f with label := .sDhi, idx := at' }
      else { f with label := .accepted, len := f.i }
  | .sDhi =>
      let d := nib (ch t f.idx)
      if d > 15 then { f with label := .rejected .badData }
      else { f with label := .sDlo, hi := d, idx := f.idx + 1 }
  | .sDlo =>
      let d := nib (ch t f.idx)
      if d > 15 then { f with label := .rejected .badData }
      else
        { f with label := .sDsep, data := f.data ++ [pairByte f.hi d], i := f.i + 1, idx := f.idx + 1 }
  | .accepted => f
  | .rejected _ => f

/-- `k` transitions. -/
def Fsm.iterate (t : List Byte) : Nat → Fsm → Fsm
  | 0, f => f
  | k + 1, f => Fsm.iterate t k (f.next t)

/-- The result the machine has reached, if it has reached one. -/
def Fsm.outcome (f : Fsm) : Option ParseResult :=
  match f.label with
  | .accepted => some (.accept f.kind { id := f.id, len := f.len, flags := f.flags, data := f.data })
  | .rejected r => some (.reject r)
  | _ => none

end Sys2Proof.Machine
end

