-- ==== Sys2Proof/Machine/Render.lean ====
section
/-!
DEFINITION. RENDER, accumulator to frame text (42_render).
-/

namespace Sys2Proof.Machine

/-- `v = ACC[SLOT] mod 2^(8*DLC)` (42_render R152). -/
def renderValue (acc : Dword) (dlc : Nat) : Nat := acc.toNat % 2 ^ (8 * dlc)

/-- Payload digit `j` of `2*DLC`, most significant first (42_render R152). -/
def renderDigit (hc : HexCase) (v dlc j : Nat) : Byte := hexch hc (v / 16 ^ (2 * dlc - 1 - j) % 16)

/-- The rendered text: the identifier verbatim, `'#'`, then exactly `2*DLC` digits (42_render R152). -/
def renderText (s : State) (slot dlc : Nat) (idl : IdLen) : List Byte :=
  (List.range idl.chars).map s.ridByte ++ [chHash] ++
    (List.range (2 * dlc)).map
      (renderDigit s.params.hexCase (renderValue (s.accAt slot) dlc) dlc)

/-- The writes of a successful RENDER: TEXT[0..n+2*DLC] and TLEN (42_render R152, R153). -/
def State.putText (s : State) (t : List Byte) : State :=
  { s with mem := s.mem.writeBytes textBase t, tlen := BitVec.ofNat 9 t.length }

/-- RENDER (42_render R151 to R153): a failing check leaves TEXT and TLEN unchanged. -/
def execRender (slot dlc : Nat) (idl : IdLen) (s : State) : Host.Outcome State Fault Refusal :=
  match renderCheck s.params.nacc slot dlc with
  | .ok => .next ((s.putText (renderText s slot dlc idl)).finishPck .ok lastopRender)
  | c => .next (s.finishPck c lastopRender)

end Sys2Proof.Machine
end

