-- ==== Sys2Proof/Machine/Dispatch.lean ====
section
/-!
DEFINITION. What each command does, from its operands as they stand to its completion (44_control
R210, R212). `exec i s` is the completion event of command `i`: its writes, then BUSY <- 0, DONE <- 1
(SRST: the reset). The host's side, with acceptance and BUSY = 1, is in Machine/Bus.lean.
-/

namespace Sys2Proof.Machine

def exec (i : Instr) (s : State) : Host.Outcome State Fault Refusal :=
  match i with
  | .nop => Sys2Proof.Machine.execNop s
  | .parse => Sys2Proof.Machine.execParse s
  | .pack slot pos size dlc => Sys2Proof.Machine.execPack slot pos size dlc s
  | .render slot dlc idl => Sys2Proof.Machine.execRender slot dlc idl s
  | .srst => Sys2Proof.Machine.execSrst s

end Sys2Proof.Machine
end

