-- ==== Sys2Proof/Machine/Engine.lean ====
section
/-!
DEFINITION. The engine between the acceptance of a command and its completion: what acceptance does
(44_control R210), and how the hidden working values (10_state R44, 43_parser R189; DESIGN CHOICE, log 9) move on
in a cycle with BUSY = 1. No architectural register changes there (20_memory R72).
-/

namespace Sys2Proof.Machine

/-- The working values a command starts with; its operands are as they stand at acceptance
(20_memory R73). -/
def Work.start (s : State) : Instr → Work
  | .nop => .none
  | .parse => .parse Fsm.start
  | .pack slot pos size dlc =>
      match packCheck s.params.nacc slot pos size dlc with
      | .ok => .pack 0 (packShift pos size dlc) (packMask size) (s.val &&& packMask size)
      | c => .pack c.value 0 0 0
  | .render slot dlc idl =>
      match renderCheck s.params.nacc slot dlc with
      | .ok => .render 0 idl.chars (renderValue (s.accAt slot) dlc) 0
      | c => .render c.value 0 0 0
  | .srst => .none

/-- One cycle of the engine: PARSE makes one transition of 43_parser R189, RENDER goes to the next
digit `j` of 42_render R152, the others hold their values. -/
def Work.advance (t : List Byte) (i : Instr) (w : Work) : Work :=
  match i, w with
  | .parse, .parse f => .parse (f.next t)
  | .render _ dlc _, .render 0 n v j => .render 0 n v (if j < 2 * dlc then j + 1 else j)
  | _, w => w

/-- The working values after `k` cycles. -/
def Work.after (t : List Byte) (i : Instr) : Nat → Work → Work
  | 0, w => w
  | k + 1, w => Work.after t i k (w.advance t i)

/-- The acceptance of a command that will be seen running: `current <- v`, BUSY <- 1, DONE <- 0
(44_control R210). -/
def State.accept (s : State) (i : Instr) (lat : Nat) : State :=
  { s with current := some { cmd := i, left := lat, work := Work.start s i }, done := false }

/-- A cycle of LAT goes by for the running command, `left` cycles remaining (00_scope R5). -/
def State.cycle (s : State) (r : Running) (left : Nat) : State :=
  { s with current := some { r with left := left, work := r.work.advance s.effText r.cmd } }

end Sys2Proof.Machine
end

