-- ==== Sys2Proof/Machine/Bus.lean ====
section
/-!
DEFINITION. The bus side of the block (20_memory): the address map (R63), which accesses are valid
(R61), host reads (R67), the eight ordered steps of a host write (R68), the dispatch of a command
word (44_control R210, R211), and the service of one pending access.
-/

namespace Sys2Proof.Machine

/-! ### The address map (20_memory R63) -/

/-- The mapped locations, each one 32-bit word (20_memory R63, R64). -/
inductive Loc where
  | id
  | param
  | cmd
  | status
  | tlen
  | prsRes
  | frmId
  | frmLen
  | frmFlags
  | pckRes
  | valLo
  | valHi
  | ridLo
  | ridHi
  /-- TEXT word `w`, 0..63. -/
  | text (w : Nat)
  /-- FRM_DATA word `w`, 0..15. -/
  | frmData (w : Nat)
  /-- The low word of ACC[s]. -/
  | accLo (s : Nat)
  /-- The high word of ACC[s]. -/
  | accHi (s : Nat)
  deriving DecidableEq, Repr

/-- The named registers of 20_memory R63 with their offsets. -/
def namedLocs : List (Nat × Loc) :=
  [ (0x000, .id), (0x004, .param), (0x008, .cmd), (0x00C, .status), (0x010, .tlen),
    (0x014, .prsRes), (0x018, .frmId), (0x01C, .frmLen), (0x020, .frmFlags), (0x024, .pckRes),
    (0x028, .valLo), (0x02C, .valHi), (0x030, .ridLo), (0x034, .ridHi) ]

/-- What lies at a word-aligned offset, or nothing where it is unmapped (20_memory R63). -/
def locate (p : Params) (off : Nat) : Option Loc :=
  match namedLocs.lookup off with
  | some l => some l
  | none =>
      if 0x100 ≤ off ∧ off < 0x200 then some (.text ((off - 0x100) / 4))
      else if 0x200 ≤ off ∧ off < 0x240 then some (.frmData ((off - 0x200) / 4))
      else if 0x400 ≤ off ∧ off < 0x400 + 8 * p.nacc then
        some (if (off - 0x400) % 8 < 4 then .accLo ((off - 0x400) / 8) else .accHi ((off - 0x400) / 8))
      else none

/-- The location a valid access names: size 4, aligned, mapped; nothing where the access is invalid
(20_memory R61). -/
def validLoc (p : Params) (off n : Nat) : Option Loc :=
  if n = 4 ∧ off % 4 = 0 then locate p off else none

/-- The read-only locations that a write is refused at (20_memory R68 step 5). -/
def Loc.readOnly : Loc → Bool
  | .id | .param | .prsRes | .frmId | .frmLen | .frmFlags | .pckRes | .frmData _ => true
  | .cmd | .status | .tlen | .valLo | .valHi | .ridLo | .ridHi | .text _ | .accLo _ | .accHi _ => false

/-- The window offset of a bus address, if it lies in the window (20_memory R60; DESIGN CHOICE, log 11). -/
def windowOffset (p : Params) (addr : Nat) : Option Nat :=
  if p.base ≤ addr ∧ addr < p.base + Config.windowSize then some (addr - p.base) else none

/-! ### Reads (20_memory R67) -/

/-- The bit HEXUP of PARAM (10_state R23). -/
def hexUp (p : Params) : Bool := p.hexCase == .upper

/-- The current value of a location (20_memory R67). -/
def State.readLoc (s : State) : Loc → Word
  | .id => Config.idValue
  | .param =>
      (0 : BitVec 23) ++ BitVec.ofBool (hexUp s.params) ++ (0 : BitVec 3) ++ BitVec.ofNat 5 s.params.nacc
  | .cmd => 0
  | .status => s.statusWord
  | .tlen => s.tlen.setWidth 32
  | .prsRes => (0 : BitVec 16) ++ s.mtu ++ (0 : BitVec 1) ++ s.reason ++ (0 : BitVec 2) ++ s.kind
  | .frmId => s.frmId
  | .frmLen => s.frmLen.setWidth 32
  | .frmFlags => s.frmFlags.setWidth 32
  | .pckRes => (0 : BitVec 22) ++ s.lastop ++ (0 : BitVec 5) ++ s.code
  | .valLo => lowHalf s.val
  | .valHi => highHalf s.val
  | .ridLo => s.mem.word ridBase
  | .ridHi => s.mem.word (ridBase + 4)
  | .text w => s.mem.word (textBase + 4 * w)
  | .frmData w => s.mem.word (frmBase + 4 * w)
  | .accLo k => lowHalf (s.accAt k)
  | .accHi k => highHalf (s.accAt k)

/-- The write set of a running command (20_memory R79). -/
def writeSet (p : Params) : Instr → Loc → Bool
  | .nop, _ => false
  | .parse, .prsRes | .parse, .frmId | .parse, .frmLen | .parse, .frmFlags | .parse, .frmData _ => true
  | .parse, _ => false
  | .pack _ _ _ _, .pckRes => true
  | .pack slot _ _ _, .accLo k => decide (k = slot ∧ slot < p.nacc)
  | .pack slot _ _ _, .accHi k => decide (k = slot ∧ slot < p.nacc)
  | .pack _ _ _ _, _ => false
  | .render _ _ _, .pckRes | .render _ _ _, .tlen | .render _ _ _, .text _ => true
  | .render _ _ _, _ => false
  | .srst, _ => false

/-- Whether a location is in the write set of the command that runs now, if one does. -/
def State.unspecified (s : State) (l : Loc) : Bool :=
  match s.current with
  | some r => writeSet s.params r.cmd l
  | none => false

/-- MemRead: the value returned, and the state after (20_memory R67). The value of a read in the
running command's write set is a free value (R79, DESIGN CHOICE, log 4). -/
def State.memRead (s : State) (off n : Nat) : Word × State :=
  match validLoc s.params off n with
  | none => (0, s.setBuserr)
  | some l =>
      if s.unspecified l then (Config.busyRead s.fresh, { s with fresh := s.fresh + 1 })
      else (s.readLoc l, s)

/-! ### Writes (20_memory R68) -/

/-- The word of SRST (44_control R214), which step 3 of 20_memory R68 takes. -/
def srstWord : Word := 0x0000000F

/-- `min(v, 256)`, as TLEN stores it (10_state R29). -/
def saturateTlen (v : Word) : BitVec 9 := BitVec.ofNat 9 (min v.toNat Config.textSize)

/-- Steps 7 and 8 of 20_memory R68: the write of a location that stores its value. The locations that
earlier steps take are left alone. -/
def State.storeLoc (s : State) (v : Word) : Loc → State
  | .tlen => { s with tlen := saturateTlen v }
  | .valLo => { s with val := withLow s.val v }
  | .valHi => { s with val := withHigh s.val v }
  | .ridLo => { s with mem := s.mem.writeWord ridBase v }
  | .ridHi => { s with mem := s.mem.writeWord (ridBase + 4) v }
  | .text w => { s with mem := s.mem.writeWord (textBase + 4 * w) v }
  | .accLo k => s.setAcc k (withLow (s.accAt k) v)
  | .accHi k => s.setAcc k (withHigh (s.accAt k) v)
  | .id | .param | .cmd | .status | .prsRes | .frmId | .frmLen | .frmFlags | .pckRes | .frmData _ => s

/-- Dispatch of a command word (44_control R210, R211), `lat` being its LAT. With LAT = 0 nothing is
served between acceptance and completion, and the completion overwrites what the acceptance wrote to
BUSY and DONE (DESIGN CHOICE, log 16). -/
def dispatchWord (v : Word) (lat : Nat) (s : State) : Host.Outcome State Fault Refusal :=
  match decode v with
  | .error _ => .next s.setIllcmd
  | .ok i => if lat = 0 then exec i s else .next (s.accept i lat)

/-- MemWrite: the steps of 20_memory R68 in order, the first that applies ending the write. -/
def State.memWrite (s : State) (off n : Nat) (v : Word) (lat : Nat) : Host.Outcome State Fault Refusal :=
  match validLoc s.params off n with
  | none => .next s.setBuserr
  | some l =>
      if l = .status then .next (s.clearStatus v)
      else if l = .cmd ∧ v = srstWord then exec .srst s
      else if s.busy then .next s.setWbusy
      else if l.readOnly then .next s.setBuserr
      else if l = .cmd then dispatchWord v lat s
      else .next (s.storeLoc v l)

/-! ### Serving the host -/

/-- The value of a host read goes to the host (20_memory R67; DESIGN CHOICE, log 5). -/
def State.returnWord (r : Word × State) : State := { r.2 with reads := r.1 :: r.2.reads }

/-- The hardware reset input (70_reset_and_hazards R260). -/
def State.hwReset (s : State) : State := s.softReset

/-- A read at a bus address. The block decodes no address outside the window (20_memory R60). -/
def State.hostRead (s : State) (addr n : Nat) : State :=
  match windowOffset s.params addr with
  | none => s
  | some off => State.returnWord (s.memRead off n)

/-- A write at a bus address. The block decodes no address outside the window (20_memory R60). -/
def State.hostWrite (s : State) (addr n : Nat) (v : Word) (lat : Nat) : Host.Outcome State Fault Refusal :=
  match windowOffset s.params addr with
  | none => .next s
  | some off => s.memWrite off n v lat

/-- The queue with an access put back at its head. -/
def State.requeue (s : State) (op : HostOp) : State := { s with bus := op :: s.bus }

/-- One poll of `wait`: STATUS is read, and while it shows BUSY = 1 the `wait` stays next in the queue
(30_encoding R101; DESIGN CHOICE, log 15). -/
def State.hostWait (s : State) : State :=
  let t := State.returnWord (s.memRead 0x00C 4)
  if s.statusWord.getLsbD 0 then t.requeue .wait else t

/-- Serves one access, in a state whose queue no longer holds it; it takes full effect before the
next is served (20_memory R72). -/
def serve (op : HostOp) (s : State) : Host.Outcome State Fault Refusal :=
  match op with
  | .read addr n => .next (s.hostRead addr n)
  | .write addr n v lat => s.hostWrite addr n v lat
  | .wait => .next s.hostWait
  | .hwReset => .next s.hwReset

/-- The state with its next access taken from the queue. -/
def State.dequeued (s : State) (rest : List HostOp) : State := { s with bus := rest }

/-- Serves the host's next access in bus order, if there is one; otherwise the bus is idle and the
state stays as it is (DESIGN CHOICE, log 18). -/
def serveNext (s : State) : Host.Outcome State Fault Refusal :=
  match s.bus with
  | [] => .next s
  | op :: rest => serve op (s.dequeued rest)

/-- One cycle (DESIGN CHOICE, log 2): a running command whose LAT has gone by completes, and no access is served at
that moment (60_exceptions R234.3); in every other cycle the next access is served. -/
def tick (s : State) : Host.Outcome State Fault Refusal :=
  match s.current with
  | some r =>
      match r.left with
      | 0 => exec r.cmd s
      | left + 1 => serveNext (s.cycle r left)
  | none => serveNext s

/-- `s` with a CMD write of the word `w` as the next access of an idle block, LAT 0: the place from
which the block takes its next command (20_memory R76, DESIGN CHOICE, log 12). -/
def State.placeCommand (s : State) (w : Word) : State :=
  { s with bus := .write (s.params.base + 0x008) 4 w 0 :: s.bus, current := none }

end Sys2Proof.Machine
end

