-- ==== Sys2Proof/Machine/Step.lean ====
section
/-!
DEFINITION. One step of the machine, and where it takes its next command from.
-/

namespace Sys2Proof.Machine

/-- One step: a cycle of the block with the host's next access (20_memory R72). -/
def step (s : State) : Host.Outcome State Fault Refusal := tick s

/-- `s` with the command whose bits are `w` as the host's next CMD write (DESIGN CHOICE, log 12). Every command has
32 bits (30_encoding R90); bits above `nbits` are 0. -/
def State.withFetchWord (s : State) (nbits w : Nat) : State :=
  s.placeCommand (BitVec.ofNat 32 (w % 2 ^ nbits))

end Sys2Proof.Machine
end

