-- ==== Sys2Proof/Machine/Masters.lean ====
section
/-!
DEFINITION. Host programs of several bus masters (70_reset_and_hazards R268). The block cannot tell the
masters apart (20_memory R72), so they stand here, on the host's side: a program names the master of
each access and the moments at which a master takes and gives up the platform's lock, and its accesses
become pending only if it keeps the rule. A program that does not is refused, as
93_implementation_defined section 2 asks ("a model must refuse such host programs"). The form of the
lock is the model's (DESIGN CHOICE, log 13).
-/

namespace Sys2Proof.Machine

/-! ### What an access uses -/

/-- The location an access names, if it is a valid one (20_memory R60, R61). `wait` reads STATUS. -/
def accessLoc (p : Params) : HostOp → Option Loc
  | .read addr n => (windowOffset p addr).bind (fun off => validLoc p off n)
  | .write addr n _ _ => (windowOffset p addr).bind (fun off => validLoc p off n)
  | .wait => some .status
  | .hwReset => none

/-- Whether an access is a master's use of the block: the block decodes no address outside its window
(20_memory R60), and a hardware reset is the platform's (70_reset_and_hazards R260). -/
def usesBlock (p : Params) : HostOp → Bool
  | .read addr _ => (windowOffset p addr).isSome
  | .write addr _ _ _ => (windowOffset p addr).isSome
  | .wait => true
  | .hwReset => false

/-- The window offset of a location (20_memory R63). -/
def Loc.offset : Loc → Nat
  | .id => 0x000
  | .param => 0x004
  | .cmd => 0x008
  | .status => 0x00C
  | .tlen => 0x010
  | .prsRes => 0x014
  | .frmId => 0x018
  | .frmLen => 0x01C
  | .frmFlags => 0x020
  | .pckRes => 0x024
  | .valLo => 0x028
  | .valHi => 0x02C
  | .ridLo => ridBase
  | .ridHi => ridBase + 4
  | .text w => textBase + 4 * w
  | .frmData w => frmBase + 4 * w
  | .accLo k => 0x400 + 8 * k
  | .accHi k => 0x404 + 8 * k

/-- The locations whose use R268 puts under the lock: the operand and result registers, CMD, and ACC,
which a command reads and writes (20_memory R73). ID, PARAM and STATUS are neither (DESIGN CHOICE,
log 13). -/
def Loc.shared : Loc → Bool
  | .id | .param | .status => false
  | .cmd | .tlen | .prsRes | .frmId | .frmLen | .frmFlags | .pckRes | .valLo | .valHi | .ridLo | .ridHi
  | .text _ | .frmData _ | .accLo _ | .accHi _ => true

/-- The operand registers that R268 names: TEXT, TLEN, VAL and RID. -/
def Loc.operand : Loc → Bool
  | .tlen | .valLo | .valHi | .ridLo | .ridHi | .text _ => true
  | .id | .param | .cmd | .status | .prsRes | .frmId | .frmLen | .frmFlags | .pckRes | .frmData _
  | .accLo _ | .accHi _ => false

/-- The result registers (70_reset_and_hazards R269), with TEXT and TLEN, where RENDER leaves its text
(42_render R153). -/
def Loc.result : Loc → Bool
  | .prsRes | .frmId | .frmLen | .frmFlags | .frmData _ | .pckRes | .tlen | .text _ => true
  | .id | .param | .cmd | .status | .valLo | .valHi | .ridLo | .ridHi | .accLo _ | .accHi _ => false

/-- How a byte of a shared register is used: as an operand the host writes and a command takes, or as
a result a command leaves and the host reads. -/
inductive Role where
  | operand
  | result
  deriving DecidableEq, Repr

/-- A byte of a shared register, by its window offset, in one of its roles. -/
structure SharedByte where
  off  : Nat
  role : Role
  deriving DecidableEq, Repr

/-- `n` bytes from offset `off`. -/
def sharedBytes (role : Role) (off n : Nat) : List SharedByte :=
  (List.range n).map (fun k => { off := off + k, role := role })

/-- The operand bytes a command takes, `len` being the effective length of TEXT: PARSE takes TLEN and
TEXT[0..len-1] (43_parser R170), a PACK that passes its checks the bytes of VAL that hold its low SIZE
bits (41_packer R132, R133, R135), a RENDER that passes its checks its identifier text (42_render R151,
R152). -/
def commandTakes (p : Params) (len : Nat) : Instr → List SharedByte
  | .nop => []
  | .parse => sharedBytes .operand Loc.tlen.offset 4 ++ sharedBytes .operand textBase len
  | .pack slot pos size dlc =>
      if packCheck p.nacc slot pos size dlc = .ok then
        sharedBytes .operand Loc.valLo.offset ((size + 7) / 8)
      else []
  | .render slot dlc idl =>
      if renderCheck p.nacc slot dlc = .ok then sharedBytes .operand ridBase idl.chars else []
  | .srst => []

/-- The length of the text a command leaves: a RENDER that passes its checks leaves one (42_render R151,
R152). -/
def renderedLength (p : Params) : Instr → Option Nat
  | .render slot dlc idl =>
      if renderCheck p.nacc slot dlc = .ok then some (idl.chars + 1 + 2 * dlc) else none
  | .nop => none
  | .parse => none
  | .pack _ _ _ _ => none
  | .srst => none

/-- The result bytes a command leaves (43_parser R172, 41_packer R132, 42_render R151 to R153). -/
def commandLeaves (p : Params) : Instr → List SharedByte
  | .nop => []
  | .parse => sharedBytes .result Loc.prsRes.offset 16 ++ sharedBytes .result frmBase Config.fdMax
  | .pack _ _ _ _ => sharedBytes .result Loc.pckRes.offset 4
  | .render slot dlc idl =>
      sharedBytes .result Loc.pckRes.offset 4 ++
        match renderedLength p (.render slot dlc idl) with
        | some len => sharedBytes .result Loc.tlen.offset 4 ++ sharedBytes .result textBase len
        | none => []
  | .srst => []

/-- The command a CMD write starts, if its word is legal (44_control R210). -/
def startedBy (p : Params) (op : HostOp) : Option Instr :=
  match op, accessLoc p op with
  | .write _ _ v _, some .cmd =>
      match decode v with
      | .ok i => some i
      | .error _ => none
  | _, _ => none

/-- The shared bytes an access puts: the operand it writes, or the results of the command it starts. -/
def puts (p : Params) (op : HostOp) : List SharedByte :=
  match startedBy p op with
  | some i => commandLeaves p i
  | none =>
      match op, accessLoc p op with
      | .write _ _ _ _, some l => if l.operand then sharedBytes .operand l.offset 4 else []
      | _, _ => []

/-- The offsets of the TEXT bytes that an access sets to 0x00, as a host write of TEXT shows. -/
def zeroes (p : Params) (op : HostOp) : List Nat :=
  match op, accessLoc p op with
  | .write _ _ v _, some (.text w) =>
      ((List.range 4).filter (fun k => byteOf v k == 0)).map (fun k => textBase + 4 * w + k)
  | _, _ => []

/-- TLEN where an access puts it (10_state R29, 42_render R153). -/
def putsTlen (p : Params) (op : HostOp) : Option Nat :=
  match op, accessLoc p op with
  | .write _ _ v _, some .tlen => some (min v.toNat Config.textSize)
  | _, _ => (startedBy p op).bind (renderedLength p)

/-- Whether an access resets the block (70_reset_and_hazards R260). -/
def resets (p : Params) (op : HostOp) : Bool := op = .hwReset || startedBy p op == some .srst

/-! ### The lock -/

/-- A put of a shared byte; `sure` says that it cannot have been dropped (20_memory R68 step 4). -/
structure SharedPut where
  byte : SharedByte
  sure : Bool
  deriving DecidableEq, Repr

/-- What is known at a point of a host program of several masters. The fields after `left` are about the
present holding, but for `past`. -/
structure LockWalk where
  /-- The master that holds the lock. -/
  holder   : Option Nat
  /-- A bound on the accesses that can still meet BUSY = 1: a write there may be dropped (20_memory R68
  step 4). -/
  left     : Nat
  /-- What the holder has put since it took the lock, newest first. -/
  own      : List SharedPut
  /-- TLEN, where it is known. -/
  len      : Option Nat
  /-- The length of the holder's last RENDER, where it is known. -/
  rendered : Option Nat
  /-- The offsets of TEXT bytes that the holder has surely left 0x00. -/
  nuls     : List Nat
  /-- What masters put in earlier holdings, newest first. -/
  past     : List (Nat × SharedPut)
  deriving DecidableEq, Repr

/-- Before the first entry: no holder, the block idle, nothing put. -/
def LockWalk.start : LockWalk :=
  { holder := none, left := 0, own := [], len := none, rendered := none, nuls := [], past := [] }

/-- The bytes of TEXT that a PARSE can take: up to the first one known to be 0x00, or to TLEN
(43_parser R170, R187); all 256 where neither is known. -/
def LockWalk.textLength (w : LockWalk) : Nat :=
  let n := w.len.getD Config.textSize
  ((List.range n).find? (fun i => w.nuls.contains (textBase + i))).getD n

/-- The result bytes that a read of a location returns. A RENDER's result is TEXT[0..TLEN-1] (42_render
R153): once the holder has rendered, what lies past its text is no result. -/
def LockWalk.resultBytes (w : LockWalk) (l : Loc) : List SharedByte :=
  match l with
  | .text k => sharedBytes .result l.offset (min 4 (w.rendered.getD Config.textSize - 4 * k))
  | _ => if l.result then sharedBytes .result l.offset 4 else []

/-- The shared bytes an access uses: the operands of the command it starts, or the result it reads. -/
def takes (p : Params) (w : LockWalk) (op : HostOp) : List SharedByte :=
  match startedBy p op with
  | some i => commandTakes p w.textLength i
  | none =>
      match op, accessLoc p op with
      | .read _ _, some l => w.resultBytes l
      | _, _ => []

/-- Whether the holder `m` may use a byte now. It may where it has put the byte since it took the lock,
or never put it: so its lock lasts "from its first operand write to its last result read". A byte used as
a result is in question only where the master's last put of it can have been a result. -/
def LockWalk.covers (w : LockWalk) (m : Nat) (x : SharedByte) : Bool :=
  w.own.any (fun y => y.byte.off == x.off && y.sure) ||
    match x.role with
    | .operand => !w.past.any (fun e => e.1 == m && e.2.byte.off == x.off)
    | .result =>
        match w.past.find? (fun e =>
          e.1 == m && e.2.byte.off == x.off && (e.2.sure || e.2.byte.role == .result)) with
        | some e => e.2.byte.role == .operand
        | none => true

/-- The bound on BUSY after an access (00_scope R5, 20_memory R72): each access takes a cycle of LAT, and
a `wait` ends at BUSY = 0 (30_encoding R101). -/
def LockWalk.leftAfter (p : Params) (w : LockWalk) (op : HostOp) : Nat :=
  match op, startedBy p op with
  | .wait, _ => 0
  | .write _ _ _ lat, some _ => max (w.left - 1) lat
  | _, _ => w.left - 1

/-- A known value after an access that puts `new`: it is known only where the put is sure. -/
def LockWalk.known (w : LockWalk) (new old : Option Nat) : Option Nat :=
  match new with
  | none => old
  | some n => if w.left = 0 then some n else none

/-- The walk after a reset of the block: nothing runs, and TLEN is 0 (70_reset_and_hazards R261). The lock
is the platform's and not the block's, so its holder keeps it, over a hardware reset and over an SRST
alike (DESIGN CHOICE, log 13); and a use that began before the reset is still under it, so what was put in
this and in earlier holdings stays as it was. -/
def LockWalk.afterReset (w : LockWalk) : LockWalk :=
  { w with left := 0, len := w.holder.map (fun _ => 0) }

/-- The walk after the holder's access, which does not reset the block. -/
def LockWalk.afterAccess (p : Params) (w : LockWalk) (op : HostOp) : LockWalk :=
  let put := puts p op
  let kept := w.nuls.filter (fun off => !put.any (fun x => x.off == off))
  { w with left := w.leftAfter p op,
           own := put.map (fun x => { byte := x, sure := w.left == 0 }) ++ w.own,
           len := w.known (putsTlen p op) w.len,
           rendered := w.known ((startedBy p op).bind (renderedLength p)) w.rendered,
           nuls := if w.left = 0 then zeroes p op ++ kept else kept }

/-- One entry of a program under the rule of 70_reset_and_hazards R268, or nothing where it breaks the
rule: the lock has one holder at a time; the holder alone uses the block while it holds the lock; a shared
location is accessed by the holder only; and it uses no byte it put in an earlier holding. -/
def LockWalk.next (p : Params) (w : LockWalk) : MasterOp → Option LockWalk
  | .acquire m => if w.holder = none then some { w with holder := some m } else none
  | .release m =>
      if w.holder = some m then
        some { LockWalk.start with left := w.left, past := w.own.map (fun x => (m, x)) ++ w.past }
      else none
  | .access m op =>
      if op = .hwReset then some w.afterReset
      else if !usesBlock p op then some { w with left := w.left - 1 }
      else if w.holder = none ∧ !(accessLoc p op).any Loc.shared then
        some { w with left := w.leftAfter p op }
      else if w.holder = some m ∧ (takes p w op).all (w.covers m) then
        some (if resets p op then w.afterReset else w.afterAccess p op)
      else none

/-- A program under the lock rule, entry by entry. -/
def LockWalk.run (p : Params) : LockWalk → List MasterOp → Option LockWalk
  | w, [] => some w
  | w, e :: rest =>
      match w.next p e with
      | some w' => LockWalk.run p w' rest
      | none => none

/-- Whether a program keeps the lock rule. -/
def keepsLock (p : Params) (prog : List MasterOp) : Bool := (LockWalk.start.run p prog).isSome

/-! ### Admission -/

/-- The master that an entry shows using the block. -/
def userOf (p : Params) : MasterOp → Option Nat
  | .acquire _ => none
  | .release _ => none
  | .access m op => if usesBlock p op then some m else none

/-- Whether two masters use the block in a program. -/
def severalMasters (p : Params) (prog : List MasterOp) : Bool :=
  match prog.filterMap (userOf p) with
  | [] => false
  | m :: rest => rest.any (fun m' => m' != m)

/-- Whether the model admits a program: one master needs no lock; several must keep the rule
(70_reset_and_hazards R268). -/
def admits (p : Params) (prog : List MasterOp) : Bool := !severalMasters p prog || keepsLock p prog

/-- The access of an entry, as the bus delivers it: the lock is the platform's and the block does not
see the master (20_memory R72). -/
def MasterOp.delivered : MasterOp → Option HostOp
  | .acquire _ => none
  | .release _ => none
  | .access _ op => some op

/-- More of the host's program comes to the block (log 12): its accesses are pending, or it is refused
because, with what came before, several masters use the block without the lock (70_reset_and_hazards
R268). -/
def State.load (s : State) (prog : List MasterOp) : Host.Outcome State Fault Refusal :=
  if admits s.params (s.loaded ++ prog) then
    .next { s with bus := s.bus ++ prog.filterMap MasterOp.delivered, loaded := s.loaded ++ prog }
  else .refused .mastersWithoutLock

end Sys2Proof.Machine
end

