-- ==== Sys2Proof/Machine/HostSyntax.lean ====
section
/-!
DEFINITION. The host's side as 30_encoding writes it: host access lines (R100), the
pseudo-instructions with their expansions (R101), and command lines as text (R99). A program is a
list of `HostOp`; LAT is not part of the notation, so `wr` takes it as an argument
(00_scope R5; DESIGN CHOICE, log 2).
-/

namespace Sys2Proof.Machine

/-! ### Host accesses and pseudo-instructions (30_encoding R100, R101) -/

/-- `wr OFF, V` (30_encoding R100), with the LAT of the command it starts, if it starts one. -/
def wr (p : Params) (off : Nat) (v : Word) (lat : Nat) : HostOp := .write (p.base + off) 4 v lat

/-- `rd OFF` (30_encoding R100). -/
def rd (p : Params) (off : Nat) : HostOp := .read (p.base + off) 4

/-- A command mnemonic on its own line: `wr 0x008, <its word>` (30_encoding R100), with its LAT. -/
def cmdLine (p : Params) (i : Instr) (lat : Nat) : HostOp := wr p 0x008 (encode i) lat

/-- A `wr` line at an offset other than CMD: it starts no command, so its LAT, written 0, is never used
(DESIGN CHOICE, log 2). -/
def dataWr (p : Params) (off : Nat) (v : Word) : HostOp := wr p off v 0

/-- `setval v` (30_encoding R101). -/
def setval (p : Params) (v : Dword) : List HostOp :=
  [dataWr p 0x028 (v.extractLsb' 0 32), dataWr p 0x02C (v.extractLsb' 32 32)]

/-- The word `{c(k+3), c(k+2), c(k+1), c(k)}` of a text, a missing character being 0x00
(30_encoding R101). -/
def textWord (t : List Byte) (k : Nat) : Word :=
  wordOfBytes (t.getD k 0) (t.getD (k + 1) 0) (t.getD (k + 2) 0) (t.getD (k + 3) 0)

/-- `setrid "c0..ck"` (30_encoding R101); nothing for a text that is not of 1 to 8 characters. -/
def setrid (p : Params) (t : List Byte) : Option (List HostOp) :=
  if 1 ≤ t.length ∧ t.length ≤ 8 then some [dataWr p 0x030 (textWord t 0), dataWr p 0x034 (textWord t 4)]
  else none

/-- `settext "c0..c(m-1)"` (30_encoding R101); nothing for a text of more than 256 characters. -/
def settext (p : Params) (t : List Byte) : Option (List HostOp) :=
  if t.length ≤ 256 then
    some ((List.range ((t.length + 3) / 4)).map (fun w => dataWr p (0x100 + 4 * w) (textWord t (4 * w)))
      ++ [dataWr p 0x010 (BitVec.ofNat 32 t.length)])
  else none

/-- `clracc s` (30_encoding R101). -/
def clracc (p : Params) (k : Nat) : List HostOp := 
  [dataWr p (0x400 + 8 * k) 0, dataWr p (0x404 + 8 * k) 0]

/-- `clrsts` (30_encoding R101). -/
def clrsts (p : Params) : List HostOp := [dataWr p 0x00C 0x0000001E]

/-! ### Command lines as text (30_encoding R99) -/

/-- The value of a digit character below `radix`. -/
def digitValue (radix : Nat) (c : Char) : Option Nat :=
  let n := c.toNat
  let d :=
    if 0x30 ≤ n ∧ n ≤ 0x39 then n - 0x30
    else if 0x41 ≤ n ∧ n ≤ 0x46 then n - 0x41 + 10
    else if 0x61 ≤ n ∧ n ≤ 0x66 then n - 0x61 + 10
    else radix
  if d < radix then some d else none

/-- The number a string of digits stands for, most significant first. -/
def digitsValue (radix : Nat) : List Char → Nat → Option Nat
  | [], v => some v
  | c :: cs, v =>
      match digitValue radix c with
      | some d => digitsValue radix cs (radix * v + d)
      | none => none

/-- A number: decimal, or hexadecimal with `0x` (30_encoding R99). -/
def asmNumber : List Char → Option Nat
  | [] => none
  | ['0', 'x'] => none
  | '0' :: 'x' :: cs => digitsValue 16 cs 0
  | cs => digitsValue 10 cs 0

/-- The parts of a line between spaces and commas (DESIGN CHOICE, log 21). -/
def asmTokens : List Char → List Char → List (List Char)
  | [], [] => []
  | [], cur => [cur.reverse]
  | c :: cs, cur =>
      if c = ' ' ∨ c = ',' then
        (if cur = [] then asmTokens cs [] else cur.reverse :: asmTokens cs [])
      else asmTokens cs (c :: cur)

/-- The command of a line in the syntax of 30_encoding R99. -/
def asmCommand (line : List Char) : Option Instr :=
  match asmTokens line [] with
  | [['n', 'o', 'p']] => some .nop
  | [['p', 'a', 'r', 's', 'e']] => some .parse
  | [['s', 'r', 's', 't']] => some .srst
  | [['p', 'a', 'c', 'k'], s, pos, size, dlc] =>
      match asmNumber s, asmNumber pos, asmNumber size, asmNumber dlc with
      | some s, some pos, some size, some dlc => some (.pack s pos size dlc)
      | _, _, _, _ => none
  | [['r', 'e', 'n', 'd', 'e', 'r'], s, dlc, idl] =>
      match asmNumber s, asmNumber dlc, idl with
      | some s, some dlc, ['i', 'd', '3'] => some (.render s dlc .id3)
      | some s, some dlc, ['i', 'd', '8'] => some (.render s dlc .id8)
      | _, _, _ => none
  | _ => none

/-- The word a command line assembles to; an operand that does not fit is refused (30_encoding R99). -/
def asmLine (line : List Char) : Option Word :=
  match asmCommand line with
  | some i => assemble i
  | none => none

/-- A hex digit as a character, for `.word` lines (upper case, DESIGN CHOICE, log 21). -/
def hexDigitChar (n : Nat) : Char := if n ≤ 9 then Char.ofNat (0x30 + n) else Char.ofNat (0x37 + n)

/-- A word as eight hex digits (30_encoding R99). -/
def hexWord (c : Word) : List Char := (List.range 8).map (fun k => hexDigitChar (c.toNat / 16 ^ (7 - k) % 16))

/-- A number in decimal, with no leading zeros; `fuel` bounds its digits. -/
def decimal : (fuel n : Nat) → List Char
  | 0, _ => []
  | fuel + 1, n => (if n < 10 then [] else decimal fuel (n / 10)) ++ [Char.ofNat (0x30 + n % 10)]

/-- The operands of a line, `", "` between them. -/
def asmOperands : List (List Char) → List Char
  | [] => []
  | [x] => x
  | x :: xs => x ++ [',', ' '] ++ asmOperands xs

/-- A command as a line of 30_encoding R99, its numbers in decimal (an operand of a decoded word has
at most three digits). -/
def asmText : Instr → List Char
  | .nop => ['n', 'o', 'p']
  | .parse => ['p', 'a', 'r', 's', 'e']
  | .srst => ['s', 'r', 's', 't']
  | .pack s pos size dlc =>
      ['p', 'a', 'c', 'k', ' '] ++ asmOperands [decimal 3 s, decimal 3 pos, decimal 3 size, decimal 3 dlc]
  | .render s dlc idl =>
      ['r', 'e', 'n', 'd', 'e', 'r', ' '] ++
        asmOperands [decimal 3 s, decimal 3 dlc, match idl with | .id3 => ['i', 'd', '3'] | .id8 => ['i', 'd', '8']]

/-- What a disassembler prints for a word: its command line, or `.word 0xXXXXXXXX` where it is illegal
(30_encoding R99). -/
def disasmText (c : Word) : List Char :=
  match disassemble c with
  | .command i => asmText i
  | .word w => ['.', 'w', 'o', 'r', 'd', ' ', '0', 'x'] ++ hexWord w

end Sys2Proof.Machine
end

