-- ==== Sys2Proof/Safety.lean ====
section
/-!
DEFINITION. What a sound state is and what a safe host is, in the terms the claims use: the
invariants the rules of spec/ give the machine's state, and the busy discipline of
70_reset_and_hazards R265 on the host's pending accesses.
-/

namespace Sys2Proof.Machine

/-! ### Invariants of the state -/

/-- NACC lies in 1..16 (00_scope R5). -/
def paramsOk (p : Params) : Prop := 1 ≤ p.nacc ∧ p.nacc ≤ 16

/-- A window offset that holds a byte of RID, TEXT or FRM_DATA (20_memory R63). -/
def inBuffers (x : Nat) : Prop :=
  (0x030 ≤ x ∧ x < 0x038) ∨ (0x100 ≤ x ∧ x < 0x200) ∨ (0x200 ≤ x ∧ x < 0x240)

/-- The byte buffers are in canonical form and hold nothing outside their offsets (DESIGN CHOICE, log 7). -/
def State.MemoryOk (s : State) : Prop :=
  s.mem.wf = true ∧ ∀ c ∈ s.mem, inBuffers c.1

/-- TLEN holds a legal value (10_state R29). -/
def State.TlenOk (s : State) : Prop := s.tlen.toNat ≤ 256

/-- KIND, REASON, MTU and the frame registers hold one of the combinations 43_parser R172 writes, or
reset leaves (10_state R34 to R36, R38, R39): all zero after a rejection; a classic frame has at most
8 bytes and no flags; an FD frame at most 64 bytes and one flags digit. -/
def State.ResultOk (s : State) : Prop :=
  (s.kind = 0 ∧ s.reason.toNat ≤ 5 ∧ s.mtu = 0 ∧ s.frmId = 0 ∧ s.frmLen = 0 ∧ s.frmFlags = 0) ∨
  (s.kind = 1 ∧ s.reason = 0 ∧ s.mtu = 16 ∧ s.frmLen.toNat ≤ 8 ∧ s.frmFlags = 0) ∨
  (s.kind = 2 ∧ s.reason = 0 ∧ s.mtu = 72 ∧ s.frmLen.toNat ≤ 64 ∧ s.frmFlags.toNat ≤ 15)

/-- FRM_DATA[j] = 0 for every j >= FRM_LEN (43_parser R186). -/
def State.FrameTailOk (s : State) : Prop :=
  ∀ j, s.frmLen.toNat ≤ j → j < 64 → s.frmByte j = 0

/-- PCK_RES holds only the values 10_state R41 says are written. -/
def State.PckOk (s : State) : Prop :=
  s.code.toNat ≤ 5 ∧ s.lastop.toNat ≤ 2 ∧ (s.lastop = 0 → s.code = 0)

/-- The accumulators past NACC, which nothing maps, stay at their reset value (10_state R42; DESIGN CHOICE, log 19). -/
def State.AccOk (s : State) : Prop := ∀ k, s.params.nacc ≤ k → s.accAt k = 0

/-- While a command runs: it is one Dispatch accepts (44_control R210; SRST never is), and DONE = 0
(10_state R27). -/
def State.RunningOk (s : State) : Prop :=
  ∀ r, s.current = some r → r.cmd.wf = true ∧ r.cmd ≠ .srst ∧ s.done = false

/-- The hidden working values of a running command are those its start and some number of cycles give
from the operands as they stand now: no operand has changed since acceptance (20_memory R73). -/
def State.HiddenOk (s : State) : Prop :=
  ∀ r, s.current = some r → ∃ k, r.work = Work.after s.effText r.cmd k (Work.start s r.cmd)

/-- The invariants together. -/
structure State.Inv (s : State) : Prop where
  params  : paramsOk s.params
  memory  : s.MemoryOk
  tlen    : s.TlenOk
  result  : s.ResultOk
  tail    : s.FrameTailOk
  pck     : s.PckOk
  acc     : s.AccOk
  running : s.RunningOk
  hidden  : s.HiddenOk

/-! ### The busy discipline (70_reset_and_hazards R265) -/

/-- Whether an access is a valid one to the register at offset `off`. -/
def isAccessTo (p : Params) (off addr n : Nat) : Bool :=
  windowOffset p addr == some off && n == 4

/-- A host program that keeps the busy discipline: after a CMD write it does nothing but access STATUS
until it has waited for BUSY = 0 or has reset the block. `pending` says whether a command may still be
running at this point. -/
def disciplined (p : Params) : (pending : Bool) → List HostOp → Bool
  | _, [] => true
  | _, .wait :: rest => disciplined p false rest
  | _, .hwReset :: rest => disciplined p false rest
  | pending, .read addr n :: rest =>
      (!pending || isAccessTo p 0x00C addr n) && disciplined p pending rest
  | pending, .write addr n v _ :: rest =>
      if isAccessTo p 0x008 addr n && v == srstWord then disciplined p false rest
      else if pending then isAccessTo p 0x00C addr n && disciplined p true rest
      else disciplined p (isAccessTo p 0x008 addr n) rest

/-- The host's pending accesses keep the busy discipline from this state on. -/
def State.Disciplined (s : State) : Prop := disciplined s.params s.busy s.bus = true

/-! ### What the next step does, in the words of the rules -/

/-- The next step completes the command `i`: the running command, its LAT gone by, or an idle block's
next CMD write, its LAT 0 (44_control R212). -/
def State.CompletesNow (s : State) (i : Instr) : Prop :=
  (∃ r, s.current = some r ∧ r.left = 0 ∧ r.cmd = i) ∨
  (s.current = none ∧ ∃ addr v rest, s.bus = .write addr 4 v 0 :: rest ∧
    windowOffset s.params addr = some 0x008 ∧ decode v = .ok i)

/-- The next access in the queue resets the block: the hardware reset input, or the SRST word written
to CMD (70_reset_and_hazards R260). -/
def State.ResetNext (s : State) : Prop :=
  ∃ op rest, s.bus = op :: rest ∧
    (op = .hwReset ∨
      ∃ addr lat, op = .write addr 4 srstWord lat ∧ windowOffset s.params addr = some 0x008)

/-- The next access in the queue writes 1 to STATUS bit `b` (10_state R25). -/
def State.ClearNext (s : State) (b : Nat) : Prop :=
  ∃ addr v lat rest, s.bus = .write addr 4 v lat :: rest ∧
    windowOffset s.params addr = some 0x00C ∧ v.getLsbD b = true

/-- The next access in the queue reads, or writes, `n` bytes at offset `off`. -/
def State.AccessNext (s : State) (off n : Nat) : Prop :=
  ∃ addr rest, windowOffset s.params addr = some off ∧
    (s.bus = .read addr n :: rest ∨ ∃ v lat, s.bus = .write addr n v lat :: rest)

/-- The next access in the queue writes the word `v` at offset `off`. -/
def State.WriteNext (s : State) (off : Nat) (v : Word) : Prop :=
  ∃ addr lat rest, windowOffset s.params addr = some off ∧ s.bus = .write addr 4 v lat :: rest

/-! ### The address map in numbers (20_memory R61, R63) -/

/-- The mapped offsets of 20_memory R63. -/
def mappedOffset (nacc off : Nat) : Prop :=
  off < 0x038 ∨ (0x100 ≤ off ∧ off < 0x240) ∨ (0x400 ≤ off ∧ off < 0x400 + 8 * nacc)

/-- A valid access (20_memory R61). -/
def validAccess (nacc off n : Nat) : Prop := n = 4 ∧ off % 4 = 0 ∧ mappedOffset nacc off

/-- The RO offsets of 20_memory R68 step 5. -/
def readOnlyOffset (off : Nat) : Prop :=
  off = 0x000 ∨ off = 0x004 ∨ (0x014 ≤ off ∧ off ≤ 0x024) ∨ (0x200 ≤ off ∧ off < 0x240)

/-- The offsets of the write set of a running command (20_memory R79). -/
def inWriteSet (nacc : Nat) (i : Instr) (off : Nat) : Prop :=
  match i with
  | .nop => False
  | .parse => off = 0x014 ∨ off = 0x018 ∨ off = 0x01C ∨ off = 0x020 ∨ (0x200 ≤ off ∧ off < 0x240)
  | .pack slot _ _ _ => off = 0x024 ∨ (slot < nacc ∧ (off = 0x400 + 8 * slot ∨ off = 0x404 + 8 * slot))
  | .render _ _ _ => off = 0x024 ∨ off = 0x010 ∨ (0x100 ≤ off ∧ off < 0x200)
  | .srst => False

/-! ### The grammar of 43_parser -/

/-- The number a string of hex digits stands for, most significant first (43_parser R176). -/
def hexValue (ds : List Byte) : Nat := ds.foldl (fun v c => 16 * v + nib c) 0

/-- A hex digit (40_nibble R121). -/
def isHex (c : Byte) : Prop := nib c ≤ 15

/-- The identifier word a delimited identifier text gives, before any RTR flag (43_parser R176, R177). -/
def identWord (ds : List Byte) : Word :=
  let v := BitVec.ofNat 32 (hexValue ds)
  if ds.length = 8 ∧ v.getLsbD 29 = false then v ||| 0x80000000 else v

/-- The number of identifier digits by the place of the delimiter: index 3 first, then index 8
(43_parser R175). -/
def delimiterAt (t : List Byte) : Option Nat :=
  if ch t 3 = 0x23 then some 3 else if ch t 8 = 0x23 then some 8 else none

/-- A text whose length, delimiter and identifier digits are good, the delimiter at `n`
(43_parser R174 to R176). -/
def headOk (t : List Byte) (n : Nat) : Prop :=
  4 ≤ t.length ∧ delimiterAt t = some n ∧ ∀ k, k < n → isHex (ch t k)

/-- The characters of payload pairs, each with its optional separator (43_parser R181, R183). -/
def pairsText (ps : List (Bool × Byte × Byte)) : List Byte :=
  ps.flatMap (fun p => (if p.1 then [chDot] else []) ++ [p.2.1, p.2.2])

/-- A text that the payload rules accept, giving `data`: at most `maxlen` pairs of hex digits, and
after fewer than `maxlen` nothing but one optional separator; what follows the last pair allowed is
never read (43_parser R181 to R183). -/
def isPayload (maxlen : Nat) (t data : List Byte) : Prop :=
  ∃ ps tail, t = pairsText ps ++ tail ∧ (∀ p ∈ ps, isHex p.2.1 ∧ isHex p.2.2) ∧
    data = ps.map (fun p => BitVec.ofNat 8 (16 * nib p.2.1 + nib p.2.2)) ∧
    ps.length ≤ maxlen ∧ (ps.length = maxlen ∨ tail = [] ∨ tail = [chDot])

/-- The grammar of frame texts and the frame each stands for, form by form: remote frame (43_parser
R179), FD frame (R180), classic data frame (R178, R181). -/
def isFrameText (t : List Byte) (k : FrameKind) (f : Frame) : Prop :=
  ∃ ids rest, t = ids ++ chHash :: rest ∧ (ids.length = 3 ∨ ids.length = 8) ∧ (∀ c ∈ ids, isHex c) ∧
    ((∃ c more, rest = c :: more ∧ (c = chUpperR ∨ c = chLowerR) ∧ k = .classic ∧
        f = { id := identWord ids ||| 0x40000000, flags := 0, data := [],
              len := if nib (more.headD 0) ≤ 8 then nib (more.headD 0) else 0 }) ∨
     (∃ d more data, rest = chHash :: d :: more ∧ isHex d ∧ k = .fd ∧ isPayload 64 more data ∧
        f = { id := identWord ids, len := data.length, flags := nib d, data := data }) ∨
     (∃ data, rest.headD 0 ≠ chUpperR ∧ rest.headD 0 ≠ chLowerR ∧ rest.headD 0 ≠ chHash ∧
        k = .classic ∧ isPayload 8 rest data ∧
        f = { id := identWord ids, len := data.length, flags := 0, data := data }))

end Sys2Proof.Machine
end

