-- ==== Sys2Proof/Certificates/Slice0/Obligations.lean ====
section
/-!
DEFINITION. The statements for the provers, taken from the numbered rules of spec/. A statement that
answers a next state says so by an equation; hypotheses are on the state and the operands alone.
-/

open Sys2Proof Sys2Proof.Machine

/-! ### Command words (30_encoding) -/

/-- Decoding the word of a well-formed command gives the command back, for every operand value its
fields admit (R91 to R94, R99). -/
def Obligations.DecodeInvertsEncode : Prop :=
  ∀ i : Instr, i.wf = true → decode (encode i) = .ok i

/-- Every legal word is the word of the one command it decodes to, and that command is well formed
(R95, R99). -/
def Obligations.EncodeInvertsDecode : Prop :=
  ∀ (c : Word) (i : Instr), decode c = .ok i → i.wf = true ∧ encode i = c

/-- Words the spec writes out, decoded: the assembler table of R99 and vectors K-1, K-12, K-19, D-9. -/
def Obligations.SpecWordsDecode : Prop :=
  decode 0x00000000 = .ok .nop ∧ decode 0x00000001 = .ok .parse ∧
  decode 0x08100002 = .ok (.pack 0 0 8 8) ∧ decode 0x4003FF02 = .ok (.pack 0 511 1 64) ∧
  decode 0x7F1000F2 = .ok (.pack 15 0 8 127) ∧ decode 0x01000103 = .ok (.render 0 1 .id8) ∧
  decode 0x0000000F = .ok .srst

/-- R95: a word is legal if and only if it matches a row, each row gives its command with the fields of
R92 and R93, and, since a word decodes to one command only, no word matches two. -/
def Obligations.DecodeFollowsTheOpcodeMap : Prop :=
  ∀ c : Word,
    (c &&& 0xFFFFFFFF = 0x00000000 → decode c = .ok .nop) ∧
    (c &&& 0xFFFFFFFF = 0x00000001 → decode c = .ok .parse) ∧
    (c &&& 0x8000000F = 0x00000002 →
      decode c = .ok (.pack (c.extractLsb 7 4).toNat (c.extractLsb 16 8).toNat
        (c.extractLsb 23 17).toNat (c.extractLsb 30 24).toNat)) ∧
    (c &&& 0x80FFFE0F = 0x00000003 →
      decode c = .ok (.render (c.extractLsb 7 4).toNat (c.extractLsb 30 24).toNat
        (if c.getLsbD 8 then .id8 else .id3))) ∧
    (c &&& 0xFFFFFFFF = 0x0000000F → decode c = .ok .srst) ∧
    ((∃ i, decode c = .ok i) →
      c &&& 0xFFFFFFFF = 0x00000000 ∨ c &&& 0xFFFFFFFF = 0x00000001 ∨
      c &&& 0x8000000F = 0x00000002 ∨ c &&& 0x80FFFE0F = 0x00000003 ∨
      c &&& 0xFFFFFFFF = 0x0000000F)

/-- R96 and R211: the illegal words are the classes R96 lists; one written to CMD while BUSY = 0 sets
ILLCMD and does nothing else, and while BUSY = 1 it is dropped and sets WBUSY. -/
def Obligations.IllegalWordsAreRecordedAndDropped : Prop :=
  ∀ c : Word,
    ((∃ e, decode c = .error e) ↔
      ((4 ≤ c.toNat % 16 ∧ c.toNat % 16 ≤ 0xE) ∨
       ((c.toNat % 16 = 0x0 ∨ c.toNat % 16 = 0x1 ∨ c.toNat % 16 = 0xF) ∧
          ∃ b, 4 ≤ b ∧ b ≤ 31 ∧ c.getLsbD b = true) ∨
       (c.toNat % 16 = 0x2 ∧ c.getLsbD 31 = true) ∨
       (c.toNat % 16 = 0x3 ∧
          (c.getLsbD 31 = true ∨ ∃ b, 9 ≤ b ∧ b ≤ 23 ∧ c.getLsbD b = true)))) ∧
    ((∃ e, decode c = .error e) → ∀ (s : State) (lat : Nat),
      (s.busy = false → s.memWrite 0x008 4 c lat = .next { s with illcmd := true }) ∧
      (s.busy = true → s.memWrite 0x008 4 c lat = .next { s with wbusy := true }))

/-- R99: the assembler gives a command's line the command's word. -/
def Obligations.AssemblerReadsBackItsLines : Prop :=
  ∀ i : Instr, i.wf = true → asmLine (asmText i) = some (encode i)

/-! ### Bus accesses (20_memory) -/

/-- R61 with the map of R63: which accesses are valid. -/
def Obligations.ValidAccessesAreThoseOfTheMap : Prop :=
  ∀ (p : Params) (off n : Nat),
    (∃ l, validLoc p off n = some l) ↔ validAccess p.nacc off n

/-- R62: every other access is refused: BUSERR is set, a read returns 0, a write changes nothing else. -/
def Obligations.InvalidAccessesAreRefused : Prop :=
  ∀ (s : State) (off n : Nat) (v : Word) (lat : Nat), ¬ validAccess s.params.nacc off n →
    s.memRead off n = (0, { s with buserr := true }) ∧
    s.memWrite off n v lat = .next { s with buserr := true }

/-- What a valid read of an idle block returns, register by register, and that it changes no state
(R67, R70; 10_state R22 to R42; byte order R65, R66). -/
def Obligations.ReadsReturnTheRegisters : Prop :=
  ∀ s : State, s.busy = false → s.params.nacc ≤ 16 →
    (∀ off, validAccess s.params.nacc off 4 → (s.memRead off 4).2 = s) ∧
    (s.memRead 0x000 4).1 = 0x43414E31 ∧
    (s.memRead 0x004 4).1.toNat = s.params.nacc + (if s.params.hexCase = .upper then 0x100 else 0) ∧
    (s.memRead 0x008 4).1 = 0 ∧
    (s.memRead 0x00C 4).1.toNat =
      2 * s.done.toNat + 4 * s.illcmd.toNat + 8 * s.buserr.toNat + 16 * s.wbusy.toNat ∧
    (s.memRead 0x010 4).1.toNat = s.tlen.toNat ∧
    (s.memRead 0x014 4).1.toNat = s.kind.toNat + 16 * s.reason.toNat + 256 * s.mtu.toNat ∧
    (s.memRead 0x018 4).1 = s.frmId ∧
    (s.memRead 0x01C 4).1.toNat = s.frmLen.toNat ∧
    (s.memRead 0x020 4).1.toNat = s.frmFlags.toNat ∧
    (s.memRead 0x024 4).1.toNat = s.code.toNat + 256 * s.lastop.toNat ∧
    (s.memRead 0x028 4).1.toNat = s.val.toNat % 2 ^ 32 ∧
    (s.memRead 0x02C 4).1.toNat = s.val.toNat / 2 ^ 32 ∧
    (∀ k, k < 4 → (s.memRead 0x030 4).1.extractLsb' (8 * k) 8 = s.ridByte k) ∧
    (∀ k, k < 4 → (s.memRead 0x034 4).1.extractLsb' (8 * k) 8 = s.ridByte (4 + k)) ∧
    (∀ w k, w < 64 → k < 4 →
      (s.memRead (0x100 + 4 * w) 4).1.extractLsb' (8 * k) 8 = s.textByte (4 * w + k)) ∧
    (∀ w k, w < 16 → k < 4 →
      (s.memRead (0x200 + 4 * w) 4).1.extractLsb' (8 * k) 8 = s.frmByte (4 * w + k)) ∧
    (∀ k, k < s.params.nacc →
      (s.memRead (0x400 + 8 * k) 4).1.toNat = (s.accAt k).toNat % 2 ^ 32 ∧
      (s.memRead (0x404 + 8 * k) 4).1.toNat = (s.accAt k).toNat / 2 ^ 32)

/-- R79: while a command runs, a read in its write set returns an unspecified value and any other valid
read the current value. That the unspecified value is the free value `Config.busyRead`, of which nothing
is known, and that a counter goes up with it, is the model's own form of it (log 4). -/
def Obligations.ReadsWhileBusy : Prop :=
  ∀ (s : State) (r : Running), s.current = some r →
    ∀ off, validAccess s.params.nacc off 4 →
      (inWriteSet s.params.nacc r.cmd off →
        s.memRead off 4 = (Config.busyRead s.fresh, { s with fresh := s.fresh + 1 })) ∧
      (¬ inWriteSet s.params.nacc r.cmd off →
        ∃ l, validLoc s.params off 4 = some l ∧ s.memRead off 4 = (s.readLoc l, s))

/-- 10_state R25: the bits of STATUS, and a write to it, accepted whether BUSY is 0 or 1: a written 1
clears bits 1 to 4, and nothing else changes. -/
def Obligations.StatusWriteClearsWrittenOnes : Prop :=
  State.reset.statusWord = 0 ∧
  (∀ s : State,
    s.statusWord.getLsbD 0 = s.busy ∧ s.statusWord.getLsbD 1 = s.done ∧
    s.statusWord.getLsbD 2 = s.illcmd ∧ s.statusWord.getLsbD 3 = s.buserr ∧
    s.statusWord.getLsbD 4 = s.wbusy ∧ ∀ b, 5 ≤ b → s.statusWord.getLsbD b = false) ∧
  ∀ (s : State) (v : Word) (lat : Nat), ∃ t, s.memWrite 0x00C 4 v lat = .next t ∧
    t = { s with done := t.done, illcmd := t.illcmd, buserr := t.buserr, wbusy := t.wbusy } ∧
    ∀ b, t.statusWord.getLsbD b =
      (s.statusWord.getLsbD b && !(decide (1 ≤ b ∧ b ≤ 4) && v.getLsbD b))

/-- R69: a write to an RO offset is refused with BUSERR while BUSY = 0 and dropped with WBUSY while
BUSY = 1, the register unchanged; a read of CMD returns 0 and is not refused. -/
def Obligations.ReadOnlyWritesAreRefused : Prop :=
  ∀ (s : State) (off : Nat) (v : Word) (lat : Nat), readOnlyOffset off → off % 4 = 0 →
    (s.busy = false → s.memWrite off 4 v lat = .next { s with buserr := true }) ∧
    (s.busy = true → s.memWrite off 4 v lat = .next { s with wbusy := true }) ∧
    s.memRead 0x008 4 = (0, s)

/-- R68 step 4: while BUSY = 1 every valid write but one to STATUS and the SRST word to CMD is dropped
and sets WBUSY, so the operands of a running command cannot change (R73). -/
def Obligations.BusyWritesAreDropped : Prop :=
  ∀ (s : State) (off : Nat) (v : Word) (lat : Nat), s.busy = true →
    validAccess s.params.nacc off 4 → off ≠ 0x00C → ¬ (off = 0x008 ∧ v = 0x0000000F) →
    s.memWrite off 4 v lat = .next { s with wbusy := true }

/-- R68 steps 7 and 8 on an idle block: TLEN saturates at 256 (10_state R29), every other RW location
stores the word, little-endian in the byte buffers (R65) and by halves in the 64-bit registers (R66),
and nothing else changes. -/
def Obligations.IdleWritesStoreTheirValue : Prop :=
  ∀ (s : State) (v : Word) (lat : Nat), s.busy = false → s.mem.wf = true → s.params.nacc ≤ 16 →
    (∃ t, s.memWrite 0x010 4 v lat = .next t ∧ t = { s with tlen := t.tlen } ∧
      t.tlen.toNat = min v.toNat 256) ∧
    (∃ t, s.memWrite 0x028 4 v lat = .next t ∧ t = { s with val := t.val } ∧
      t.val.toNat = s.val.toNat / 2 ^ 32 * 2 ^ 32 + v.toNat) ∧
    (∃ t, s.memWrite 0x02C 4 v lat = .next t ∧ t = { s with val := t.val } ∧
      t.val.toNat = v.toNat * 2 ^ 32 + s.val.toNat % 2 ^ 32) ∧
    (∀ h, h < 2 → ∃ t, s.memWrite (0x030 + 4 * h) 4 v lat = .next t ∧ t = { s with mem := t.mem } ∧
      (∀ k, k < 4 → t.ridByte (4 * h + k) = v.extractLsb' (8 * k) 8) ∧
      ∀ x, x < 0x030 + 4 * h ∨ 0x034 + 4 * h ≤ x → t.mem.read x = s.mem.read x) ∧
    (∀ w, w < 64 → ∃ t, s.memWrite (0x100 + 4 * w) 4 v lat = .next t ∧ t = { s with mem := t.mem } ∧
      (∀ k, k < 4 → t.textByte (4 * w + k) = v.extractLsb' (8 * k) 8) ∧
      ∀ x, x < 0x100 + 4 * w ∨ 0x104 + 4 * w ≤ x → t.mem.read x = s.mem.read x) ∧
    (∀ k, k < s.params.nacc →
      (∃ t, s.memWrite (0x400 + 8 * k) 4 v lat = .next t ∧ t = { s with acc := t.acc } ∧
        (t.accAt k).toNat = (s.accAt k).toNat / 2 ^ 32 * 2 ^ 32 + v.toNat ∧
        ∀ j, j ≠ k → t.accAt j = s.accAt j) ∧
      (∃ t, s.memWrite (0x404 + 8 * k) 4 v lat = .next t ∧ t = { s with acc := t.acc } ∧
        (t.accAt k).toNat = v.toNat * 2 ^ 32 + (s.accAt k).toNat % 2 ^ 32 ∧
        ∀ j, j ≠ k → t.accAt j = s.accAt j))

/-- R70: on an idle block, writing a location that is not RO and not CMD twice with the same value leaves
the state writing it once leaves, and a valid read repeated gives the same value again. -/
def Obligations.RepeatedAccessesChangeNothing : Prop :=
  ∀ (s : State) (off : Nat), s.busy = false → s.mem.wf = true → validAccess s.params.nacc off 4 →
    (s.memRead off 4).2.memRead off 4 = s.memRead off 4 ∧
    (¬ readOnlyOffset off → off ≠ 0x008 → ∀ (v : Word) (lat lat' : Nat),
      ∃ t, s.memWrite off 4 v lat = .next t ∧ t.memWrite off 4 v lat' = .next t)

/-- R60: the block decodes no address outside its window: such an access has no effect on it. -/
def Obligations.AddressesOutsideTheWindowAreIgnored : Prop :=
  ∀ (s : State) (addr n : Nat) (v : Word) (lat : Nat),
    addr < s.params.base ∨ s.params.base + 0x1000 ≤ addr →
    serve (.read addr n) s = .next s ∧ serve (.write addr n v lat) s = .next s

/-! ### The nibble codec (40_nibble) -/

/-- R124: the decoder over all 256 octets. -/
def Obligations.NibbleDecoderTable : Prop :=
  ∀ c : Byte,
    (c.toNat ≤ 0x2F → nib c = 16) ∧
    (0x30 ≤ c.toNat ∧ c.toNat ≤ 0x39 → nib c = c.toNat - 0x30) ∧
    (0x3A ≤ c.toNat ∧ c.toNat ≤ 0x40 → nib c = 16) ∧
    (0x41 ≤ c.toNat ∧ c.toNat ≤ 0x46 → nib c = c.toNat - 0x41 + 10) ∧
    (0x47 ≤ c.toNat ∧ c.toNat ≤ 0x60 → nib c = 16) ∧
    (0x61 ≤ c.toNat ∧ c.toNat ≤ 0x66 → nib c = c.toNat - 0x61 + 10) ∧
    (0x67 ≤ c.toNat → nib c = 16)

/-- R123: the round trip, for either value of HEXCASE: a nibble comes back, and a hex digit comes back
as itself or as the same letter in the other case. -/
def Obligations.NibbleRoundTrip : Prop :=
  ∀ hc : HexCase,
    (∀ n, n ≤ 15 → nib (hexch hc n) = n) ∧
    ∀ c : Byte, nib c ≤ 15 →
      hexch hc (nib c) =
        if c.toNat ≤ 0x39 ∨ (hc = .upper ∧ c.toNat ≤ 0x46) ∨ (hc = .lower ∧ 0x61 ≤ c.toNat) then c
        else if hc = .upper then c - 0x20 else c + 0x20

/-! ### PACK (41_packer) -/

/-- R132: PACK always ends, with the code of the first check that fails, or 0; one that fails changes
nothing but PCK_RES and the handshake bits, and one that passes merges as the pseudocode of R133 says. -/
def Obligations.PackReportsTheFirstFailingCheck : Prop :=
  ∀ (s : State) (slot pos size dlc : Nat), ∃ t, exec (.pack slot pos size dlc) s = .next t ∧
    t.code =
      (if slot ≥ s.params.nacc then 1
       else if dlc ∉ [0, 1, 2, 3, 4, 5, 6, 7, 8, 12, 16, 20, 24, 32, 48, 64] then 2
       else if size = 0 ∨ size > 64 then 3
       else if pos + size > 8 * dlc then 4
       else if 8 * dlc - pos > 64 then 5
       else 0) ∧
    t.lastop = 1 ∧ t.current = none ∧ t.done = true ∧
    (t.code ≠ 0 → t = { s with code := t.code, lastop := 1, current := none, done := true }) ∧
    (t.code = 0 → s.params.nacc ≤ 16 →
      let sh := 8 * dlc - size - pos
      let mask := BitVec.ofNat 64 (2 ^ size - 1)
      t.accAt slot = (s.accAt slot &&& ~~~(mask <<< sh)) ||| ((s.val &&& mask) <<< sh))

/-- R133 and R134: a PACK that passes its checks puts the low SIZE bits of VAL into accumulator bits
[8*DLC-POS-1 : 8*DLC-POS-SIZE] and changes no other bit of the slot, no other slot, and nothing else
but PCK_RES and the handshake bits. -/
def Obligations.PackMergesOnlyItsField : Prop :=
  ∀ (s : State) (slot pos size dlc : Nat), s.params.nacc ≤ 16 → slot < s.params.nacc →
    dlc ∈ [0, 1, 2, 3, 4, 5, 6, 7, 8, 12, 16, 20, 24, 32, 48, 64] → 1 ≤ size → size ≤ 64 →
    pos + size ≤ 8 * dlc → 8 * dlc - pos ≤ 64 →
    ∃ t, exec (.pack slot pos size dlc) s = .next t ∧
      t = { s with acc := t.acc, code := 0, lastop := 1, current := none, done := true } ∧
      (∀ b, b < 64 → (t.accAt slot).getLsbD b =
        if 8 * dlc - pos - size ≤ b ∧ b < 8 * dlc - pos then
          s.val.getLsbD (b - (8 * dlc - pos - size))
        else (s.accAt slot).getLsbD b) ∧
      ∀ k, k ≠ slot → t.accAt k = s.accAt k

/-- R136: after two PACKs into one slot whose fields do not overlap the slot holds both fields' latest
values, and a successful PACK repeated at once changes nothing at all. -/
def Obligations.PackComposesAndIsIdempotent : Prop :=
  ∀ (s t : State) (slot pos size dlc : Nat), s.params.nacc ≤ 16 →
    packCheck s.params.nacc slot pos size dlc = .ok → exec (.pack slot pos size dlc) s = .next t →
    exec (.pack slot pos size dlc) t = .next t ∧
    (∀ (v : Dword) (pos' size' dlc' : Nat), packCheck s.params.nacc slot pos' size' dlc' = .ok →
      (8 * dlc - pos ≤ 8 * dlc' - pos' - size' ∨ 8 * dlc' - pos' ≤ 8 * dlc - pos - size) →
      ∃ u, exec (.pack slot pos' size' dlc') { t with val := v } = .next u ∧
        (∀ b, b < size → (u.accAt slot).getLsbD (8 * dlc - pos - size + b) = s.val.getLsbD b) ∧
        ∀ b, b < size' → (u.accAt slot).getLsbD (8 * dlc' - pos' - size' + b) = v.getLsbD b)

/-! ### RENDER (42_render) -/

/-- R151: RENDER always ends, with the code of the first check that fails, or 0; one that fails
changes nothing but PCK_RES and the handshake bits. -/
def Obligations.RenderReportsTheFirstFailingCheck : Prop :=
  ∀ (s : State) (slot dlc : Nat) (idl : IdLen), ∃ t, exec (.render slot dlc idl) s = .next t ∧
    t.code =
      (if slot ≥ s.params.nacc then 1
       else if dlc ∉ [0, 1, 2, 3, 4, 5, 6, 7, 8, 12, 16, 20, 24, 32, 48, 64] then 2
       else 0) ∧
    t.lastop = 2 ∧ t.current = none ∧ t.done = true ∧
    (t.code ≠ 0 → t = { s with code := t.code, lastop := 2, current := none, done := true })

/-- R152 and R153: a RENDER that passes its checks writes the identifier verbatim, `'#'` and exactly
2*DLC hex digits of the accumulator, most significant first, in the letter case of HEXCASE; it sets
TLEN, and leaves every other byte and everything else but PCK_RES and the handshake bits unchanged. -/
def Obligations.RenderWritesTheFrameText : Prop :=
  ∀ (s : State) (slot dlc : Nat) (idl : IdLen), s.mem.wf = true → slot < s.params.nacc →
    dlc ∈ [0, 1, 2, 3, 4, 5, 6, 7, 8, 12, 16, 20, 24, 32, 48, 64] →
    ∃ t, exec (.render slot dlc idl) s = .next t ∧
      t = { s with mem := t.mem, tlen := t.tlen, code := 0, lastop := 2, current := none, done := true } ∧
      t.tlen.toNat = idl.chars + 1 + 2 * dlc ∧
      (∀ k, k < idl.chars → t.textByte k = s.ridByte k) ∧
      t.textByte idl.chars = 0x23 ∧
      (∀ j, j < 2 * dlc → t.textByte (idl.chars + 1 + j) =
        hexch s.params.hexCase ((s.accAt slot).toNat / 16 ^ (2 * dlc - 1 - j) % 16)) ∧
      ∀ x, x < 0x100 ∨ 0x100 + idl.chars + 1 + 2 * dlc ≤ x → t.mem.read x = s.mem.read x

/-- R155: a RENDER of at most 8 bytes with a hex identifier, then a PARSE, gives the frame back. -/
def Obligations.RenderThenParseGivesTheFrame : Prop :=
  ∀ (s : State) (slot dlc : Nat) (idl : IdLen), s.mem.wf = true → slot < s.params.nacc → dlc ≤ 8 →
    (∀ k, k < idl.chars → nib (s.ridByte k) ≤ 15) →
    ∃ t u, exec (.render slot dlc idl) s = .next t ∧ exec .parse t = .next u ∧
      u.kind = 1 ∧ u.mtu = 16 ∧
      u.frmId = identWord ((List.range idl.chars).map s.ridByte) ∧
      u.frmLen.toNat = dlc ∧
      (∀ j, j < dlc → u.frmByte j = (s.accAt slot).extractLsb' (8 * (dlc - 1 - j)) 8) ∧
      ∀ j, dlc ≤ j → j < 64 → u.frmByte j = 0

/-! ### PARSE (43_parser) -/

/-- R170 and R171: the effective length L, and what a character test at any index reads. -/
def Obligations.EffectiveTextEndsAtTheFirstNul : Prop :=
  ∀ s : State, ∃ L, L ≤ s.tlen.toNat ∧ s.effText.length = L ∧
    (∀ i, i < L → s.textByte i ≠ 0) ∧ (L < s.tlen.toNat → s.textByte L = 0) ∧
    ∀ i, ch s.effText i = if i < L then s.textByte i else 0

/-- R172: PARSE always ends, in one of two ways, and writes all its registers; every other byte of
memory and everything else but the handshake bits is unchanged. -/
def Obligations.ParseCommitsItsResult : Prop :=
  ∀ s : State, s.mem.wf = true → ∃ t, exec .parse s = .next t ∧
    t = { s with kind := t.kind, reason := t.reason, mtu := t.mtu, frmId := t.frmId,
                 frmLen := t.frmLen, frmFlags := t.frmFlags, mem := t.mem, current := none,
                 done := true } ∧
    (∀ x, x < 0x200 ∨ 0x240 ≤ x → t.mem.read x = s.mem.read x) ∧
    match parseText s.effText with
    | .accept k f =>
        t.kind = (if k = .classic then 1 else 2) ∧ t.reason = 0 ∧
        t.mtu = (if k = .classic then 16 else 72) ∧ t.frmId = f.id ∧ t.frmLen.toNat = f.len ∧
        f.len ≤ 64 ∧ t.frmFlags.toNat = f.flags ∧ f.flags ≤ 15 ∧
        ∀ j, j < 64 → t.frmByte j = f.data.getD j 0
    | .reject r =>
        t.kind = 0 ∧
        t.reason = (match r with
          | .short => 1 | .nodelim => 2 | .badId => 3 | .badFlag => 4 | .badData => 5) ∧
        t.mtu = 0 ∧ t.frmId = 0 ∧ t.frmLen = 0 ∧ t.frmFlags = 0 ∧ ∀ j, j < 64 → t.frmByte j = 0

/-- R174, R175, R176, R180: which texts are rejected, and with which reason: the first failing check. -/
def Obligations.RejectionReasonsAreTheFirstFailingChecks : Prop :=
  ∀ t : List Byte,
    (parseText t = .reject .short ↔ t.length < 4) ∧
    (parseText t = .reject .nodelim ↔ 4 ≤ t.length ∧ ch t 3 ≠ 0x23 ∧ ch t 8 ≠ 0x23) ∧
    (parseText t = .reject .badId ↔
      4 ≤ t.length ∧ ∃ n k, delimiterAt t = some n ∧ k < n ∧ 15 < nib (ch t k)) ∧
    (parseText t = .reject .badFlag ↔
      ∃ n, headOk t n ∧ ch t (n + 1) = 0x23 ∧ 15 < nib (ch t (n + 2)))

/-- R176 and R177: the identifier digits, most significant first, fill the identifier word; the 8-digit
form sets EFF unless its digits set ERR; RTR comes from the selector (R179). -/
def Obligations.IdentifierWordOfAnAcceptedText : Prop :=
  ∀ (t : List Byte) (k : FrameKind) (f : Frame) (n : Nat), parseText t = .accept k f →
    delimiterAt t = some n →
    f.id = (let v := BitVec.ofNat 32 (hexValue (t.take n))
            let w := if n = 8 ∧ v.getLsbD 29 = false then v ||| 0x80000000 else v
            if ch t (n + 1) = 0x52 ∨ ch t (n + 1) = 0x72 then w ||| 0x40000000 else w)

/-- R179: a remote frame is accepted as CLASSIC with the optional length digit, no payload and no
flags, whatever follows. -/
def Obligations.RemoteFrames : Prop :=
  ∀ (t : List Byte) (n : Nat), headOk t n → (ch t (n + 1) = 0x52 ∨ ch t (n + 1) = 0x72) →
    ∃ f, parseText t = .accept .classic f ∧ f.id.getLsbD 30 = true ∧
      f.len = (if nib (ch t (n + 2)) ≤ 8 then nib (ch t (n + 2)) else 0) ∧ f.flags = 0 ∧ f.data = []

/-- R180 and R184: after `##` one hex digit is the flags and the window is FD-sized; the kind is FD
exactly when the escape was taken. -/
def Obligations.FdEscape : Prop :=
  (∀ (t : List Byte) (n : Nat), headOk t n → ch t (n + 1) = 0x23 →
    (15 < nib (ch t (n + 2)) → parseText t = .reject .badFlag) ∧
    (nib (ch t (n + 2)) ≤ 15 →
      parseText t = .reject .badData ∨
      ∃ f, parseText t = .accept .fd f ∧ f.flags = nib (ch t (n + 2)) ∧ f.len ≤ 64 ∧
        isPayload 64 (t.drop (n + 3)) f.data)) ∧
  ∀ (t : List Byte) (k : FrameKind) (f : Frame) (n : Nat), parseText t = .accept k f →
    delimiterAt t = some n → (k = .fd ↔ ch t (n + 1) = 0x23)

/-- R173 to R184: PARSE accepts exactly the texts of the grammar, each with the frame it stands for. -/
def Obligations.ParserAcceptsExactlyTheGrammar : Prop :=
  ∀ (t : List Byte) (k : FrameKind) (f : Frame), parseText t = .accept k f ↔ isFrameText t k f

/-- R189: the frame-format state machine, making the transitions of its table one at a time from
S_LEN, reaches an end within 207 of them, and its result is the one of R173's algorithm. -/
def Obligations.StateMachineComputesTheAlgorithm : Prop :=
  ∀ t : List Byte, ∃ k, k ≤ 207 ∧ (Fsm.iterate t k Fsm.start).outcome = some (parseText t)

/-- R187: no character above index 202 can matter. -/
def Obligations.ParserReadsNoIndexAbove202 : Prop :=
  ∀ t : List Byte, parseText t = parseText (t.take 203)

/-- R187: no result of PARSE depends on TEXT past the effective length and its NUL, or past TLEN: two
states that agree up to there give the same parse registers. -/
def Obligations.ParseIgnoresBytesPastTheText : Prop :=
  ∀ s s' : State, s.tlen = s'.tlen → s.mem.wf = true → s'.mem.wf = true →
    (∀ i, i < s.tlen.toNat → (∀ j, j < i → s.textByte j ≠ 0) → s.textByte i = s'.textByte i) →
    ∃ t t', exec .parse s = .next t ∧ exec .parse s' = .next t' ∧
      t.kind = t'.kind ∧ t.reason = t'.reason ∧ t.mtu = t'.mtu ∧ t.frmId = t'.frmId ∧
      t.frmLen = t'.frmLen ∧ t.frmFlags = t'.frmFlags ∧ ∀ j, j < 64 → t.frmByte j = t'.frmByte j

/-! ### Dispatch, completion, NOP and SRST (44_control, 70_reset_and_hazards) -/

/-- R213: NOP has no effect but the completion. -/
def Obligations.NopOnlyCompletes : Prop :=
  ∀ s : State, exec .nop s = .next { s with current := none, done := true }

/-- R261, R260, R214: SRST and the hardware reset input have one effect, whether a command runs or
not: it is abandoned and every piece of state takes its reset value; the parameters are constants. -/
def Obligations.ResetsClearEverything : Prop :=
  ∀ (s : State) (lat : Nat), ∃ t, exec .srst s = .next t ∧ serve .hwReset s = .next t ∧
    s.memWrite 0x008 4 0x0000000F lat = .next t ∧
    t.statusWord = 0 ∧ t.tlen = 0 ∧ (∀ i, i < 256 → t.textByte i = 0) ∧ t.val = 0 ∧
    (∀ k, k < 8 → t.ridByte k = 0) ∧ t.kind = 0 ∧ t.reason = 0 ∧ t.mtu = 0 ∧ t.frmId = 0 ∧
    t.frmLen = 0 ∧ t.frmFlags = 0 ∧ (∀ j, j < 64 → t.frmByte j = 0) ∧ t.code = 0 ∧ t.lastop = 0 ∧
    (∀ k, t.accAt k = 0) ∧ t.current = none ∧ t.params = s.params

/-- The machine after reset (70 R261, R262; 00_scope R5): every register 0, idle, NACC 16, HEXCASE
UPPER. -/
def Obligations.ResetState : Prop :=
  State.reset.statusWord = 0 ∧ State.reset.busy = false ∧ State.reset.tlen = 0 ∧
  (∀ i, i < 256 → State.reset.textByte i = 0) ∧ State.reset.val = 0 ∧
  (∀ k, k < 8 → State.reset.ridByte k = 0) ∧ State.reset.kind = 0 ∧ State.reset.reason = 0 ∧
  State.reset.mtu = 0 ∧ State.reset.frmId = 0 ∧ State.reset.frmLen = 0 ∧ State.reset.frmFlags = 0 ∧
  (∀ j, j < 64 → State.reset.frmByte j = 0) ∧ State.reset.code = 0 ∧ State.reset.lastop = 0 ∧
  (∀ k, State.reset.accAt k = 0) ∧ State.reset.params.nacc = 16 ∧
  State.reset.params.hexCase = .upper

/-- R212: every command but SRST completes with BUSY = 0 and DONE = 1, touching no other STATUS bit,
no parameter, and nothing of the host's side. -/
def Obligations.CompletionSetsTheHandshake : Prop :=
  ∀ (i : Instr) (s : State), i ≠ .srst → ∃ t, exec i s = .next t ∧ t.busy = false ∧ t.done = true ∧
    t.illcmd = s.illcmd ∧ t.buserr = s.buserr ∧ t.wbusy = s.wbusy ∧ t.params = s.params ∧
    t.bus = s.bus ∧ t.loaded = s.loaded ∧ t.reads = s.reads ∧ t.fresh = s.fresh

/-- R210: the acceptance of a command that will be seen running sets BUSY, clears DONE and changes
nothing else; that LAT comes with the write, and that with LAT 0 the command completes at once, is the
model's form (DESIGN CHOICE, logs 2 and 16). -/
def Obligations.CmdWriteAcceptsTheCommand : Prop :=
  ∀ (s : State) (i : Instr), s.busy = false → i.wf = true → i ≠ .srst →
    (∀ lat, 0 < lat → ∃ t, s.memWrite 0x008 4 (encode i) lat = .next t ∧ t.busy = true ∧
      t = { s with current := t.current, done := false } ∧
      ∃ r, t.current = some r ∧ r.cmd = i ∧ r.left = lat) ∧
    s.memWrite 0x008 4 (encode i) 0 = exec i s

/-- A step runs the decoded command (44_control R210, R212). That the running command completes as `exec`
of it in the step after its LAT has gone by, and that an idle block runs a legal word written to CMD at
once where LAT is 0 and accepts it where LAT is not, is the model's form of LAT (DESIGN CHOICE, logs 2
and 16); that the word `withFetchWord` places is run by the next step is the model's interface
(DESIGN CHOICE, log 12). -/
def Obligations.StepRunsTheDecodedCommand : Prop :=
  ∀ s : State,
    (∀ r, s.current = some r → r.left = 0 → step s = exec r.cmd s) ∧
    (∀ v lat rest i, s.current = none → s.bus = .write (s.params.base + 0x008) 4 v lat :: rest →
      decode v = .ok i →
      (lat = 0 ∨ i = .srst → step s = exec i { s with bus := rest }) ∧
      (0 < lat ∧ i ≠ .srst → step s = .next (State.accept { s with bus := rest } i lat))) ∧
    (∀ w i, decodeTableWord 32 w = some i →
      step (s.withFetchWord 32 w) = exec i { s with current := none })

/-- R212, R270: a running command completes, or is abandoned by a reset. The rules give no count; the
bound of LAT + 1 steps is the model's, where the completion is a step of its own (DESIGN CHOICE,
log 2). -/
def Obligations.EveryAcceptedCommandCompletes : Prop :=
  ∀ (s : State) (r : Running), s.current = some r →
    ∃ k t, k ≤ r.left + 1 ∧ Host.Core.run Sys2Proof.core k s = .next t ∧ t.busy = false

/-- R215, R73, R265: for a host that does nothing but `wait` after its CMD write, or has nothing else
pending, accepting a command, letting any LAT go by and completing it is the command done in one step at
its acceptance, but for the words that the polls of STATUS return: one for each cycle of LAT, which shows
BUSY = 1, and one that shows BUSY = 0. The counts of steps and of polls are the model's form of LAT
(DESIGN CHOICE, logs 2 and 16) and of `wait` (DESIGN CHOICE, log 15). -/
def Obligations.WaitingForACommandIsRunningItAtOnce : Prop :=
  ∀ (s : State) (i : Instr) (lat : Nat), s.current = none → i.wf = true → i ≠ .srst →
    (s.bus = [.write (s.params.base + 0x008) 4 (encode i) lat] →
      Host.Core.run Sys2Proof.core (lat + 2) s = exec i { s with bus := [] }) ∧
    (∀ rest, s.bus = .write (s.params.base + 0x008) 4 (encode i) lat :: .wait :: rest →
      ∃ u, exec i { s with bus := rest } = .next u ∧
        Host.Core.run Sys2Proof.core (if lat = 0 then 2 else lat + 3) s =
          .next { u with reads := u.statusWord ::
            (List.replicate lat (s.accept i lat).statusWord ++ s.reads) })

/-! ### Whole-machine rules -/

/-- R230: "The block never traps and never stops." -/
def Obligations.TheBlockNeverStops : Prop :=
  ∀ s : State, ∃ t, step s = .next t

/-- The invariants of the state hold after reset. -/
def Obligations.InvariantsHoldAtReset : Prop := State.reset.Inv

/-- Every step keeps the invariants: the canonical memory, TLEN at most 256, the codes and combinations
of result registers the rules allow, FRM_DATA zero past FRM_LEN, accumulators past NACC zero, DONE = 0
while a command runs, and hidden working values that still fit the operands. -/
def Obligations.EveryStepKeepsTheInvariants : Prop :=
  ∀ s t : State, s.Inv → step s = .next t → t.Inv

/-- R265, R73, R79: a host that keeps the busy discipline never has a write dropped and never makes an
unspecified read, and goes on keeping it. -/
def Obligations.DisciplinedHostsLoseNothing : Prop :=
  ∀ s t : State, s.Disciplined → step s = .next t →
    t.Disciplined ∧ t.fresh = s.fresh ∧ (t.wbusy = true → s.wbusy = true)

/-- 10_state R28: only a host write of 1 to the bit, or a reset, clears a sticky bit. (The premise
rules out only states in which an SRST runs as an accepted command, which no run reaches.) -/
def Obligations.StickyBitsAreClearedOnlyByTheHost : Prop :=
  ∀ s t : State, s.RunningOk → step s = .next t →
    (s.illcmd = true → t.illcmd = false → s.ClearNext 2 ∨ s.ResetNext) ∧
    (s.buserr = true → t.buserr = false → s.ClearNext 3 ∨ s.ResetNext) ∧
    (s.wbusy = true → t.wbusy = false → s.ClearNext 4 ∨ s.ResetNext)

/-- 60_exceptions R231: the only events that set ILLCMD, BUSERR and WBUSY. -/
def Obligations.ErrorBitsAreSetOnlyByTheirEvents : Prop :=
  ∀ s t : State, step s = .next t →
    (s.illcmd = false → t.illcmd = true →
      s.busy = false ∧ ∃ v, s.WriteNext 0x008 v ∧ ∃ e, decode v = .error e) ∧
    (s.buserr = false → t.buserr = true →
      (∃ off n, s.AccessNext off n ∧ ¬ validAccess s.params.nacc off n) ∨
      (s.busy = false ∧ ∃ off v, s.WriteNext off v ∧ readOnlyOffset off)) ∧
    (s.wbusy = false → t.wbusy = true →
      s.busy = true ∧ ∃ off v, s.WriteNext off v ∧ validAccess s.params.nacc off 4 ∧
        off ≠ 0x00C ∧ ¬ (off = 0x008 ∧ v = 0x0000000F))

/-- 10_state R33, R41, R40: only the completion of a PARSE and a reset change the parse registers, and
only the completion of a PACK or a RENDER and a reset change PCK_RES. -/
def Obligations.ResultRegistersChangeOnlyAtTheirCommands : Prop :=
  ∀ s t : State, step s = .next t →
    ((t.kind ≠ s.kind ∨ t.reason ≠ s.reason ∨ t.mtu ≠ s.mtu ∨ t.frmId ≠ s.frmId ∨
        t.frmLen ≠ s.frmLen ∨ t.frmFlags ≠ s.frmFlags ∨ ∃ j, j < 64 ∧ t.frmByte j ≠ s.frmByte j) →
      s.CompletesNow .parse ∨ s.CompletesNow .srst ∨ s.ResetNext) ∧
    ((t.code ≠ s.code ∨ t.lastop ≠ s.lastop) →
      (∃ slot pos size dlc, s.CompletesNow (.pack slot pos size dlc)) ∨
      (∃ slot dlc idl, s.CompletesNow (.render slot dlc idl)) ∨
      s.CompletesNow .srst ∨ s.ResetNext)

/-- R72, R73: between acceptance and completion no register changes but the STATUS bits a host access
sets or clears, and the same command goes on. That each step takes one cycle of its LAT is the model's
form (DESIGN CHOICE, log 2). -/
def Obligations.NothingMovesWhileACommandRuns : Prop :=
  ∀ s t : State, s.busy = true → step s = .next t → t.busy = true →
    t = { s with done := t.done, illcmd := t.illcmd, buserr := t.buserr, wbusy := t.wbusy,
                 current := t.current, bus := t.bus, reads := t.reads, fresh := t.fresh } ∧
    ∃ r r', s.current = some r ∧ t.current = some r' ∧ r'.cmd = r.cmd ∧ r'.left + 1 = r.left

/-- 10_state R22, R23: ID always reads its constant, and no step changes what PARAM reads. -/
def Obligations.IdentityRegistersAreConstant : Prop :=
  (∀ s : State, s.memRead 0x000 4 = (0x43414E31, s)) ∧
  ∀ s t : State, step s = .next t →
    t.params = s.params ∧ (t.memRead 0x004 4).1 = (s.memRead 0x004 4).1

/-! ### The pseudo-instructions (30_encoding R101) -/

/-- R101 `setval` and `settext`, run on an idle block: VAL holds the value; TEXT and TLEN hold the
text, the last word's bytes past it are 0x00, TEXT bytes from index 4*ceil(m/4) upward and every byte of
memory outside TEXT keep their values, and nothing else changes. One step serves one access (DESIGN
CHOICE, logs 1 and 2). -/
def Obligations.SetvalAndSettextLoadTheirOperands : Prop :=
  ∀ (s : State) (rest : List HostOp), s.current = none → s.mem.wf = true →
    (∀ v : Dword, s.bus = setval s.params v ++ rest →
      Host.Core.run Sys2Proof.core 2 s = .next { s with val := v, bus := rest }) ∧
    (∀ (txt : List Byte) (ops : List HostOp), settext s.params txt = some ops → s.bus = ops ++ rest →
      ∃ t, Host.Core.run Sys2Proof.core ops.length s = .next t ∧
        t = { s with mem := t.mem, tlen := t.tlen, bus := rest } ∧
        t.tlen.toNat = txt.length ∧ (∀ i, i < txt.length → t.textByte i = txt.getD i 0) ∧
        (∀ i, txt.length ≤ i → i < 4 * ((txt.length + 3) / 4) → t.textByte i = 0) ∧
        (∀ i, 4 * ((txt.length + 3) / 4) ≤ i → t.textByte i = s.textByte i) ∧
        ∀ x, x < 0x100 ∨ 0x100 + 4 * ((txt.length + 3) / 4) ≤ x → t.mem.read x = s.mem.read x)

/-- R101 `setrid`, `clracc` and `clrsts`, run on an idle block. -/
def Obligations.SetridClraccClrstsDoTheirWrites : Prop :=
  ∀ (s : State) (rest : List HostOp), s.current = none → s.mem.wf = true → s.params.nacc ≤ 16 →
    (∀ (txt : List Byte) (ops : List HostOp), setrid s.params txt = some ops → s.bus = ops ++ rest →
      ∃ t, Host.Core.run Sys2Proof.core 2 s = .next t ∧ t = { s with mem := t.mem, bus := rest } ∧
        (∀ k, k < 8 → t.ridByte k = txt.getD k 0) ∧
        ∀ x, x < 0x030 ∨ 0x038 ≤ x → t.mem.read x = s.mem.read x) ∧
    (∀ k, k < s.params.nacc → s.bus = clracc s.params k ++ rest →
      ∃ t, Host.Core.run Sys2Proof.core 2 s = .next t ∧ t = { s with acc := t.acc, bus := rest } ∧
        t.accAt k = 0 ∧ ∀ j, j ≠ k → t.accAt j = s.accAt j) ∧
    (s.bus = clrsts s.params ++ rest →
      Host.Core.run Sys2Proof.core 1 s =
        .next { s with done := false, illcmd := false, buserr := false, wbusy := false, bus := rest })

/-- R101 `wait`: each poll returns STATUS to the host and changes nothing of the block, and the loop
ends exactly when a poll has read BUSY = 0. That the loop is an entry of the queue which stays at its
head until then is the model's form of it (DESIGN CHOICE, log 15). -/
def Obligations.WaitPollsUntilIdle : Prop :=
  ∀ s t : State, serve .wait s = .next t →
    t.reads = s.statusWord :: s.reads ∧
    t = { s with reads := t.reads, bus := t.bus } ∧
    (s.busy = true → t.bus = .wait :: s.bus) ∧ (s.busy = false → t.bus = s.bus)

/-! ### Several masters (70_reset_and_hazards R268) -/

/-- R268 and 93_implementation_defined section 2: where two masters use the block, one of them a shared
register, and no master has ever taken the lock, a program is refused, whether it came at once or in
parts; a program all of whose uses of the block are one master's is admitted as it stands. An access that
the block does not decode (20_memory R60) and the platform's reset are no master's use. The form of the
lock is the model's (DESIGN CHOICE, log 13). -/
def Obligations.MastersWithoutTheLockAreRefused : Prop :=
  ∀ (s : State) (prog : List MasterOp),
    ((∃ m m' op op', .access m op ∈ s.loaded ++ prog ∧ .access m' op' ∈ s.loaded ++ prog ∧ m ≠ m' ∧
        usesBlock s.params op = true ∧ usesBlock s.params op' = true) →
      (∃ m op l, .access m op ∈ s.loaded ++ prog ∧ accessLoc s.params op = some l ∧ l ≠ .id ∧
        l ≠ .param ∧ l ≠ .status) →
      (∀ m, .acquire m ∉ s.loaded ++ prog) → s.load prog = .refused .mastersWithoutLock) ∧
    (∀ m, (∀ k op, .access k op ∈ s.loaded ++ prog → usesBlock s.params op = true → k = m) →
      s.load prog =
        .next { s with bus := s.bus ++ prog.filterMap MasterOp.delivered, loaded := s.loaded ++ prog })

/-- R268: a program that comes in two parts is admitted or refused as it is when it comes at once: what
came before counts. The form of the lock is the model's (DESIGN CHOICE, log 13). -/
def Obligations.LoadingInPartsIsLoadingAtOnce : Prop :=
  ∀ (s : State) (a b : List MasterOp),
    (∀ t, s.load a = .next t → t.load b = s.load (a ++ b)) ∧
    (s.load a = .refused .mastersWithoutLock → s.load (a ++ b) = .refused .mastersWithoutLock)

/-- R268: in what has been admitted of several masters a master that accesses a shared register holds the
lock, and while it holds the lock no other master uses the block. The form of the lock is the model's
(DESIGN CHOICE, log 13). -/
def Obligations.AdmittedMastersHoldTheLock : Prop :=
  ∀ (s t : State) (prog : List MasterOp), s.load prog = .next t →
    severalMasters s.params (s.loaded ++ prog) = true →
    (∀ pre m op l suf, s.loaded ++ prog = pre ++ .access m op :: suf → accessLoc s.params op = some l →
      l ≠ .id → l ≠ .param → l ≠ .status →
      ∃ pre' mid, pre = pre' ++ .acquire m :: mid ∧ .release m ∉ mid) ∧
    (∀ pre m mid suf, s.loaded ++ prog = pre ++ .acquire m :: mid ++ suf → .release m ∉ mid →
      ∀ k op, .access k op ∈ mid → usesBlock s.params op = true → k = m)

/-- R268: in what has been admitted of several masters the lock is held without a break from the write of
each operand byte to the command that takes it, and from a command to the read of each of its result
bytes: where master `m` puts a byte and uses it (as a result only what a command left there), with no newer
put of that byte by `m` between, it does not give the lock up between, whatever resets the block there. The
premise on `w` only fixes which bytes of TEXT a PARSE takes and a read returns as a result. The form of the
lock, and that it outlasts a reset, are the model's (DESIGN CHOICE, log 13). -/
def Obligations.TheLockLastsFromOperandToResult : Prop :=
  ∀ (s t : State) (prog pre mid suf : List MasterOp) (m off : Nat) (op op' : HostOp) (k k' : Role)
    (w : LockWalk),
    s.load prog = .next t → severalMasters s.params (s.loaded ++ prog) = true →
    s.loaded ++ prog = pre ++ .access m op :: mid ++ .access m op' :: suf →
    LockWalk.start.run s.params (pre ++ .access m op :: mid) = some w →
    { off := off, role := k } ∈ puts s.params op → { off := off, role := k' } ∈ takes s.params w op' →
    (k' = .operand ∨ k = .result) →
    (∀ o, .access m o ∈ mid → ∀ y ∈ puts s.params o, y.off ≠ off) →
    .release m ∉ mid
end

