-- ==== Sys2Proof/Laws/State.lean ====
section
/-!
SUPPORT. One lemma for each field of State under each named update, so that no proof unfolds a record
update.
-/

namespace Sys2Proof.Machine

variable (s : State)

/-! ### clearStatus -/

@[simp] theorem clearStatus_params (v : Word) : (s.clearStatus v).params = s.params := rfl
@[simp] theorem clearStatus_done (v : Word) : (s.clearStatus v).done = (s.done && !v.getLsbD 1) := rfl
@[simp] theorem clearStatus_illcmd (v : Word) : (s.clearStatus v).illcmd = (s.illcmd && !v.getLsbD 2) := rfl
@[simp] theorem clearStatus_buserr (v : Word) : (s.clearStatus v).buserr = (s.buserr && !v.getLsbD 3) := rfl
@[simp] theorem clearStatus_wbusy (v : Word) : (s.clearStatus v).wbusy = (s.wbusy && !v.getLsbD 4) := rfl
@[simp] theorem clearStatus_tlen (v : Word) : (s.clearStatus v).tlen = s.tlen := rfl
@[simp] theorem clearStatus_val (v : Word) : (s.clearStatus v).val = s.val := rfl
@[simp] theorem clearStatus_kind (v : Word) : (s.clearStatus v).kind = s.kind := rfl
@[simp] theorem clearStatus_reason (v : Word) : (s.clearStatus v).reason = s.reason := rfl
@[simp] theorem clearStatus_mtu (v : Word) : (s.clearStatus v).mtu = s.mtu := rfl
@[simp] theorem clearStatus_frmId (v : Word) : (s.clearStatus v).frmId = s.frmId := rfl
@[simp] theorem clearStatus_frmLen (v : Word) : (s.clearStatus v).frmLen = s.frmLen := rfl
@[simp] theorem clearStatus_frmFlags (v : Word) : (s.clearStatus v).frmFlags = s.frmFlags := rfl
@[simp] theorem clearStatus_code (v : Word) : (s.clearStatus v).code = s.code := rfl
@[simp] theorem clearStatus_lastop (v : Word) : (s.clearStatus v).lastop = s.lastop := rfl
@[simp] theorem clearStatus_acc (v : Word) : (s.clearStatus v).acc = s.acc := rfl
@[simp] theorem clearStatus_mem (v : Word) : (s.clearStatus v).mem = s.mem := rfl
@[simp] theorem clearStatus_current (v : Word) : (s.clearStatus v).current = s.current := rfl
@[simp] theorem clearStatus_bus (v : Word) : (s.clearStatus v).bus = s.bus := rfl
@[simp] theorem clearStatus_loaded (v : Word) : (s.clearStatus v).loaded = s.loaded := rfl
@[simp] theorem clearStatus_reads (v : Word) : (s.clearStatus v).reads = s.reads := rfl
@[simp] theorem clearStatus_fresh (v : Word) : (s.clearStatus v).fresh = s.fresh := rfl

/-! ### setIllcmd -/

@[simp] theorem setIllcmd_params : s.setIllcmd.params = s.params := rfl
@[simp] theorem setIllcmd_done : s.setIllcmd.done = s.done := rfl
@[simp] theorem setIllcmd_illcmd : s.setIllcmd.illcmd = true := rfl
@[simp] theorem setIllcmd_buserr : s.setIllcmd.buserr = s.buserr := rfl
@[simp] theorem setIllcmd_wbusy : s.setIllcmd.wbusy = s.wbusy := rfl
@[simp] theorem setIllcmd_tlen : s.setIllcmd.tlen = s.tlen := rfl
@[simp] theorem setIllcmd_val : s.setIllcmd.val = s.val := rfl
@[simp] theorem setIllcmd_kind : s.setIllcmd.kind = s.kind := rfl
@[simp] theorem setIllcmd_reason : s.setIllcmd.reason = s.reason := rfl
@[simp] theorem setIllcmd_mtu : s.setIllcmd.mtu = s.mtu := rfl
@[simp] theorem setIllcmd_frmId : s.setIllcmd.frmId = s.frmId := rfl
@[simp] theorem setIllcmd_frmLen : s.setIllcmd.frmLen = s.frmLen := rfl
@[simp] theorem setIllcmd_frmFlags : s.setIllcmd.frmFlags = s.frmFlags := rfl
@[simp] theorem setIllcmd_code : s.setIllcmd.code = s.code := rfl
@[simp] theorem setIllcmd_lastop : s.setIllcmd.lastop = s.lastop := rfl
@[simp] theorem setIllcmd_acc : s.setIllcmd.acc = s.acc := rfl
@[simp] theorem setIllcmd_mem : s.setIllcmd.mem = s.mem := rfl
@[simp] theorem setIllcmd_current : s.setIllcmd.current = s.current := rfl
@[simp] theorem setIllcmd_bus : s.setIllcmd.bus = s.bus := rfl
@[simp] theorem setIllcmd_loaded : s.setIllcmd.loaded = s.loaded := rfl
@[simp] theorem setIllcmd_reads : s.setIllcmd.reads = s.reads := rfl
@[simp] theorem setIllcmd_fresh : s.setIllcmd.fresh = s.fresh := rfl

/-! ### setBuserr -/

@[simp] theorem setBuserr_params : s.setBuserr.params = s.params := rfl
@[simp] theorem setBuserr_done : s.setBuserr.done = s.done := rfl
@[simp] theorem setBuserr_illcmd : s.setBuserr.illcmd = s.illcmd := rfl
@[simp] theorem setBuserr_buserr : s.setBuserr.buserr = true := rfl
@[simp] theorem setBuserr_wbusy : s.setBuserr.wbusy = s.wbusy := rfl
@[simp] theorem setBuserr_tlen : s.setBuserr.tlen = s.tlen := rfl
@[simp] theorem setBuserr_val : s.setBuserr.val = s.val := rfl
@[simp] theorem setBuserr_kind : s.setBuserr.kind = s.kind := rfl
@[simp] theorem setBuserr_reason : s.setBuserr.reason = s.reason := rfl
@[simp] theorem setBuserr_mtu : s.setBuserr.mtu = s.mtu := rfl
@[simp] theorem setBuserr_frmId : s.setBuserr.frmId = s.frmId := rfl
@[simp] theorem setBuserr_frmLen : s.setBuserr.frmLen = s.frmLen := rfl
@[simp] theorem setBuserr_frmFlags : s.setBuserr.frmFlags = s.frmFlags := rfl
@[simp] theorem setBuserr_code : s.setBuserr.code = s.code := rfl
@[simp] theorem setBuserr_lastop : s.setBuserr.lastop = s.lastop := rfl
@[simp] theorem setBuserr_acc : s.setBuserr.acc = s.acc := rfl
@[simp] theorem setBuserr_mem : s.setBuserr.mem = s.mem := rfl
@[simp] theorem setBuserr_current : s.setBuserr.current = s.current := rfl
@[simp] theorem setBuserr_bus : s.setBuserr.bus = s.bus := rfl
@[simp] theorem setBuserr_loaded : s.setBuserr.loaded = s.loaded := rfl
@[simp] theorem setBuserr_reads : s.setBuserr.reads = s.reads := rfl
@[simp] theorem setBuserr_fresh : s.setBuserr.fresh = s.fresh := rfl

/-! ### setWbusy -/

@[simp] theorem setWbusy_params : s.setWbusy.params = s.params := rfl
@[simp] theorem setWbusy_done : s.setWbusy.done = s.done := rfl
@[simp] theorem setWbusy_illcmd : s.setWbusy.illcmd = s.illcmd := rfl
@[simp] theorem setWbusy_buserr : s.setWbusy.buserr = s.buserr := rfl
@[simp] theorem setWbusy_wbusy : s.setWbusy.wbusy = true := rfl
@[simp] theorem setWbusy_tlen : s.setWbusy.tlen = s.tlen := rfl
@[simp] theorem setWbusy_val : s.setWbusy.val = s.val := rfl
@[simp] theorem setWbusy_kind : s.setWbusy.kind = s.kind := rfl
@[simp] theorem setWbusy_reason : s.setWbusy.reason = s.reason := rfl
@[simp] theorem setWbusy_mtu : s.setWbusy.mtu = s.mtu := rfl
@[simp] theorem setWbusy_frmId : s.setWbusy.frmId = s.frmId := rfl
@[simp] theorem setWbusy_frmLen : s.setWbusy.frmLen = s.frmLen := rfl
@[simp] theorem setWbusy_frmFlags : s.setWbusy.frmFlags = s.frmFlags := rfl
@[simp] theorem setWbusy_code : s.setWbusy.code = s.code := rfl
@[simp] theorem setWbusy_lastop : s.setWbusy.lastop = s.lastop := rfl
@[simp] theorem setWbusy_acc : s.setWbusy.acc = s.acc := rfl
@[simp] theorem setWbusy_mem : s.setWbusy.mem = s.mem := rfl
@[simp] theorem setWbusy_current : s.setWbusy.current = s.current := rfl
@[simp] theorem setWbusy_bus : s.setWbusy.bus = s.bus := rfl
@[simp] theorem setWbusy_loaded : s.setWbusy.loaded = s.loaded := rfl
@[simp] theorem setWbusy_reads : s.setWbusy.reads = s.reads := rfl
@[simp] theorem setWbusy_fresh : s.setWbusy.fresh = s.fresh := rfl

/-! ### setAcc -/

@[simp] theorem setAcc_params (k : Nat) (v : Dword) : (s.setAcc k v).params = s.params := rfl
@[simp] theorem setAcc_done (k : Nat) (v : Dword) : (s.setAcc k v).done = s.done := rfl
@[simp] theorem setAcc_illcmd (k : Nat) (v : Dword) : (s.setAcc k v).illcmd = s.illcmd := rfl
@[simp] theorem setAcc_buserr (k : Nat) (v : Dword) : (s.setAcc k v).buserr = s.buserr := rfl
@[simp] theorem setAcc_wbusy (k : Nat) (v : Dword) : (s.setAcc k v).wbusy = s.wbusy := rfl
@[simp] theorem setAcc_tlen (k : Nat) (v : Dword) : (s.setAcc k v).tlen = s.tlen := rfl
@[simp] theorem setAcc_val (k : Nat) (v : Dword) : (s.setAcc k v).val = s.val := rfl
@[simp] theorem setAcc_kind (k : Nat) (v : Dword) : (s.setAcc k v).kind = s.kind := rfl
@[simp] theorem setAcc_reason (k : Nat) (v : Dword) : (s.setAcc k v).reason = s.reason := rfl
@[simp] theorem setAcc_mtu (k : Nat) (v : Dword) : (s.setAcc k v).mtu = s.mtu := rfl
@[simp] theorem setAcc_frmId (k : Nat) (v : Dword) : (s.setAcc k v).frmId = s.frmId := rfl
@[simp] theorem setAcc_frmLen (k : Nat) (v : Dword) : (s.setAcc k v).frmLen = s.frmLen := rfl
@[simp] theorem setAcc_frmFlags (k : Nat) (v : Dword) : (s.setAcc k v).frmFlags = s.frmFlags := rfl
@[simp] theorem setAcc_code (k : Nat) (v : Dword) : (s.setAcc k v).code = s.code := rfl
@[simp] theorem setAcc_lastop (k : Nat) (v : Dword) : (s.setAcc k v).lastop = s.lastop := rfl
@[simp] theorem setAcc_acc (k : Nat) (v : Dword) : (s.setAcc k v).acc = s.acc.setIfInBounds k v := rfl
@[simp] theorem setAcc_mem (k : Nat) (v : Dword) : (s.setAcc k v).mem = s.mem := rfl
@[simp] theorem setAcc_current (k : Nat) (v : Dword) : (s.setAcc k v).current = s.current := rfl
@[simp] theorem setAcc_bus (k : Nat) (v : Dword) : (s.setAcc k v).bus = s.bus := rfl
@[simp] theorem setAcc_loaded (k : Nat) (v : Dword) : (s.setAcc k v).loaded = s.loaded := rfl
@[simp] theorem setAcc_reads (k : Nat) (v : Dword) : (s.setAcc k v).reads = s.reads := rfl
@[simp] theorem setAcc_fresh (k : Nat) (v : Dword) : (s.setAcc k v).fresh = s.fresh := rfl

/-! ### complete -/

@[simp] theorem complete_params : s.complete.params = s.params := rfl
@[simp] theorem complete_done : s.complete.done = true := rfl
@[simp] theorem complete_illcmd : s.complete.illcmd = s.illcmd := rfl
@[simp] theorem complete_buserr : s.complete.buserr = s.buserr := rfl
@[simp] theorem complete_wbusy : s.complete.wbusy = s.wbusy := rfl
@[simp] theorem complete_tlen : s.complete.tlen = s.tlen := rfl
@[simp] theorem complete_val : s.complete.val = s.val := rfl
@[simp] theorem complete_kind : s.complete.kind = s.kind := rfl
@[simp] theorem complete_reason : s.complete.reason = s.reason := rfl
@[simp] theorem complete_mtu : s.complete.mtu = s.mtu := rfl
@[simp] theorem complete_frmId : s.complete.frmId = s.frmId := rfl
@[simp] theorem complete_frmLen : s.complete.frmLen = s.frmLen := rfl
@[simp] theorem complete_frmFlags : s.complete.frmFlags = s.frmFlags := rfl
@[simp] theorem complete_code : s.complete.code = s.code := rfl
@[simp] theorem complete_lastop : s.complete.lastop = s.lastop := rfl
@[simp] theorem complete_acc : s.complete.acc = s.acc := rfl
@[simp] theorem complete_mem : s.complete.mem = s.mem := rfl
@[simp] theorem complete_current : s.complete.current = none := rfl
@[simp] theorem complete_bus : s.complete.bus = s.bus := rfl
@[simp] theorem complete_loaded : s.complete.loaded = s.loaded := rfl
@[simp] theorem complete_reads : s.complete.reads = s.reads := rfl
@[simp] theorem complete_fresh : s.complete.fresh = s.fresh := rfl

/-! ### finishPck -/

@[simp] theorem finishPck_params (c : PckCode) (op : BitVec 2) : (s.finishPck c op).params = s.params := rfl
@[simp] theorem finishPck_done (c : PckCode) (op : BitVec 2) : (s.finishPck c op).done = true := rfl
@[simp] theorem finishPck_illcmd (c : PckCode) (op : BitVec 2) : (s.finishPck c op).illcmd = s.illcmd := rfl
@[simp] theorem finishPck_buserr (c : PckCode) (op : BitVec 2) : (s.finishPck c op).buserr = s.buserr := rfl
@[simp] theorem finishPck_wbusy (c : PckCode) (op : BitVec 2) : (s.finishPck c op).wbusy = s.wbusy := rfl
@[simp] theorem finishPck_tlen (c : PckCode) (op : BitVec 2) : (s.finishPck c op).tlen = s.tlen := rfl
@[simp] theorem finishPck_val (c : PckCode) (op : BitVec 2) : (s.finishPck c op).val = s.val := rfl
@[simp] theorem finishPck_kind (c : PckCode) (op : BitVec 2) : (s.finishPck c op).kind = s.kind := rfl
@[simp] theorem finishPck_reason (c : PckCode) (op : BitVec 2) : (s.finishPck c op).reason = s.reason := rfl
@[simp] theorem finishPck_mtu (c : PckCode) (op : BitVec 2) : (s.finishPck c op).mtu = s.mtu := rfl
@[simp] theorem finishPck_frmId (c : PckCode) (op : BitVec 2) : (s.finishPck c op).frmId = s.frmId := rfl
@[simp] theorem finishPck_frmLen (c : PckCode) (op : BitVec 2) : (s.finishPck c op).frmLen = s.frmLen := rfl
@[simp] theorem finishPck_frmFlags (c : PckCode) (op : BitVec 2) : (s.finishPck c op).frmFlags = s.frmFlags := rfl
@[simp] theorem finishPck_code (c : PckCode) (op : BitVec 2) : (s.finishPck c op).code = c.value := rfl
@[simp] theorem finishPck_lastop (c : PckCode) (op : BitVec 2) : (s.finishPck c op).lastop = op := rfl
@[simp] theorem finishPck_acc (c : PckCode) (op : BitVec 2) : (s.finishPck c op).acc = s.acc := rfl
@[simp] theorem finishPck_mem (c : PckCode) (op : BitVec 2) : (s.finishPck c op).mem = s.mem := rfl
@[simp] theorem finishPck_current (c : PckCode) (op : BitVec 2) : (s.finishPck c op).current = none := rfl
@[simp] theorem finishPck_bus (c : PckCode) (op : BitVec 2) : (s.finishPck c op).bus = s.bus := rfl
@[simp] theorem finishPck_loaded (c : PckCode) (op : BitVec 2) : (s.finishPck c op).loaded = s.loaded := rfl
@[simp] theorem finishPck_reads (c : PckCode) (op : BitVec 2) : (s.finishPck c op).reads = s.reads := rfl
@[simp] theorem finishPck_fresh (c : PckCode) (op : BitVec 2) : (s.finishPck c op).fresh = s.fresh := rfl

/-! ### putText -/

@[simp] theorem putText_params (t : List Byte) : (s.putText t).params = s.params := rfl
@[simp] theorem putText_done (t : List Byte) : (s.putText t).done = s.done := rfl
@[simp] theorem putText_illcmd (t : List Byte) : (s.putText t).illcmd = s.illcmd := rfl
@[simp] theorem putText_buserr (t : List Byte) : (s.putText t).buserr = s.buserr := rfl
@[simp] theorem putText_wbusy (t : List Byte) : (s.putText t).wbusy = s.wbusy := rfl
@[simp] theorem putText_tlen (t : List Byte) : (s.putText t).tlen = BitVec.ofNat 9 t.length := rfl
@[simp] theorem putText_val (t : List Byte) : (s.putText t).val = s.val := rfl
@[simp] theorem putText_kind (t : List Byte) : (s.putText t).kind = s.kind := rfl
@[simp] theorem putText_reason (t : List Byte) : (s.putText t).reason = s.reason := rfl
@[simp] theorem putText_mtu (t : List Byte) : (s.putText t).mtu = s.mtu := rfl
@[simp] theorem putText_frmId (t : List Byte) : (s.putText t).frmId = s.frmId := rfl
@[simp] theorem putText_frmLen (t : List Byte) : (s.putText t).frmLen = s.frmLen := rfl
@[simp] theorem putText_frmFlags (t : List Byte) : (s.putText t).frmFlags = s.frmFlags := rfl
@[simp] theorem putText_code (t : List Byte) : (s.putText t).code = s.code := rfl
@[simp] theorem putText_lastop (t : List Byte) : (s.putText t).lastop = s.lastop := rfl
@[simp] theorem putText_acc (t : List Byte) : (s.putText t).acc = s.acc := rfl
@[simp] theorem putText_mem (t : List Byte) : (s.putText t).mem = s.mem.writeBytes textBase t := rfl
@[simp] theorem putText_current (t : List Byte) : (s.putText t).current = s.current := rfl
@[simp] theorem putText_bus (t : List Byte) : (s.putText t).bus = s.bus := rfl
@[simp] theorem putText_loaded (t : List Byte) : (s.putText t).loaded = s.loaded := rfl
@[simp] theorem putText_reads (t : List Byte) : (s.putText t).reads = s.reads := rfl
@[simp] theorem putText_fresh (t : List Byte) : (s.putText t).fresh = s.fresh := rfl

/-! ### accept -/

@[simp] theorem accept_params (i : Instr) (lat : Nat) : (s.accept i lat).params = s.params := rfl
@[simp] theorem accept_done (i : Instr) (lat : Nat) : (s.accept i lat).done = false := rfl
@[simp] theorem accept_illcmd (i : Instr) (lat : Nat) : (s.accept i lat).illcmd = s.illcmd := rfl
@[simp] theorem accept_buserr (i : Instr) (lat : Nat) : (s.accept i lat).buserr = s.buserr := rfl
@[simp] theorem accept_wbusy (i : Instr) (lat : Nat) : (s.accept i lat).wbusy = s.wbusy := rfl
@[simp] theorem accept_tlen (i : Instr) (lat : Nat) : (s.accept i lat).tlen = s.tlen := rfl
@[simp] theorem accept_val (i : Instr) (lat : Nat) : (s.accept i lat).val = s.val := rfl
@[simp] theorem accept_kind (i : Instr) (lat : Nat) : (s.accept i lat).kind = s.kind := rfl
@[simp] theorem accept_reason (i : Instr) (lat : Nat) : (s.accept i lat).reason = s.reason := rfl
@[simp] theorem accept_mtu (i : Instr) (lat : Nat) : (s.accept i lat).mtu = s.mtu := rfl
@[simp] theorem accept_frmId (i : Instr) (lat : Nat) : (s.accept i lat).frmId = s.frmId := rfl
@[simp] theorem accept_frmLen (i : Instr) (lat : Nat) : (s.accept i lat).frmLen = s.frmLen := rfl
@[simp] theorem accept_frmFlags (i : Instr) (lat : Nat) : (s.accept i lat).frmFlags = s.frmFlags := rfl
@[simp] theorem accept_code (i : Instr) (lat : Nat) : (s.accept i lat).code = s.code := rfl
@[simp] theorem accept_lastop (i : Instr) (lat : Nat) : (s.accept i lat).lastop = s.lastop := rfl
@[simp] theorem accept_acc (i : Instr) (lat : Nat) : (s.accept i lat).acc = s.acc := rfl
@[simp] theorem accept_mem (i : Instr) (lat : Nat) : (s.accept i lat).mem = s.mem := rfl
@[simp] theorem accept_current (i : Instr) (lat : Nat) : (s.accept i lat).current = some { cmd := i, left := lat, work := Work.start s i } := rfl
@[simp] theorem accept_bus (i : Instr) (lat : Nat) : (s.accept i lat).bus = s.bus := rfl
@[simp] theorem accept_loaded (i : Instr) (lat : Nat) : (s.accept i lat).loaded = s.loaded := rfl
@[simp] theorem accept_reads (i : Instr) (lat : Nat) : (s.accept i lat).reads = s.reads := rfl
@[simp] theorem accept_fresh (i : Instr) (lat : Nat) : (s.accept i lat).fresh = s.fresh := rfl

/-! ### cycle -/

@[simp] theorem cycle_params (r : Running) (left : Nat) : (s.cycle r left).params = s.params := rfl
@[simp] theorem cycle_done (r : Running) (left : Nat) : (s.cycle r left).done = s.done := rfl
@[simp] theorem cycle_illcmd (r : Running) (left : Nat) : (s.cycle r left).illcmd = s.illcmd := rfl
@[simp] theorem cycle_buserr (r : Running) (left : Nat) : (s.cycle r left).buserr = s.buserr := rfl
@[simp] theorem cycle_wbusy (r : Running) (left : Nat) : (s.cycle r left).wbusy = s.wbusy := rfl
@[simp] theorem cycle_tlen (r : Running) (left : Nat) : (s.cycle r left).tlen = s.tlen := rfl
@[simp] theorem cycle_val (r : Running) (left : Nat) : (s.cycle r left).val = s.val := rfl
@[simp] theorem cycle_kind (r : Running) (left : Nat) : (s.cycle r left).kind = s.kind := rfl
@[simp] theorem cycle_reason (r : Running) (left : Nat) : (s.cycle r left).reason = s.reason := rfl
@[simp] theorem cycle_mtu (r : Running) (left : Nat) : (s.cycle r left).mtu = s.mtu := rfl
@[simp] theorem cycle_frmId (r : Running) (left : Nat) : (s.cycle r left).frmId = s.frmId := rfl
@[simp] theorem cycle_frmLen (r : Running) (left : Nat) : (s.cycle r left).frmLen = s.frmLen := rfl
@[simp] theorem cycle_frmFlags (r : Running) (left : Nat) : (s.cycle r left).frmFlags = s.frmFlags := rfl
@[simp] theorem cycle_code (r : Running) (left : Nat) : (s.cycle r left).code = s.code := rfl
@[simp] theorem cycle_lastop (r : Running) (left : Nat) : (s.cycle r left).lastop = s.lastop := rfl
@[simp] theorem cycle_acc (r : Running) (left : Nat) : (s.cycle r left).acc = s.acc := rfl
@[simp] theorem cycle_mem (r : Running) (left : Nat) : (s.cycle r left).mem = s.mem := rfl
@[simp] theorem cycle_current (r : Running) (left : Nat) : (s.cycle r left).current = some { r with left := left, work := r.work.advance s.effText r.cmd } := rfl
@[simp] theorem cycle_bus (r : Running) (left : Nat) : (s.cycle r left).bus = s.bus := rfl
@[simp] theorem cycle_loaded (r : Running) (left : Nat) : (s.cycle r left).loaded = s.loaded := rfl
@[simp] theorem cycle_reads (r : Running) (left : Nat) : (s.cycle r left).reads = s.reads := rfl
@[simp] theorem cycle_fresh (r : Running) (left : Nat) : (s.cycle r left).fresh = s.fresh := rfl

/-! ### softReset -/

@[simp] theorem softReset_params : s.softReset.params = s.params := rfl
@[simp] theorem softReset_done : s.softReset.done = false := rfl
@[simp] theorem softReset_illcmd : s.softReset.illcmd = false := rfl
@[simp] theorem softReset_buserr : s.softReset.buserr = false := rfl
@[simp] theorem softReset_wbusy : s.softReset.wbusy = false := rfl
@[simp] theorem softReset_tlen : s.softReset.tlen = 0 := rfl
@[simp] theorem softReset_val : s.softReset.val = 0 := rfl
@[simp] theorem softReset_kind : s.softReset.kind = 0 := rfl
@[simp] theorem softReset_reason : s.softReset.reason = 0 := rfl
@[simp] theorem softReset_mtu : s.softReset.mtu = 0 := rfl
@[simp] theorem softReset_frmId : s.softReset.frmId = 0 := rfl
@[simp] theorem softReset_frmLen : s.softReset.frmLen = 0 := rfl
@[simp] theorem softReset_frmFlags : s.softReset.frmFlags = 0 := rfl
@[simp] theorem softReset_code : s.softReset.code = 0 := rfl
@[simp] theorem softReset_lastop : s.softReset.lastop = 0 := rfl
@[simp] theorem softReset_acc : s.softReset.acc = Vector.replicate 16 0 := rfl
@[simp] theorem softReset_mem : s.softReset.mem = [] := rfl
@[simp] theorem softReset_current : s.softReset.current = none := rfl
@[simp] theorem softReset_bus : s.softReset.bus = s.bus := rfl
@[simp] theorem softReset_loaded : s.softReset.loaded = s.loaded := rfl
@[simp] theorem softReset_reads : s.softReset.reads = s.reads := rfl
@[simp] theorem softReset_fresh : s.softReset.fresh = s.fresh := rfl

/-! ### commitParse -/

@[simp] theorem commitParse_params (p : ParseResult) : (s.commitParse p).params = s.params := by
  cases p <;> rfl
@[simp] theorem commitParse_done (p : ParseResult) : (s.commitParse p).done = s.done := by
  cases p <;> rfl
@[simp] theorem commitParse_illcmd (p : ParseResult) : (s.commitParse p).illcmd = s.illcmd := by
  cases p <;> rfl
@[simp] theorem commitParse_buserr (p : ParseResult) : (s.commitParse p).buserr = s.buserr := by
  cases p <;> rfl
@[simp] theorem commitParse_wbusy (p : ParseResult) : (s.commitParse p).wbusy = s.wbusy := by
  cases p <;> rfl
@[simp] theorem commitParse_tlen (p : ParseResult) : (s.commitParse p).tlen = s.tlen := by
  cases p <;> rfl
@[simp] theorem commitParse_val (p : ParseResult) : (s.commitParse p).val = s.val := by
  cases p <;> rfl
@[simp] theorem commitParse_accept_kind (k : FrameKind) (f : Frame) :
    (s.commitParse (.accept k f)).kind = k.value := rfl
@[simp] theorem commitParse_reject_kind (r : Reason) :
    (s.commitParse (.reject r)).kind = 0 := rfl
@[simp] theorem commitParse_accept_reason (k : FrameKind) (f : Frame) :
    (s.commitParse (.accept k f)).reason = 0 := rfl
@[simp] theorem commitParse_reject_reason (r : Reason) :
    (s.commitParse (.reject r)).reason = r.value := rfl
@[simp] theorem commitParse_accept_mtu (k : FrameKind) (f : Frame) :
    (s.commitParse (.accept k f)).mtu = k.mtu := rfl
@[simp] theorem commitParse_reject_mtu (r : Reason) :
    (s.commitParse (.reject r)).mtu = 0 := rfl
@[simp] theorem commitParse_accept_frmId (k : FrameKind) (f : Frame) :
    (s.commitParse (.accept k f)).frmId = f.id := rfl
@[simp] theorem commitParse_reject_frmId (r : Reason) :
    (s.commitParse (.reject r)).frmId = 0 := rfl
@[simp] theorem commitParse_accept_frmLen (k : FrameKind) (f : Frame) :
    (s.commitParse (.accept k f)).frmLen = BitVec.ofNat 7 f.len := rfl
@[simp] theorem commitParse_reject_frmLen (r : Reason) :
    (s.commitParse (.reject r)).frmLen = 0 := rfl
@[simp] theorem commitParse_accept_frmFlags (k : FrameKind) (f : Frame) :
    (s.commitParse (.accept k f)).frmFlags = BitVec.ofNat 8 f.flags := rfl
@[simp] theorem commitParse_reject_frmFlags (r : Reason) :
    (s.commitParse (.reject r)).frmFlags = 0 := rfl
@[simp] theorem commitParse_code (p : ParseResult) : (s.commitParse p).code = s.code := by
  cases p <;> rfl
@[simp] theorem commitParse_lastop (p : ParseResult) : (s.commitParse p).lastop = s.lastop := by
  cases p <;> rfl
@[simp] theorem commitParse_acc (p : ParseResult) : (s.commitParse p).acc = s.acc := by
  cases p <;> rfl
@[simp] theorem commitParse_accept_mem (k : FrameKind) (f : Frame) :
    (s.commitParse (.accept k f)).mem = s.mem.writeBytes frmBase (frameBytes f.data) := by
  rw [State.commitParse]
@[simp] theorem commitParse_reject_mem (r : Reason) :
    (s.commitParse (.reject r)).mem = s.mem.writeBytes frmBase (frameBytes []) := by
  rw [State.commitParse]
@[simp] theorem commitParse_current (p : ParseResult) : (s.commitParse p).current = s.current := by
  cases p <;> rfl
@[simp] theorem commitParse_bus (p : ParseResult) : (s.commitParse p).bus = s.bus := by
  cases p <;> rfl
@[simp] theorem commitParse_loaded (p : ParseResult) : (s.commitParse p).loaded = s.loaded := by
  cases p <;> rfl
@[simp] theorem commitParse_reads (p : ParseResult) : (s.commitParse p).reads = s.reads := by
  cases p <;> rfl
@[simp] theorem commitParse_fresh (p : ParseResult) : (s.commitParse p).fresh = s.fresh := by
  cases p <;> rfl

/-! ### BUSY under each update (10_state R26) -/

@[simp] theorem clearStatus_busy (v : Word) : (s.clearStatus v).busy = s.busy := rfl
@[simp] theorem setIllcmd_busy : s.setIllcmd.busy = s.busy := rfl
@[simp] theorem setBuserr_busy : s.setBuserr.busy = s.busy := rfl
@[simp] theorem setWbusy_busy : s.setWbusy.busy = s.busy := rfl
@[simp] theorem setAcc_busy (k : Nat) (v : Dword) : (s.setAcc k v).busy = s.busy := rfl
@[simp] theorem complete_busy : s.complete.busy = false := rfl
@[simp] theorem finishPck_busy (c : PckCode) (op : BitVec 2) : (s.finishPck c op).busy = false := rfl
@[simp] theorem accept_busy (i : Instr) (lat : Nat) : (s.accept i lat).busy = true := rfl
@[simp] theorem cycle_busy (r : Running) (left : Nat) : (s.cycle r left).busy = true := rfl
@[simp] theorem softReset_busy : s.softReset.busy = false := rfl

/-- BUSY = 1 exactly while a command is running (10_state R26). -/
theorem busy_iff : s.busy = true ↔ ∃ r, s.current = some r := Option.isSome_iff_exists

/-- BUSY = 0 exactly when no command is running. -/
theorem not_busy_iff : s.busy = false ↔ s.current = none := by
  simp [State.busy]

end Sys2Proof.Machine
end

