-- ==== Sys2Proof/Laws/Ops.lean ====
section
/-!
SUPPORT. One lemma for each shared operation, saying all it can do: the accumulator file, the checks
of PACK and RENDER, and the meanings of the commands.
-/

namespace Sys2Proof.Machine

/-! ### The accumulator file -/

/-- An accumulator just written. -/
theorem accAt_setAcc_self (s : State) (k : Nat) (v : Dword) (h : k < 16) :
    (s.setAcc k v).accAt k = v := by
  simp [State.accAt, h]

/-- The other accumulators. -/
theorem accAt_setAcc_of_ne (s : State) {k j : Nat} (v : Dword) (h : j ≠ k) :
    (s.setAcc k v).accAt j = s.accAt j := by
  simp [State.accAt, Ne.symm h]

/-- Past the file every accumulator reads 0. -/
theorem accAt_of_ge (s : State) {k : Nat} (h : 16 ≤ k) : s.accAt k = 0 := by
  simp [State.accAt, h]

/-- Every accumulator is 0 after a reset (10_state R42). -/
theorem accAt_resetWith (p : Params) (k : Nat) : (State.resetWith p).accAt k = 0 := by
  by_cases h : k < 16 <;> simp [State.accAt, State.resetWith, h]

/-! ### Checks -/

/-- What a PACK that passes its checks has passed (41_packer R132). -/
theorem packCheck_ok_iff (nacc slot pos size dlc : Nat) :
    packCheck nacc slot pos size dlc = .ok ↔
      slot < nacc ∧ canon dlc = true ∧ 1 ≤ size ∧ size ≤ 64 ∧ pos + size ≤ 8 * dlc ∧
        8 * dlc - pos ≤ 64 := by
  unfold packCheck
  by_cases h1 : slot ≥ nacc
  · simp [h1, Nat.not_lt.2 h1]
  cases h2 : canon dlc
  · simp [h1]
  by_cases h3 : size = 0 ∨ size > 64
  · simp [h1, h3]; omega
  by_cases h4 : pos + size > 8 * dlc
  · simp [h1, h3, h4, Nat.not_le.2 h4]
  by_cases h5 : 8 * dlc - pos > 64
  · simp [h1, h3, h4, h5, Nat.not_le.2 h5]
  · simp [h1, h3, h4, h5]; omega

/-- What a RENDER that passes its checks has passed (42_render R151). -/
theorem renderCheck_ok_iff (nacc slot dlc : Nat) :
    renderCheck nacc slot dlc = .ok ↔ slot < nacc ∧ canon dlc = true := by
  unfold renderCheck
  by_cases h1 : slot ≥ nacc
  · simp [h1, Nat.not_lt.2 h1]
  cases h2 : canon dlc <;> simp [h1]
  omega

/-- The canonical lengths are at most 64 (00_scope R5). -/
theorem le_of_canon {d : Nat} (h : canon d = true) : d ≤ 64 := by
  simp [canon, Config.canonLengths] at h
  omega

/-- A code a PACK or a RENDER writes is one of 10_state R41's. -/
theorem PckCode.value_le (c : PckCode) : c.value.toNat ≤ 5 := by cases c <;> decide

/-! ### Meanings -/

/-- All that PACK can do (41_packer R132, R133). -/
theorem execPack_cases (slot pos size dlc : Nat) (s : State) :
    (packCheck s.params.nacc slot pos size dlc = .ok ∧
      execPack slot pos size dlc s =
        .next ((s.setAcc slot (packMerge (s.accAt slot) s.val pos size dlc)).finishPck .ok lastopPack)) ∨
    (packCheck s.params.nacc slot pos size dlc ≠ .ok ∧
      execPack slot pos size dlc s =
        .next (s.finishPck (packCheck s.params.nacc slot pos size dlc) lastopPack)) := by
  unfold execPack
  cases packCheck s.params.nacc slot pos size dlc <;> simp

/-- All that RENDER can do (42_render R151 to R153). -/
theorem execRender_cases (slot dlc : Nat) (idl : IdLen) (s : State) :
    (renderCheck s.params.nacc slot dlc = .ok ∧
      execRender slot dlc idl s =
        .next ((s.putText (renderText s slot dlc idl)).finishPck .ok lastopRender)) ∨
    (renderCheck s.params.nacc slot dlc ≠ .ok ∧
      execRender slot dlc idl s =
        .next (s.finishPck (renderCheck s.params.nacc slot dlc) lastopRender)) := by
  unfold execRender
  cases renderCheck s.params.nacc slot dlc <;> simp

/-- The number of characters a RENDER writes (42_render R152). -/
theorem renderText_length (s : State) (slot dlc : Nat) (idl : IdLen) :
    (renderText s slot dlc idl).length = idl.chars + 1 + 2 * dlc := by
  simp [renderText]
  omega

/-- All that PARSE can do (43_parser R172). -/
theorem execParse_eq (s : State) :
    execParse s = .next (s.commitParse (parseText s.effText)).complete := rfl

/-- Every meaning answers a next state with BUSY = 0 whose host side and parameters are as before
(44_control R212). -/
theorem exec_cases (i : Instr) (s : State) :
    ∃ t, exec i s = .next t ∧ t.current = none ∧ t.bus = s.bus ∧ t.reads = s.reads ∧
      t.fresh = s.fresh ∧ t.params = s.params ∧ t.done = (i != .srst) := by
  cases i with
  | nop => exact ⟨_, rfl, by simp⟩
  | parse => exact ⟨_, rfl, by simp⟩
  | pack slot pos size dlc =>
      obtain ⟨-, h⟩ | ⟨-, h⟩ := execPack_cases slot pos size dlc s <;> exact ⟨_, h, by simp⟩
  | render slot dlc idl =>
      obtain ⟨-, h⟩ | ⟨-, h⟩ := execRender_cases slot dlc idl s <;> exact ⟨_, h, by simp⟩
  | srst => exact ⟨_, rfl, by simp⟩

/-- No command but SRST touches a sticky bit (10_state R28). -/
theorem exec_sticky {i s t} (h : exec i s = .next t) (hi : i ≠ .srst) : t.illcmd = s.illcmd ∧ t.buserr = s.buserr ∧ t.wbusy = s.wbusy := by
  cases i with
  | nop => cases h; simp
  | parse => cases h; simp
  | pack slot pos size dlc =>
      obtain ⟨-, h'⟩ | ⟨-, h'⟩ := execPack_cases slot pos size dlc s <;> (have := h'.symm.trans h; cases this; simp)
  | render slot dlc idl =>
      obtain ⟨-, h'⟩ | ⟨-, h'⟩ := execRender_cases slot dlc idl s <;> (have := h'.symm.trans h; cases this; simp)
  | srst => exact absurd rfl hi

end Sys2Proof.Machine
end

