-- ==== Sys2Proof/Laws/Bus.lean ====
section
/-!
SUPPORT. What the bus side can do, said once: the address map, a host read, a host write, the service
of one access, and a step.
-/

namespace Sys2Proof.Machine

/-! ### The address map -/

/-- All that a mapped offset can name (20_memory R63). -/
theorem locate_inv {p : Params} {off : Nat} {l : Loc} (h : locate p off = some l) :
    (off, l) ∈ namedLocs ∨ (∃ w, w < 64 ∧ l = .text w) ∨ (∃ w, w < 16 ∧ l = .frmData w) ∨
      (∃ k, k < p.nacc ∧ (l = .accLo k ∨ l = .accHi k)) := by
  unfold locate at h
  split at h
  · next l' hl =>
    cases h; left
    simp only [namedLocs, List.lookup] at hl
    repeat' (split at hl)
    all_goals first
      | (rename_i hh; simp at hh; cases hl; subst hh; simp [namedLocs])
      | cases hl
  · split at h
    · cases h; right; left; exact ⟨_, by omega, rfl⟩
    · split at h
      · cases h; right; right; left; exact ⟨_, by omega, rfl⟩
      · split at h
        · next hr =>
          right; right; right
          have hk : (off - 0x400) / 8 < p.nacc := by omega
          refine ⟨_, hk, ?_⟩
          have := Option.some.inj h
          subst this
          by_cases hm : (off - 0x400) % 8 < 4 <;> simp [hm]
        · cases h

/-- What a valid access is (20_memory R61). -/
theorem validLoc_inv {p off n l} (h : validLoc p off n = some l) : n = 4 ∧ off % 4 = 0 ∧ locate p off = some l := by
  unfold validLoc at h
  split at h
  · next hh => exact ⟨hh.1, hh.2, h⟩
  · cases h

/-- CMD lies at 0x008 only. -/
theorem validLoc_cmd {p off n} (h : validLoc p off n = some .cmd) : off = 8 ∧ n = 4 := by
  obtain ⟨a, b, c⟩ := validLoc_inv h
  clear h
  rcases locate_inv c with h | ⟨_, _, h⟩ | ⟨_, _, h⟩ | ⟨_, _, h | h⟩ <;> simp [namedLocs] at h
  exact ⟨h, a⟩

/-- STATUS lies at 0x00C only. -/
theorem validLoc_status {p off n} (h : validLoc p off n = some .status) : off = 12 ∧ n = 4 := by
  obtain ⟨a, b, c⟩ := validLoc_inv h
  clear h
  rcases locate_inv c with h | ⟨_, _, h⟩ | ⟨_, _, h⟩ | ⟨_, _, h | h⟩ <;> simp [namedLocs] at h
  exact ⟨h, a⟩

/-! ### Reads -/

/-- All that a host read can do (20_memory R67, R79). -/
theorem memRead_cases (s : State) (off n : Nat) :
    (validLoc s.params off n = none ∧ s.memRead off n = (0, s.setBuserr)) ∨
    (∃ l, validLoc s.params off n = some l ∧ s.unspecified l = true ∧
      s.memRead off n = (Config.busyRead s.fresh, { s with fresh := s.fresh + 1 })) ∨
    (∃ l, validLoc s.params off n = some l ∧ s.unspecified l = false ∧
      s.memRead off n = (s.readLoc l, s)) := by
  unfold State.memRead
  cases hl : validLoc s.params off n with
  | none => simp
  | some l => cases hu : s.unspecified l <;> simp [hu]

/-- STATUS is in no write set (20_memory R79): reading it is always exact. -/
theorem memRead_status (s : State) : s.memRead 0x00C 4 = (s.statusWord, s) := by
  have hv : validLoc s.params 0x00C 4 = some .status := rfl
  have hu : s.unspecified .status = false := by
    unfold State.unspecified
    cases s.current with
    | none => rfl
    | some r => simp only []; cases r.cmd <;> rfl
  simp [State.memRead, hv, hu, State.readLoc]

/-! ### Writes -/

/-- All that the dispatch of a word can do (44_control R210, R211). -/
theorem dispatchWord_cases (v : Word) (lat : Nat) (s : State) :
    ((∃ e, decode v = .error e) ∧ dispatchWord v lat s = .next s.setIllcmd) ∨
    (∃ i, decode v = .ok i ∧ lat = 0 ∧ dispatchWord v lat s = exec i s) ∨
    (∃ i, decode v = .ok i ∧ 0 < lat ∧ dispatchWord v lat s = .next (s.accept i lat)) := by
  unfold dispatchWord
  cases hd : decode v with
  | error e => simp
  | ok i => rcases Nat.eq_zero_or_pos lat with h | h <;> simp [h]; omega

/-- All that a host write can do: the steps of 20_memory R68. -/
theorem memWrite_cases (s : State) (off n : Nat) (v : Word) (lat : Nat) :
    (validLoc s.params off n = none ∧ s.memWrite off n v lat = .next s.setBuserr) ∨
    (∃ l, validLoc s.params off n = some l ∧
      ((l = .status ∧ s.memWrite off n v lat = .next (s.clearStatus v)) ∨
       (l = .cmd ∧ v = srstWord ∧ s.memWrite off n v lat = exec .srst s) ∨
       (l ≠ .status ∧ ¬(l = .cmd ∧ v = srstWord) ∧ s.busy = true ∧
          s.memWrite off n v lat = .next s.setWbusy) ∨
       (s.busy = false ∧ l.readOnly = true ∧ s.memWrite off n v lat = .next s.setBuserr) ∨
       (s.busy = false ∧ l = .cmd ∧ v ≠ srstWord ∧ s.memWrite off n v lat = dispatchWord v lat s) ∨
       (s.busy = false ∧ l.readOnly = false ∧ l ≠ .status ∧ l ≠ .cmd ∧
          s.memWrite off n v lat = .next (s.storeLoc v l)))) := by
  unfold State.memWrite
  cases hl : validLoc s.params off n with
  | none => simp
  | some l =>
      refine .inr ⟨l, rfl, ?_⟩
      by_cases h1 : l = .status
      · simp [h1]
      by_cases h2 : l = .cmd ∧ v = srstWord
      · simp [h2.1, h2.2]
      cases h3 : s.busy
      · cases h4 : l.readOnly
        · by_cases h5 : l = .cmd
          · subst h5
            have : v ≠ srstWord := fun h => h2 ⟨rfl, h⟩
            simp [this, h4]
          · simp [h1, h5, h4]
        · have h5 : l ≠ .cmd := by rintro rfl; simp [Loc.readOnly] at h4
          simp [h1, h5, h4]
      · simp [h1, h2]

/-- What the storing steps of a host write leave alone (20_memory R68 steps 7 and 8). -/
theorem storeLoc_frame (s : State) (v : Word) (l : Loc) :
   (s.storeLoc v l).done = s.done ∧ (s.storeLoc v l).illcmd = s.illcmd ∧ (s.storeLoc v l).buserr = s.buserr ∧ (s.storeLoc v l).wbusy = s.wbusy ∧
   (s.storeLoc v l).kind = s.kind ∧ (s.storeLoc v l).reason = s.reason ∧ (s.storeLoc v l).mtu = s.mtu ∧ (s.storeLoc v l).frmId = s.frmId ∧
   (s.storeLoc v l).frmLen = s.frmLen ∧ (s.storeLoc v l).frmFlags = s.frmFlags ∧ (s.storeLoc v l).code = s.code ∧ (s.storeLoc v l).lastop = s.lastop ∧ (s.storeLoc v l).params = s.params ∧ (s.storeLoc v l).current = s.current ∧ (s.storeLoc v l).bus = s.bus ∧ (s.storeLoc v l).reads = s.reads ∧ (s.storeLoc v l).fresh = s.fresh := by
  cases l <;> simp [State.storeLoc]

/-! ### Steps -/

/-- A host write answers a next state. -/
theorem memWrite_next (s : State) (off n : Nat) (v : Word) (lat : Nat) :
    ∃ t, s.memWrite off n v lat = .next t := by
  rcases memWrite_cases s off n v lat with ⟨-, h⟩ | ⟨l, -, h⟩
  · exact ⟨_, h⟩
  · rcases h with ⟨-, h⟩ | ⟨-, -, h⟩ | ⟨-, -, -, h⟩ | ⟨-, -, h⟩ | ⟨-, -, -, h⟩ | ⟨-, -, -, -, h⟩
    · exact ⟨_, h⟩
    · exact ⟨_, h⟩
    · exact ⟨_, h⟩
    · exact ⟨_, h⟩
    · rcases dispatchWord_cases v lat s with ⟨-, h'⟩ | ⟨i, -, -, h'⟩ | ⟨i, -, -, h'⟩
      · exact ⟨_, h.trans h'⟩
      · obtain ⟨t, ht, -⟩ := exec_cases i s
        exact ⟨t, h.trans (h'.trans ht)⟩
      · exact ⟨_, h.trans h'⟩
    · exact ⟨_, h⟩

/-- All that the service of an access can do (20_memory R60, R72; 30_encoding R101). -/
theorem serve_cases (op : HostOp) (s : State) :
    (∃ addr n, op = .read addr n ∧ windowOffset s.params addr = none ∧ serve op s = .next s) ∨
    (∃ addr n off, op = .read addr n ∧ windowOffset s.params addr = some off ∧
      serve op s = .next (State.returnWord (s.memRead off n))) ∨
    (∃ addr n v lat, op = .write addr n v lat ∧ windowOffset s.params addr = none ∧
      serve op s = .next s) ∨
    (∃ addr n v lat off, op = .write addr n v lat ∧ windowOffset s.params addr = some off ∧
      serve op s = s.memWrite off n v lat) ∨
    (op = .wait ∧ s.busy = true ∧ serve op s = .next ((State.returnWord (s.statusWord, s)).requeue .wait)) ∨
    (op = .wait ∧ s.busy = false ∧ serve op s = .next (State.returnWord (s.statusWord, s))) ∨
    (op = .hwReset ∧ serve op s = .next s.softReset) := by
  cases op with
  | read addr n =>
      cases h : windowOffset s.params addr <;> simp [serve, State.hostRead, h]
  | write addr n v lat =>
      cases h : windowOffset s.params addr <;> simp [serve, State.hostWrite, h]
  | wait =>
      have hb : s.statusWord.getLsbD 0 = s.busy := by
        simp only [State.statusWord, BitVec.getLsbD_append]
        cases s.busy <;> rfl
      have hw : s.hostWait = if s.busy = true then
          (State.returnWord (s.statusWord, s)).requeue .wait else State.returnWord (s.statusWord, s) := by
        unfold State.hostWait
        rw [hb, memRead_status]
      cases h : s.busy <;> simp [serve, hw, h]
  | hwReset => simp [serve, State.hwReset]

/-- Serving an access of any kind answers a next state. -/
theorem serve_next (op : HostOp) (s : State) : ∃ t, serve op s = .next t := by
  rcases serve_cases op s with ⟨_, _, -, -, h⟩ | ⟨_, _, _, -, -, h⟩ | ⟨_, _, _, _, -, -, h⟩ |
    ⟨_, n, v, lat, off, -, -, h⟩ | ⟨-, -, h⟩ | ⟨-, -, h⟩ | ⟨-, h⟩
  · exact ⟨_, h⟩
  · exact ⟨_, h⟩
  · exact ⟨_, h⟩
  · obtain ⟨t, ht⟩ := memWrite_next s off n v lat
    exact ⟨t, h.trans ht⟩
  · exact ⟨_, h⟩
  · exact ⟨_, h⟩
  · exact ⟨_, h⟩

/-- The state in which a step serves an access: as it stands while idle, with one cycle gone by while
a command runs. -/
def ServesFrom (s u : State) : Prop :=
  (s.current = none ∧ u = s) ∨
    ∃ r k, s.current = some r ∧ r.left = k + 1 ∧ u = s.cycle r k

/-- What a cycle of the engine leaves alone while an access is served (20_memory R72). -/
theorem servesFrom_frame {s u} (h : ServesFrom s u) : u.illcmd = s.illcmd ∧ u.buserr = s.buserr ∧ u.wbusy = s.wbusy ∧ u.params = s.params ∧ u.busy = s.busy ∧ u.bus = s.bus ∧ u.fresh = s.fresh ∧ u.mem = s.mem ∧ u.kind = s.kind ∧ u.reason = s.reason ∧ u.mtu = s.mtu ∧ u.frmId = s.frmId ∧ u.frmLen = s.frmLen ∧ u.frmFlags = s.frmFlags ∧ u.code = s.code ∧ u.lastop = s.lastop := by
  rcases h with ⟨h, rfl⟩ | ⟨r, k, h, h', rfl⟩
  · simp
  · simp [State.busy, h]

/-- All that a step can do: complete the running command, or serve the next access, or find the bus
idle (20_memory R72). -/
theorem step_cases {s t : State} (h : step s = .next t) :
    (∃ r, s.current = some r ∧ r.left = 0 ∧ exec r.cmd s = .next t) ∨
    (∃ u, ServesFrom s u ∧
      ((s.bus = [] ∧ t = u) ∨
       ∃ op rest, s.bus = op :: rest ∧ serve op (u.dequeued rest) = .next t)) := by
  have key : ∀ u, u.bus = s.bus → serveNext u = .next t →
      ((s.bus = [] ∧ t = u) ∨
       ∃ op rest, s.bus = op :: rest ∧ serve op (u.dequeued rest) = .next t) := by
    intro u hb hu
    unfold serveNext at hu
    cases hbus : u.bus with
    | nil => rw [hbus] at hu; cases hu; exact .inl ⟨hb ▸ hbus, rfl⟩
    | cons op rest => rw [hbus] at hu; exact .inr ⟨op, rest, hb ▸ hbus, hu⟩
  unfold step tick at h
  cases hc : s.current with
  | none =>
      rw [hc] at h
      exact .inr ⟨s, .inl ⟨hc, rfl⟩, key s rfl h⟩
  | some r =>
      rw [hc] at h
      cases hl : r.left with
      | zero => simp only [hl] at h; exact .inl ⟨r, rfl, hl, h⟩
      | succ k =>
          simp only [hl] at h
          exact .inr ⟨_, .inr ⟨r, k, hc, hl, rfl⟩, key _ rfl h⟩

end Sys2Proof.Machine
end

