-- ==== Sys2Proof/Laws/Decode.lean ====
section
/-!
SUPPORT. Small facts about the decoder.
-/

namespace Sys2Proof

/-- The only word of SRST (44_control R214). -/
theorem decode_srst_word (c : Word) : decode c = .ok .srst → c = 0xF := by
  intro h
  unfold decode opMap at h
  simp only [List.find?, OpRow.fits] at h
  split at h
  · next r hr =>
    split at hr
    · cases hr; simp [operandsOf] at h
    · split at hr
      · cases hr; simp [operandsOf] at h
      · split at hr
        · cases hr; simp [operandsOf] at h
        · split at hr
          · cases hr; simp [operandsOf] at h
          · split at hr
            · next hh =>
              have hh' : c &&& BitVec.allOnes 32 = 15#32 := by simpa using hh
              rwa [BitVec.and_allOnes] at hh'
            · cases hr
  · cases h

/-- The operands of a decoded command fit their fields (30_encoding R94). -/
theorem wf_of_decode (c : Word) (i : Instr) : decode c = .ok i → i.wf = true := by
  intro h
  unfold decode at h
  split at h
  · next r hr =>
    cases h
    have b1 := (c.extractLsb 7 4).isLt
    have b2 := (c.extractLsb 16 8).isLt
    have b3 := (c.extractLsb 23 17).isLt
    have b4 := (c.extractLsb 30 24).isLt
    cases r.name <;> simp [operandsOf, Instr.wf, field] <;> omega
  · cases h

end Sys2Proof
end

