-- ==== Sys2Proof/Laws/Masters.lean ====
section
/-!
SUPPORT. What the admission of a host program, and one entry of it, can do, said once.
-/

namespace Sys2Proof.Machine

/-- All that `State.load` can do: the program's accesses become pending, or it is refused. -/
theorem load_cases (s : State) (prog : List MasterOp) :
    (admits s.params (s.loaded ++ prog) = true ∧
      s.load prog =
        .next { s with bus := s.bus ++ prog.filterMap MasterOp.delivered, loaded := s.loaded ++ prog }) ∨
    (admits s.params (s.loaded ++ prog) = false ∧ s.load prog = .refused .mastersWithoutLock) := by
  unfold State.load
  cases admits s.params (s.loaded ++ prog) <;> simp

/-- A program of several masters is admitted only if it keeps the lock rule. -/
theorem run_of_load {s t : State} {prog : List MasterOp} (h : s.load prog = .next t)
    (hs : severalMasters s.params (s.loaded ++ prog) = true) :
    ∃ w, LockWalk.start.run s.params (s.loaded ++ prog) = some w := by
  rcases load_cases s prog with ⟨ha, -⟩ | ⟨-, hr⟩
  · exact Option.isSome_iff_exists.mp (by simpa [admits, hs, keepsLock] using ha)
  · rw [hr] at h; cases h

/-- A program in two parts is walked part by part. -/
theorem LockWalk.run_append (p : Params) (a b : List MasterOp) : ∀ w : LockWalk,
    w.run p (a ++ b) = (w.run p a).bind (fun w' => w'.run p b) := by
  induction a with
  | nil => intro w; rfl
  | cons e rest ih =>
      intro w
      simp only [List.cons_append, LockWalk.run]
      cases w.next p e with
      | none => rfl
      | some w' => exact ih w'

/-- All that a master's access can do to the walk. -/
theorem LockWalk.next_access_cases {p : Params} {w w' : LockWalk} {m : Nat} {op : HostOp}
    (h : w.next p (.access m op) = some w') :
    (op = .hwReset ∧ w' = w.afterReset) ∨
    (op ≠ .hwReset ∧ usesBlock p op = false ∧ w' = { w with left := w.left - 1 }) ∨
    (usesBlock p op = true ∧ w.holder = none ∧ (accessLoc p op).any Loc.shared = false ∧
      w' = { w with left := w.leftAfter p op }) ∨
    (usesBlock p op = true ∧ w.holder = some m ∧ (∀ x ∈ takes p w op, w.covers m x = true) ∧
      w' = if resets p op then w.afterReset else w.afterAccess p op) := by
  unfold LockWalk.next at h
  by_cases h1 : op = .hwReset
  · simp only [h1, if_true] at h; cases h; exact .inl ⟨h1, rfl⟩
  · cases h2 : usesBlock p op
    · simp only [h1, h2, if_false, Bool.not_false, if_true] at h
      cases h; exact .inr (.inl ⟨h1, rfl, rfl⟩)
    · simp only [h1, h2, if_false, Bool.not_true, Bool.false_eq_true] at h
      split at h
      · next h3 => cases h; exact .inr (.inr (.inl ⟨rfl, h3.1, by simpa using h3.2, rfl⟩))
      · split at h
        · next h4 =>
            cases h
            exact .inr (.inr (.inr ⟨rfl, h4.1, fun x hx => List.all_eq_true.mp h4.2 x hx, rfl⟩))
        · cases h

/-- A CMD write that starts a command is to CMD. -/
theorem accessLoc_of_startedBy {p : Params} {op : HostOp} {i : Instr} (h : startedBy p op = some i) :
    accessLoc p op = some .cmd := by
  unfold startedBy at h
  split at h
  · assumption
  · cases h

/-- The operand registers are shared locations. -/
theorem Loc.shared_of_operand {l : Loc} (h : l.operand = true) : l.shared = true := by
  cases l <;> first | rfl | cases h

/-- The result registers are shared locations. -/
theorem Loc.shared_of_result {l : Loc} (h : l.result = true) : l.shared = true := by
  cases l <;> first | rfl | cases h

/-- Only a result register has result bytes. -/
theorem result_of_resultBytes {w : LockWalk} {l : Loc} {x : SharedByte} (h : x ∈ w.resultBytes l) :
    l.result = true := by
  cases l <;> first | rfl | exact absurd h (by simp [LockWalk.resultBytes, Loc.result])

/-- What a walk keeps over the holder's access and over a reset: the lock and the earlier holdings. -/
@[simp] theorem LockWalk.afterAccess_holder (p : Params) (w : LockWalk) (op : HostOp) :
    (w.afterAccess p op).holder = w.holder := rfl
@[simp] theorem LockWalk.afterAccess_past (p : Params) (w : LockWalk) (op : HostOp) :
    (w.afterAccess p op).past = w.past := rfl
@[simp] theorem LockWalk.afterAccess_own (p : Params) (w : LockWalk) (op : HostOp) :
    (w.afterAccess p op).own =
      (puts p op).map (fun x => { byte := x, sure := w.left == 0 }) ++ w.own := rfl
@[simp] theorem LockWalk.afterReset_holder (w : LockWalk) : w.afterReset.holder = w.holder := rfl
@[simp] theorem LockWalk.afterReset_past (w : LockWalk) : w.afterReset.past = w.past := rfl
@[simp] theorem LockWalk.afterReset_own (w : LockWalk) : w.afterReset.own = w.own := rfl

/-- An access that puts a shared byte is to a shared location. -/
theorem shared_of_puts {p : Params} {op : HostOp} {x : SharedByte} (h : x ∈ puts p op) :
    (accessLoc p op).any Loc.shared = true := by
  unfold puts at h
  cases hi : startedBy p op with
  | some i => rw [accessLoc_of_startedBy hi]; rfl
  | none =>
      rw [hi] at h
      cases hl : accessLoc p op with
      | none => cases op <;> simp [hl] at h
      | some l =>
          cases op <;> simp [hl] at h
          exact Loc.shared_of_operand h.1

/-- An access that uses a shared byte is to a shared location. -/
theorem shared_of_takes {p : Params} {w : LockWalk} {op : HostOp} {x : SharedByte}
    (h : x ∈ takes p w op) : (accessLoc p op).any Loc.shared = true := by
  unfold takes at h
  cases hi : startedBy p op with
  | some i => rw [accessLoc_of_startedBy hi]; rfl
  | none =>
      rw [hi] at h
      cases hl : accessLoc p op with
      | none => cases op <;> simp [hl] at h
      | some l =>
          cases op <;> simp [hl] at h
          exact Loc.shared_of_result (result_of_resultBytes h)

end Sys2Proof.Machine
end

