-- ==== Sys2Proof/Laws/Memory.lean ====
section
/-!
SUPPORT. The laws of the byte buffers: a read after a write, and the canonical form, which every
memory operation keeps.
-/

namespace Sys2Proof.Machine

/-- Every entry of a memory lies above `x`. -/
def Memory.above (x : Nat) (m : Memory) : Prop := ∀ c ∈ m, x < c.1

theorem Memory.wf_cons (a : Nat) (b : Byte) (m : Memory) :
    Memory.wf ((a, b) :: m) = true ↔ b ≠ 0 ∧ Memory.above a m ∧ Memory.wf m = true := by
  simp [Memory.wf, Memory.above, and_assoc]

theorem Memory.read_of_above {x : Nat} : ∀ {m : Memory}, Memory.above x m → m.read x = 0
  | [], _ => rfl
  | (a, b) :: rest, h => by
      have ha : x < a := h (a, b) (by simp)
      have hr : Memory.above x rest := fun c hc => h c (by simp [hc])
      simp [Memory.read, Nat.ne_of_lt ha, Memory.read_of_above hr]

/-- A write leaves every other place alone. -/
theorem Memory.read_write_of_ne {x y : Nat} (h : y ≠ x) (v : Byte) :
    ∀ m : Memory, (m.write x v).read y = m.read y
  | [] => by unfold Memory.write; split <;> simp [Memory.read, h]
  | (a, b) :: rest => by
      have ih := Memory.read_write_of_ne h v rest
      unfold Memory.write
      split
      · split <;> simp [Memory.read, h]
      · split
        · next hxa => split <;> simp_all [Memory.read]
        · simp [Memory.read, ih]

/-- A read after a write to the same place gives the value written. -/
theorem Memory.read_write_self (x : Nat) (v : Byte) :
    ∀ {m : Memory}, m.wf = true → (m.write x v).read x = v
  | [], _ => by unfold Memory.write; split <;> simp_all [Memory.read]
  | (a, b) :: rest, hw => by
      obtain ⟨hb, ha, hr⟩ := (Memory.wf_cons a b rest).1 hw
      unfold Memory.write
      split
      · next hlt =>
        split
        · next hv =>
          have : Memory.above x rest := fun c hc => Nat.lt_trans hlt (ha c hc)
          simp [Memory.read, Nat.ne_of_lt hlt, Memory.read_of_above this, hv]
        · simp [Memory.read]
      · split
        · next hxa =>
          subst hxa
          split
          · next hv => simp [Memory.read_of_above ha, hv]
          · simp [Memory.read]
        · next hne => simp [Memory.read, hne, Memory.read_write_self x v hr]

theorem Memory.above_write {a x : Nat} (h : a < x) (v : Byte) :
    ∀ {m : Memory}, Memory.above a m → Memory.above a (m.write x v)
  | [], _ => by
      intro c hc
      by_cases hv : v = 0 <;> simp [Memory.write, hv] at hc
      simp [hc, h]
  | (a', b) :: rest, hm => by
      have hr : Memory.above a rest := fun c hc => hm c (by simp [hc])
      have ha : a < a' := hm (a', b) (by simp)
      have ih := Memory.above_write h v hr
      unfold Memory.write
      intro c
      split
      · split
        · exact hm c
        · simp only [List.mem_cons]
          rintro (rfl | rfl | hc)
          exacts [h, ha, hr c hc]
      · split
        · split
          · exact hr c
          · simp only [List.mem_cons]
            rintro (rfl | hc)
            exacts [h, hr c hc]
        · simp only [List.mem_cons]
          rintro (rfl | hc)
          exacts [ha, ih c hc]

/-- A write keeps the canonical form. -/
theorem Memory.wf_write (x : Nat) (v : Byte) : ∀ {m : Memory}, m.wf = true → (m.write x v).wf = true
  | [], _ => by unfold Memory.write; split <;> simp_all [Memory.wf]
  | (a, b) :: rest, hw => by
      obtain ⟨hb, ha, hr⟩ := (Memory.wf_cons a b rest).1 hw
      unfold Memory.write
      split
      · next hlt =>
        split
        · exact hw
        · next hv =>
          refine (Memory.wf_cons _ _ _).2 ⟨hv, ?_, hw⟩
          simp only [Memory.above, List.mem_cons]
          rintro c (rfl | hc)
          exacts [hlt, Nat.lt_trans hlt (ha c hc)]
      · next hge =>
        split
        · next hxa =>
          split
          · exact hr
          · next hv => exact (Memory.wf_cons _ _ _).2 ⟨hv, hxa ▸ ha, hr⟩
        · next hne =>
          exact (Memory.wf_cons _ _ _).2
            ⟨hb, Memory.above_write (by omega) v ha, Memory.wf_write x v hr⟩

/-- What a write can add to a memory: nothing but the place written. -/
theorem Memory.mem_write {x : Nat} {v : Byte} {c : Host.Cell} :
    ∀ {m : Memory}, c ∈ m.write x v → c ∈ m ∨ c.1 = x
  | [], h => by
      by_cases hv : v = 0 <;> simp [Memory.write, hv] at h
      simp [h]
  | (a, b) :: rest, h => by
      unfold Memory.write at h
      split at h
      · split at h
        · exact .inl h
        · simp only [List.mem_cons] at h
          rcases h with rfl | h
          · exact .inr rfl
          · exact .inl (by simpa using h)
      · split at h
        · split at h
          · exact .inl (by simp [h])
          · simp only [List.mem_cons] at h
            rcases h with rfl | h
            · exact .inr rfl
            · exact .inl (by simp [h])
        · simp only [List.mem_cons] at h
          rcases h with rfl | h
          · exact .inl (by simp)
          · rcases Memory.mem_write h with h | h
            · exact .inl (by simp [h])
            · exact .inr h

/-! ### Runs of bytes -/

/-- Writing a run of bytes keeps the canonical form. -/
theorem Memory.wf_writeBytes : ∀ (vs : List Byte) (x : Nat) {m : Memory},
    m.wf = true → (m.writeBytes x vs).wf = true
  | [], _, _, h => h
  | v :: vs, x, _, h => Memory.wf_writeBytes vs (x + 1) (Memory.wf_write x v h)

/-- Writing a run of bytes leaves every place outside the run alone. -/
theorem Memory.read_writeBytes_of_out {y : Nat} : ∀ (vs : List Byte) (x : Nat) (m : Memory),
    (y < x ∨ x + vs.length ≤ y) → (m.writeBytes x vs).read y = m.read y
  | [], _, _, _ => rfl
  | v :: vs, x, m, h => by
      simp only [List.length_cons] at h
      rw [Memory.writeBytes, Memory.read_writeBytes_of_out vs (x + 1) _ (by omega),
        Memory.read_write_of_ne (by omega)]

/-- A read inside a written run gives the byte written there. -/
theorem Memory.read_writeBytes_of_in : ∀ (vs : List Byte) (x k : Nat) {m : Memory},
    m.wf = true → k < vs.length → (m.writeBytes x vs).read (x + k) = vs.getD k 0
  | v :: vs, x, 0, m, hw, _ => by
      rw [Memory.writeBytes, Memory.read_writeBytes_of_out vs (x + 1) _ (by omega)]
      simp [Memory.read_write_self x v hw]
  | v :: vs, x, k + 1, m, hw, hk => by
      have := Memory.read_writeBytes_of_in vs (x + 1) k (Memory.wf_write x v hw)
        (by simpa using hk)
      rw [Memory.writeBytes, show x + (k + 1) = x + 1 + k by omega, this]
      simp

/-- What a run of bytes can add to a memory: places of the run. -/
theorem Memory.mem_writeBytes {c : Host.Cell} : ∀ (vs : List Byte) (x : Nat) {m : Memory},
    c ∈ m.writeBytes x vs → c ∈ m ∨ (x ≤ c.1 ∧ c.1 < x + vs.length)
  | [], _, _, h => .inl h
  | v :: vs, x, m, h => by
      rw [Memory.writeBytes] at h
      rcases Memory.mem_writeBytes vs (x + 1) h with h | h
      · rcases Memory.mem_write h with h | h
        · exact .inl h
        · exact .inr (by simp only [List.length_cons]; omega)
      · exact .inr (by simp only [List.length_cons]; omega)

/-- Writing a word keeps the canonical form. -/
theorem Memory.wf_writeWord (x : Nat) (v : Word) {m : Memory} (h : m.wf = true) :
    (m.writeWord x v).wf = true :=
  Memory.wf_writeBytes _ x h

/-- Writing a word leaves every place outside its four bytes alone. -/
theorem Memory.read_writeWord_of_out {x y : Nat} (v : Word) (m : Memory) (h : y < x ∨ x + 4 ≤ y) :
    (m.writeWord x v).read y = m.read y :=
  Memory.read_writeBytes_of_out _ x m (by simpa using h)

/-- Byte `k` of a written word (20_memory R65). -/
theorem Memory.read_writeWord_of_in {x k : Nat} (v : Word) {m : Memory} (h : m.wf = true)
    (hk : k < 4) : (m.writeWord x v).read (x + k) = byteOf v k := by
  rw [Memory.writeWord, Memory.read_writeBytes_of_in _ x k h (by simpa using hk)]
  match k, hk with
  | 0, _ => rfl
  | 1, _ => rfl
  | 2, _ => rfl
  | 3, _ => rfl

/-- A word read back after it was written (20_memory R65). -/
theorem Memory.word_writeWord (x : Nat) (v : Word) {m : Memory} (h : m.wf = true) :
    (m.writeWord x v).word x = v := by
  have h0 := Memory.read_writeWord_of_in (x := x) (k := 0) v h (by omega)
  have h1 := Memory.read_writeWord_of_in (x := x) (k := 1) v h (by omega)
  have h2 := Memory.read_writeWord_of_in (x := x) (k := 2) v h (by omega)
  have h3 := Memory.read_writeWord_of_in (x := x) (k := 3) v h (by omega)
  simp only [Nat.add_zero] at h0
  rw [Memory.word, h0, h1, h2, h3]
  apply BitVec.eq_of_getLsbD_eq
  intro i hi
  simp only [wordOfBytes, byteOf, BitVec.getLsbD_append, BitVec.getLsbD_extractLsb']
  interval_cases i <;> simp

/-! ### Readers of the buffers -/

/-- TEXT after a run of bytes written from TEXT[0]. -/
theorem textByte_writeBytes (s : State) (vs : List Byte) (h : s.mem.wf = true) (i : Nat)
    (hi : i < vs.length) (hs : i < 256) :
    State.textByte { s with mem := s.mem.writeBytes textBase vs } i = vs.getD i 0 := by
  simp [State.textByte, Config.textSize, hs, Memory.read_writeBytes_of_in vs textBase i h hi]

/-- FRM_DATA after a run of bytes written from FRM_DATA[0]. -/
theorem frmByte_writeBytes (s : State) (vs : List Byte) (h : s.mem.wf = true) (j : Nat)
    (hj : j < vs.length) :
    State.frmByte { s with mem := s.mem.writeBytes frmBase vs } j = vs.getD j 0 :=
  Memory.read_writeBytes_of_in vs frmBase j h hj

end Sys2Proof.Machine
end

