-- ==== Sys2Proof/Laws/PerInstr.lean ====
section
/-!
SUPPORT. Statements made for each command, by its syntax.
-/

namespace Sys2Proof.Laws.OpField

/-- The OP field of a command's word is the command's OP (30_encoding R90, R95), whatever its
operands. -/
def Statement (i : Instr) : Prop := field (encode i) 3 0 = opField i

theorem nop : Statement .nop := rfl

theorem parse : Statement .parse := rfl

theorem pack (slot pos size dlc : Nat) : Statement (.pack slot pos size dlc) := by
  have h : (encode (.pack slot pos size dlc)).extractLsb 3 0 = 0x2#4 := by
    refine BitVec.eq_of_getLsbD_eq fun b hb => ?_
    have : b = 0 ∨ b = 1 ∨ b = 2 ∨ b = 3 := by omega
    rcases this with rfl | rfl | rfl | rfl <;> simp [encode]
  exact congrArg BitVec.toNat h

theorem render (slot dlc : Nat) (idl : IdLen) : Statement (.render slot dlc idl) := by
  have h : (encode (.render slot dlc idl)).extractLsb 3 0 = 0x3#4 := by
    refine BitVec.eq_of_getLsbD_eq fun b hb => ?_
    have : b = 0 ∨ b = 1 ∨ b = 2 ∨ b = 3 := by omega
    rcases this with rfl | rfl | rfl | rfl <;> simp [encode]
  exact congrArg BitVec.toNat h

theorem srst : Statement .srst := rfl

end Sys2Proof.Laws.OpField
end

