-- ==== Sys2Proof/Tests/Slice0.lean ====
section
/-!
SUPPORT. Tests of the model: ill-formed commands, command words written out from 30_encoding, single
steps with results taken from 95_test_vectors, and for each statement with hypotheses a state and
operands that meet them.
-/

namespace Sys2Proof.Tests

open Sys2Proof Sys2Proof.Machine

/-! ### Small states -/

/-- The bytes of a text. -/
def ascii (cs : List Char) : List Byte := cs.map (fun c => BitVec.ofNat 8 c.toNat)

/-- The state after reset with a text loaded. -/
def withText (t : List Byte) : State :=
  { State.reset with mem := Memory.writeBytes [] textBase t, tlen := BitVec.ofNat 9 t.length }

/-- The state after reset with a value in ACC[0], a value in VAL and an identifier text in RID. -/
def withAcc (a v : Dword) (rid : List Byte) : State :=
  { (State.reset.setAcc 0 a) with val := v, mem := Memory.writeBytes [] ridBase rid }

/-- The state after reset with accesses pending. -/
def withBus (ops : List HostOp) : State := { State.reset with bus := ops }

/-- The state after reset with a command accepted, `left` cycles from its completion. -/
def running (i : Instr) (left : Nat) : State := State.reset.accept i left

/-- The next state, if there is one. -/
def nextOf : Host.Outcome State Fault Refusal → Option State
  | .next s => some s
  | .fault _ => none
  | .refused _ => none

/-- What one step of a command leaves in a field. -/
def after {α : Type} (i : Instr) (s : State) (f : State → α) : Option α := (nextOf (exec i s)).map f

/-- The words one read access returns. -/
def readBack (s : State) (addr n : Nat) : List Word :=
  match serve (.read addr n) s with
  | .next t => t.reads
  | .fault _ => []
  | .refused _ => []

/-! ### WellFormed refuses an operand that does not fit its field (30_encoding R99) -/

theorem test_wf_pack_slot : (Instr.pack 16 0 8 8).wf = false := by decide
theorem test_wf_pack_pos : (Instr.pack 0 512 8 8).wf = false := by decide
theorem test_wf_pack_size : (Instr.pack 0 0 128 8).wf = false := by decide
theorem test_wf_pack_dlc : (Instr.pack 0 0 8 128).wf = false := by decide
theorem test_wf_render_slot : (Instr.render 16 8 .id3).wf = false := by decide
theorem test_wf_render_dlc : (Instr.render 0 128 .id8).wf = false := by decide
theorem test_wf_largest : (Instr.pack 15 511 127 127).wf = true ∧ (Instr.render 15 127 .id8).wf = true ∧
    Instr.nop.wf = true ∧ Instr.parse.wf = true ∧ Instr.srst.wf = true := by decide

/-! ### Words of 30_encoding R91 to R93, bit by bit -/

/-- Format N, OP 0x0. -/
theorem test_decode_nop : decode 0b00000000000000000000000000000000 = .ok .nop := by decide
/-- Format N, OP 0x1. -/
theorem test_decode_parse : decode 0b00000000000000000000000000000001 = .ok .parse := by decide
/-- Format P: DLC 0001000, SIZE 0010000, POS 000000101, SLOT 1001. -/
theorem test_decode_pack : decode 0b00001000001000000000010110010010 = .ok (.pack 9 5 16 8) := by decide
/-- Format P with each field at its largest value. -/
theorem test_decode_pack_ones :
    decode 0b01111111111111111111111111110010 = .ok (.pack 15 511 127 127) := by decide
/-- Format R: DLC 1000000, IDL 1, SLOT 0110. -/
theorem test_decode_render : decode 0b01000000000000000000000101100011 = .ok (.render 6 64 .id8) := by
  decide
/-- Format R, IDL 0. -/
theorem test_decode_render_id3 : decode 0b00000100000000000000000000000011 = .ok (.render 0 4 .id3) := by
  decide
/-- Format N, OP 0xF. -/
theorem test_decode_srst : decode 0b00000000000000000000000000001111 = .ok .srst := by decide
/-- The classes of 30_encoding R96 at their boundaries. -/
theorem test_decode_illegal :
    decode 0x4 = .error .reservedOp ∧ decode 0xE = .error .reservedOp ∧
    decode 0x10 = .error .formatNBits ∧ decode 0x80000001 = .error .formatNBits ∧
    decode 0x1F = .error .formatNBits ∧ decode 0x80000002 = .error .packBit31 ∧
    decode 0x80000003 = .error .renderBits ∧ decode 0x00000203 = .error .renderBits ∧
    decode 0x00800003 = .error .renderBits := by decide
/-- Four bytes as one word, the model's byte order (log 23), with the rest handed back. -/
theorem test_decode_bytes :
    decodeBytes [0x02, 0x00, 0x10, 0x08, 0xFF] = some (.ok (.pack 0 0 8 8), [0xFF]) := by decide
/-- The numbering of spec/opcode_table.json, and a word that is too long. -/
theorem test_decode_table : decodeTableWord 32 0x08100002 = some (.pack 0 0 8 8) ∧
    decodeTableWord 32 0x80000002 = none ∧ decodeTableWord 33 0 = none := by decide
/-- The words of 30_encoding R99. -/
theorem test_encode : encode (.pack 0 4 4 8) = 0x08080402 ∧ encode (.render 0 1 .id8) = 0x01000103 := by
  decide
/-- The lines of 30_encoding R99, and an operand that does not fit. -/
theorem test_asm : asmLine ['p','a','c','k',' ','0',',',' ','0','x','1','F',',',' ','8',',',' ','1','2'] =
      some 0x0C101F02 ∧
    asmLine ['r','e','n','d','e','r',' ','1','6',',',' ','8',',',' ','i','d','3'] = none := by decide
/-- The line of an illegal word (30_encoding R99). -/
theorem test_disasm : disasmText 0x8000000F =
    ['.','w','o','r','d',' ','0','x','8','0','0','0','0','0','0','F'] := by decide

/-! ### One step of each command (results from 95_test_vectors) -/

/-- N-1 to N-12: the decoder at its boundaries. -/
theorem test_nib : [0x30, 0x39, 0x41, 0x46, 0x61, 0x66, 0x2F, 0x3A, 0x40, 0x47, 0x60, 0x67].map nib =
    [0, 9, 10, 15, 10, 15, 16, 16, 16, 16, 16, 16] := by decide
/-- 44_control R213: `nop` leaves STATUS = 0x00000002. -/
theorem test_nop : after .nop (running .nop 0) State.statusWord = some 0x00000002 := by decide
/-- W1. -/
theorem test_parse_w1 :
    after .parse (withText (ascii ['1','2','3','#','D','E','A','D','B','E','E','F']))
      (fun t => (t.readLoc .prsRes, t.frmId, t.frmLen, t.readLoc (.frmData 0))) =
    some (0x00001001, 0x123, 4, 0xEFBEADDE) := by decide
/-- W6: nothing of a rejected frame is kept. -/
theorem test_parse_w6 :
    after .parse (withText (ascii ['1','2','3','#','1','1','X','2']))
      (fun t => (t.readLoc .prsRes, t.frmId, t.frmLen, t.readLoc (.frmData 0))) =
    some (0x00000050, 0, 0, 0) := by decide
/-- K-3. -/
theorem test_pack_k3 : after (.pack 0 4 4 8) (withAcc 0xFFFFFFFFFFFFFFFF 0 [])
    (fun t => (t.accAt 0, t.readLoc .pckRes)) = some (0xF0FFFFFFFFFFFFFF, 0x00000100) := by decide
/-- K-14. -/
theorem test_pack_k14 : after (.pack 0 31 8 12) (withAcc 0 0xAA [])
    (fun t => (t.accAt 0, t.readLoc .pckRes)) = some (0, 0x00000105) := by decide
/-- 42_render R152's example: "123#DEADBEEF", TLEN = 12. -/
theorem test_render : after (.render 0 4 .id3) (withAcc 0xDEADBEEF 0 (ascii ['1','2','3']))
    (fun t => (t.effText, t.tlen, t.readLoc .pckRes)) =
    some (ascii ['1','2','3','#','D','E','A','D','B','E','E','F'], 12, 0x00000200) := by decide
/-- 42_render R154: DLC = 12 renders 8 zeros before the 64-bit value. -/
theorem test_render_dlc12 :
    after (.render 0 12 .id3) (withAcc 0x1122334455667788 0 (ascii ['1','2','3'])) State.effText =
    some (ascii ['1','2','3','#','0','0','0','0','0','0','0','0',
      '1','1','2','2','3','3','4','4','5','5','6','6','7','7','8','8']) := by decide
/-- 44_control R214: STATUS reads 0 after SRST, which abandons a running command. -/
theorem test_srst : after .srst (running (.pack 0 0 8 8) 3)
    (fun t => (t.statusWord, t.accAt 0)) = some (0, 0) := by decide
/-- TLEN saturates (10_state R29). -/
theorem test_tlen_saturates :
    (nextOf (State.reset.memWrite 0x010 4 0xFFFFFFFF 0)).map State.tlen = some 256 := by decide
/-- 20_memory R62: a two-byte read is refused. -/
theorem test_read_refused : readBack State.reset 0x000 2 = [0] := by decide
/-- 10_state R22, R23. -/
theorem test_identity : readBack State.reset 0x000 4 = [0x43414E31] ∧
    readBack State.reset 0x004 4 = [0x00000110] := by decide
/-- The word `withFetchWord` places runs as the first command after reset. -/
theorem test_first_command :
    (nextOf (step (State.reset.withFetchWord 32 0x00000001))).map (fun t => t.readLoc .prsRes) =
    some 0x00000010 := by decide

/-! ### Witnesses: states and operands that meet the hypotheses of each statement -/

/-- DecodeInvertsEncode, AssemblerReadsBackItsLines: well-formed commands are in `test_wf_largest`.
EncodeInvertsDecode: `test_decode_pack_ones`. DecodeFollowsTheOpcodeMap: a word for each row. -/
theorem test_witness_rows :
    (0x00000000 : Word) &&& 0xFFFFFFFF = 0x00000000 ∧ (0x00000001 : Word) &&& 0xFFFFFFFF = 0x00000001 ∧
    (0x7FFFFFF2 : Word) &&& 0x8000000F = 0x00000002 ∧ (0x7F0001F3 : Word) &&& 0x80FFFE0F = 0x00000003 ∧
    (0x0000000F : Word) &&& 0xFFFFFFFF = 0x0000000F ∧ ∃ i, decode 0x7F0001F3 = .ok i :=
  ⟨by decide, by decide, by decide, by decide, by decide, _, rfl⟩

/-- IllegalWordsAreRecordedAndDropped: an illegal word, an idle and a busy state. -/
theorem test_witness_illegal : (∃ e, decode 0x8000000F = .error e) ∧ State.reset.busy = false ∧
    (running .nop 1).busy = true := ⟨⟨_, rfl⟩, rfl, rfl⟩

/-- ValidAccessesAreThoseOfTheMap: the ends of every mapped range, with NACC 16 and NACC 1. -/
theorem test_witness_valid : validAccess 16 0x000 4 ∧ validAccess 16 0x034 4 ∧ validAccess 16 0x100 4 ∧
    validAccess 16 0x23C 4 ∧ validAccess 16 0x400 4 ∧ validAccess 16 0x47C 4 ∧ validAccess 1 0x404 4 := by
  simp [validAccess, mappedOffset]

/-- InvalidAccessesAreRefused: the first offset after each range, a size and an alignment. -/
theorem test_witness_invalid : ¬ validAccess 16 0x038 4 ∧ ¬ validAccess 16 0x0FC 4 ∧
    ¬ validAccess 16 0x240 4 ∧ ¬ validAccess 16 0x3FC 4 ∧ ¬ validAccess 16 0x480 4 ∧
    ¬ validAccess 1 0x408 4 ∧ ¬ validAccess 16 0x100 2 ∧ ¬ validAccess 16 0x101 4 := by
  simp [validAccess, mappedOffset]

/-- ReadsReturnTheRegisters, IdleWritesStoreTheirValue: an idle state with other values than reset. -/
theorem test_witness_idle : (withAcc 0x1122334455667788 5 (ascii ['1','2','3'])).busy = false ∧
    (withAcc 0x1122334455667788 5 (ascii ['1','2','3'])).mem.wf = true ∧
    (withAcc 0x1122334455667788 5 (ascii ['1','2','3'])).params.nacc ≤ 16 := by decide

/-- ReadsWhileBusy: an offset in each command's write set and one that is not, at the ends of ranges. -/
theorem test_witness_busy_read :
    (∃ r, (running .parse 3).current = some r ∧ r.cmd = .parse) ∧
    inWriteSet 16 .parse 0x23C ∧ ¬ inWriteSet 16 .parse 0x024 ∧ ¬ inWriteSet 16 .parse 0x00C ∧
    inWriteSet 16 (.pack 15 0 8 8) 0x47C ∧ ¬ inWriteSet 16 (.pack 15 0 8 8) 0x474 ∧
    ¬ inWriteSet 8 (.pack 15 0 8 8) 0x47C ∧ inWriteSet 16 (.render 0 8 .id3) 0x1FC ∧
    ¬ inWriteSet 16 (.render 0 8 .id3) 0x200 ∧ ¬ inWriteSet 16 .nop 0x024 := by
  refine ⟨⟨_, rfl, rfl⟩, ?_⟩
  simp [inWriteSet]

/-- ReadOnlyWritesAreRefused: the ends of the RO ranges, and the offsets beside them. -/
theorem test_witness_read_only : readOnlyOffset 0x000 ∧ readOnlyOffset 0x004 ∧ readOnlyOffset 0x014 ∧
    readOnlyOffset 0x024 ∧ readOnlyOffset 0x200 ∧ readOnlyOffset 0x23C ∧ ¬ readOnlyOffset 0x010 ∧
    ¬ readOnlyOffset 0x028 := by
  simp [readOnlyOffset]

/-- BusyWritesAreDropped: an operand register, an RO register, and CMD with another word. -/
theorem test_witness_busy_write : (running .parse 3).busy = true ∧ validAccess 16 0x028 4 ∧
    validAccess 16 0x014 4 ∧ ¬ ((0x008 : Nat) = 0x008 ∧ (0x1F : Word) = 0x0000000F) := by
  simp [validAccess, mappedOffset, running]

/-- AddressesOutsideTheWindowAreIgnored: on either side of a window at 0x1000. -/
theorem test_witness_outside :
    (0x0FFF : Nat) < (State.resetWith { nacc := 16, hexCase := .upper, base := 0x1000 }).params.base ∧
    (State.resetWith { nacc := 16, hexCase := .upper, base := 0x1000 }).params.base + 0x1000 ≤ 0x2000 := by
  decide

/-- NibbleRoundTrip: the largest nibble, and a digit in either case. NibbleDecoderTable's ranges have
their ends in `test_nib`. -/
theorem test_witness_round_trip : (15 : Nat) ≤ 15 ∧ nib 0x66 ≤ 15 ∧ nib 0x46 ≤ 15 := by decide

/-- PackReportsTheFirstFailingCheck: each code is met, in the order of the checks. -/
theorem test_witness_pack_codes :
    [(16, 0, 8, 9), (15, 0, 0, 9), (15, 0, 0, 8), (15, 0, 65, 0), (15, 0, 1, 0), (15, 31, 8, 12),
      (15, 32, 8, 12)].map (fun x => packCheck 16 x.1 x.2.1 x.2.2.1 x.2.2.2) =
    [.errSlot, .errDlc, .errSize, .errSize, .errRange, .errWide, .ok] := by decide

/-- PackMergesOnlyItsField: the largest slot, position and size a PACK can use (K-13). -/
theorem test_witness_pack_merge : State.reset.params.nacc ≤ 16 ∧ 15 < State.reset.params.nacc ∧
    64 ∈ [0, 1, 2, 3, 4, 5, 6, 7, 8, 12, 16, 20, 24, 32, 48, 64] ∧ 1 ≤ 64 ∧ 448 + 64 ≤ 8 * 64 ∧
    8 * 64 - 448 ≤ 64 := by decide

/-- PackComposesAndIsIdempotent: two fields that touch, on either side of each other. -/
theorem test_witness_compose : packCheck 16 0 4 12 2 = .ok ∧ packCheck 16 0 0 4 2 = .ok ∧
    (∃ t, exec (.pack 0 4 12 2) (withAcc 0 0x2A3 []) = .next t) ∧ 8 * 2 - 4 ≤ 8 * 2 - 0 - 4 ∧
    (∃ t, exec (.pack 0 0 4 2) (withAcc 0 5 []) = .next t) ∧ 8 * 2 - 4 ≤ 8 * 2 - 0 - 4 :=
  ⟨by decide, by decide, ⟨_, rfl⟩, by decide, ⟨_, rfl⟩, by decide⟩

/-- RenderReportsTheFirstFailingCheck: each code is met. -/
theorem test_witness_render_codes : renderCheck 16 16 9 = .errSlot ∧ renderCheck 16 15 9 = .errDlc ∧
    renderCheck 16 15 64 = .ok := by decide

/-- RenderWritesTheFrameText: the longest and the shortest text. -/
theorem test_witness_render : State.reset.mem.wf = true ∧ 15 < State.reset.params.nacc ∧
    64 ∈ [0, 1, 2, 3, 4, 5, 6, 7, 8, 12, 16, 20, 24, 32, 48, 64] ∧
    0 ∈ [0, 1, 2, 3, 4, 5, 6, 7, 8, 12, 16, 20, 24, 32, 48, 64] := by decide

/-- RenderThenParseGivesTheFrame: eight hex digits in RID. -/
theorem test_witness_render_parse :
    (withAcc 0xDEADBEEF 0 (ascii ['1','F','3','3','4','4','5','5'])).mem.wf = true ∧
    0 < (withAcc 0xDEADBEEF 0 (ascii ['1','F','3','3','4','4','5','5'])).params.nacc ∧ 8 ≤ 8 ∧
    ∀ k, k < IdLen.id8.chars →
      nib ((withAcc 0xDEADBEEF 0 (ascii ['1','F','3','3','4','4','5','5'])).ridByte k) ≤ 15 := by decide

/-- ParseCommitsItsResult: a text of each result. -/
theorem test_witness_parse :
    (withText (ascii ['2','1','3','#','#','3','1','1'])).mem.wf = true ∧
    parseText (ascii ['2','1','3','#','#','3','1','1']) =
      .accept .fd { id := 0x213, len := 1, flags := 3, data := [0x11] } ∧
    parseText (ascii ['1','2','3','#']) = .accept .classic { id := 0x123, len := 0, flags := 0, data := [] } ∧
    parseText (ascii ['1','2','3','#','1']) = .reject .badData := by decide

/-- RejectionReasonsAreTheFirstFailingChecks: a text for each reason. -/
theorem test_witness_reasons : parseText (ascii ['1','2','3']) = .reject .short ∧
    parseText (ascii ['1','2','3','4']) = .reject .nodelim ∧
    parseText (ascii ['1','.','3','#','1','1']) = .reject .badId ∧
    parseText (ascii ['1','2','3','#','#']) = .reject .badFlag := by decide

/-- IdentifierWordOfAnAcceptedText: both forms (P-40, P-43). -/
theorem test_witness_identifier :
    parseText (ascii ['2','0','0','0','0','0','0','1','#']) =
      .accept .classic { id := 0x20000001, len := 0, flags := 0, data := [] } ∧
    delimiterAt (ascii ['2','0','0','0','0','0','0','1','#']) = some 8 ∧
    parseText (ascii ['1','2','3','#','R','4']) =
      .accept .classic { id := 0x40000123, len := 4, flags := 0, data := [] } ∧
    delimiterAt (ascii ['1','2','3','#','R','4']) = some 3 := by decide

/-- RemoteFrames: a good head with each selector letter; FdEscape: with `#` and a good or a bad flags
digit. -/
theorem test_witness_head :
    headOk (ascii ['1','2','3','#','R','8']) 3 ∧ ch (ascii ['1','2','3','#','R','8']) 4 = 0x52 ∧
    headOk (ascii ['1','2','3','4','5','6','7','8','#','r']) 8 ∧
    ch (ascii ['1','2','3','4','5','6','7','8','#','r']) 9 = 0x72 ∧
    headOk (ascii ['1','2','3','#','#','F']) 3 ∧ nib (ch (ascii ['1','2','3','#','#','F']) 5) ≤ 15 ∧
    headOk (ascii ['1','2','3','#','#']) 3 ∧ 15 < nib (ch (ascii ['1','2','3','#','#']) 5) := by
  simp only [headOk, isHex]
  decide

/-- ParserAcceptsExactlyTheGrammar: a text of each form of the grammar. -/
theorem test_witness_grammar :
    isFrameText (ascii ['1','2','3','#','R','4']) .classic
      { id := 0x40000123, len := 4, flags := 0, data := [] } ∧
    isFrameText (ascii ['2','1','3','#','#','3','.','1','1']) .fd
      { id := 0x213, len := 1, flags := 3, data := [0x11] } ∧
    isFrameText (ascii ['7','F','F','#','0','1','.']) .classic
      { id := 0x7FF, len := 1, flags := 0, data := [0x01] } := by
  refine ⟨⟨ascii ['1','2','3'], ascii ['R','4'], rfl, .inl rfl, by simp only [isHex]; decide, .inl ?_⟩,
    ⟨ascii ['2','1','3'], ascii ['#','3','.','1','1'], rfl, .inl rfl, by simp only [isHex]; decide,
      .inr (.inl ?_)⟩,
    ⟨ascii ['7','F','F'], ascii ['0','1','.'], rfl, .inl rfl, by simp only [isHex]; decide,
      .inr (.inr ?_)⟩⟩
  · exact ⟨chUpperR, ascii ['4'], rfl, .inl rfl, rfl, by decide⟩
  · exact ⟨0x33, ascii ['.','1','1'], [0x11], rfl, by unfold isHex; decide, rfl,
      ⟨[(true, 0x31, 0x31)], [], rfl, by simp [isHex, nib], by decide, by decide,
        .inr (.inl rfl)⟩, by decide⟩
  · exact ⟨[0x01], by decide, by decide, by decide, rfl,
      ⟨[(false, 0x30, 0x31)], ascii ['.'], rfl, by simp [isHex, nib], by decide, by decide,
        .inr (.inr rfl)⟩, by decide⟩

/-- ParseIgnoresBytesPastTheText: two different buffers that agree up to a NUL. -/
theorem test_witness_tail :
    (withText (ascii ['1','2','3','#'] ++ [0, 0x31])).tlen = (withText (ascii ['1','2','3','#'] ++ [0, 0x5A])).tlen ∧
    (withText (ascii ['1','2','3','#'] ++ [0, 0x31])).mem.wf = true ∧
    (withText (ascii ['1','2','3','#'] ++ [0, 0x5A])).mem.wf = true ∧
    (∀ i, i < 6 → (∀ j, j < i → (withText (ascii ['1','2','3','#'] ++ [0, 0x31])).textByte j ≠ 0) →
      (withText (ascii ['1','2','3','#'] ++ [0, 0x31])).textByte i =
        (withText (ascii ['1','2','3','#'] ++ [0, 0x5A])).textByte i) := by decide

/-- CompletionSetsTheHandshake, CmdWriteAcceptsTheCommand. -/
theorem test_witness_accept : Instr.parse ≠ .srst ∧ State.reset.busy = false ∧ Instr.parse.wf = true ∧
    0 < 1 := by decide

/-- StepRunsTheDecodedCommand: a running command at its end; a CMD write with LAT 0, with LAT 2, and
of SRST; a word for `withFetchWord`. -/
theorem test_witness_step :
    (∃ r, (running .parse 0).current = some r ∧ r.left = 0) ∧
    ((withBus [.write 0x008 4 0x1 0]).current = none ∧ decode 0x1 = .ok .parse) ∧
    ((withBus [.write 0x008 4 0x1 2]).bus = .write (State.reset.params.base + 0x008) 4 0x1 2 :: []) ∧
    decode 0xF = .ok .srst ∧ decodeTableWord 32 0xF = some .srst :=
  ⟨⟨_, rfl, rfl⟩, ⟨rfl, rfl⟩, rfl, rfl, by decide⟩

/-- EveryAcceptedCommandCompletes, WaitingForACommandIsRunningItAtOnce. -/
theorem test_witness_complete : (∃ r, (running .parse 300).current = some r) ∧
    (withBus [.write (State.reset.params.base + 0x008) 4 (encode .parse) 2]).current = none ∧
    (withBus [.write 0x008 4 (encode .parse) 0, .wait, .read 0x014 4]).bus =
      .write (State.reset.params.base + 0x008) 4 (encode .parse) 0 :: .wait :: [.read 0x014 4] ∧
    Instr.parse.wf = true ∧ Instr.parse ≠ .srst :=
  ⟨⟨_, rfl⟩, rfl, rfl, rfl, by decide⟩

/-- A `nop` of LAT 2 and a `wait`: two polls show BUSY, the last one DONE (44_control R213). -/
theorem test_wait_polls :
    (nextOf (Host.Core.run Sys2Proof.core 5 (withBus [.write 0x008 4 (encode .nop) 2, .wait]))).map
      (fun t => (t.reads, t.bus)) = some ([0x2, 0x1, 0x1], []) := by decide

/-- EveryStepKeepsTheInvariants: a command running in the middle of its LAT. -/
theorem test_witness_inv : (running .parse 3).Inv ∧ ∃ t, step (running .parse 3) = .next t := by
  refine ⟨⟨by unfold paramsOk; decide, ⟨by decide, by simp [running, State.accept, State.reset, State.resetWith]⟩, by simp [State.TlenOk]; decide,
    .inl (by decide), fun j _ _ => rfl, by unfold State.PckOk; decide,
    fun k _ => ?_, ?_, ?_⟩, _, rfl⟩
  · exact accAt_resetWith Config.params k
  · rintro r h
    cases h
    exact ⟨rfl, by decide, rfl⟩
  · rintro r h
    cases h
    exact ⟨0, rfl⟩

/-- DisciplinedHostsLoseNothing: a command, a wait, a read of its result; and a host that may only
wait. -/
theorem test_witness_disciplined :
    (withBus [.write 0x008 4 0x1 2, .read 0x00C 4, .wait, .read 0x014 4]).Disciplined ∧
    (∃ t, step (withBus [.write 0x008 4 0x1 2, .read 0x00C 4, .wait, .read 0x014 4]) = .next t) ∧
    ¬ (withBus [.write 0x008 4 0x1 2, .read 0x014 4]).Disciplined :=
  ⟨by unfold State.Disciplined; decide, ⟨_, rfl⟩, by unfold State.Disciplined; decide⟩

/-- StickyBitsAreClearedOnlyByTheHost: each bit set before a step and clear after it. -/
theorem test_witness_sticky :
    ({ withBus [.write 0x00C 4 0x1C 0] with illcmd := true, buserr := true, wbusy := true } : State).RunningOk ∧
    ∃ t, step { withBus [.write 0x00C 4 0x1C 0] with illcmd := true, buserr := true, wbusy := true } = .next t ∧
      t.illcmd = false ∧ t.buserr = false ∧ t.wbusy = false :=
  ⟨(fun r h => by cases h), _, rfl, rfl, rfl, rfl⟩

/-- ErrorBitsAreSetOnlyByTheirEvents: each bit set by a step. -/
theorem test_witness_errors :
    (∃ t, step (withBus [.write 0x008 4 0x4 0]) = .next t ∧ t.illcmd = true) ∧
    (∃ t, step (withBus [.read 0x038 4]) = .next t ∧ t.buserr = true) ∧
    (∃ t, step (withBus [.write 0x014 4 0 0]) = .next t ∧ t.buserr = true) ∧
    (∃ t, step { running .parse 3 with bus := [.write 0x028 4 0 0] } = .next t ∧ t.wbusy = true) :=
  ⟨⟨_, rfl, rfl⟩, ⟨_, rfl, rfl⟩, ⟨_, rfl, rfl⟩, _, rfl, rfl⟩

/-- ResultRegistersChangeOnlyAtTheirCommands: a step that changes the parse registers, and one that
changes PCK_RES. -/
theorem test_witness_results :
    (∃ t, step (running .parse 0) = .next t ∧ t.reason ≠ (running .parse 0).reason) ∧
    (∃ t, step (running (.render 0 0 .id3) 0) = .next t ∧
      t.lastop ≠ (running (.render 0 0 .id3) 0).lastop) :=
  ⟨⟨_, rfl, by decide⟩, _, rfl, by decide⟩

/-- NothingMovesWhileACommandRuns; IdentityRegistersAreConstant. -/
theorem test_witness_running : (running .parse 3).busy = true ∧
    ∃ t, step (running .parse 3) = .next t ∧ t.busy = true := ⟨rfl, _, rfl, rfl⟩

/-- SetvalAndSettextLoadTheirOperands, SetridClraccClrstsDoTheirWrites: each pseudo-instruction as the
pending accesses of an idle block. -/
theorem test_witness_pseudo :
    (withBus (setval Config.params 5)).current = none ∧ (withBus (setval Config.params 5)).mem.wf = true ∧
    (∃ ops, settext Config.params (ascii ['1','2','3','#','R']) = some ops ∧ ops.length = 3 ∧
      (withBus ops).bus = ops ++ []) ∧
    (∃ ops, setrid Config.params (ascii ['1','2','3']) = some ops ∧ (withBus ops).bus = ops ++ []) ∧
    15 < Config.params.nacc ∧ (withBus (clracc Config.params 15)).bus = clracc Config.params 15 ++ [] ∧
    (withBus (clrsts Config.params)).bus = clrsts Config.params ++ [] :=
  ⟨rfl, rfl, ⟨_, rfl, rfl, rfl⟩, ⟨_, rfl, rfl⟩, by decide, rfl, rfl⟩

/-- WaitPollsUntilIdle: a `wait` served while busy and while idle. -/
theorem test_witness_wait : (∃ t, serve .wait (running .nop 3) = .next t) ∧ (running .nop 3).busy = true ∧
    (∃ t, serve .wait State.reset = .next t) ∧ State.reset.busy = false :=
  ⟨⟨_, rfl⟩, rfl, ⟨_, rfl⟩, rfl⟩

/-! ### Several masters (70_reset_and_hazards R268) -/

/-- Master 1 packs under the lock; master 2 looks at STATUS and then parses under the lock. -/
def lockKept : List MasterOp :=
  [.acquire 1, .access 1 (.write 0x028 4 5 0), .access 1 (.write 0x008 4 0x08100002 3), .access 1 .wait,
   .access 1 (.read 0x024 4), .release 1, .access 2 (.read 0x00C 4), .acquire 2,
   .access 2 (.write 0x010 4 0 0), .access 2 (.write 0x008 4 0x1 1), .access 2 .wait,
   .access 2 (.read 0x014 4), .release 2]

/-- The same uses with no lock. -/
def lockMissing : List MasterOp :=
  [.access 1 (.write 0x028 4 5 0), .access 2 (.write 0x010 4 0 0), .access 1 (.write 0x008 4 0x08100002 0)]

/-- Master 1 gives the lock up between its operand write and the PACK that takes the operand. -/
def lockBroken : List MasterOp :=
  [.acquire 1, .access 1 (.write 0x028 4 5 0), .release 1, .acquire 2, .access 2 (.write 0x028 4 6 0),
   .release 2, .acquire 1, .access 1 (.write 0x008 4 0x08100002 0), .release 1]

/-- Master 1 gives the lock up between the halves of VAL, master 2 writes the low half, and master 1
packs the 64 bits. -/
def halfBroken (word : Word) : List MasterOp :=
  [.acquire 1, .access 1 (.write 0x028 4 5 0), .access 1 (.write 0x02C 4 5 0), .release 1, .acquire 2,
   .access 2 (.write 0x02C 4 6 0), .release 2, .acquire 1, .access 1 (.write 0x028 4 0 0),
   .access 1 (.write 0x008 4 word 0), .release 1]

/-- Master 2 resets the block between master 1's operand and its PACK. -/
def resetBroken : List MasterOp :=
  [.acquire 1, .access 1 (.write 0x028 4 5 0), .release 1, .acquire 2, .access 2 (.write 0x008 4 0xF 0),
   .release 2, .acquire 1, .access 1 (.write 0x008 4 0x08100002 0), .release 1]

/-- Master 1 renders 25 characters in one holding and 17 in another, where it reads the word of TEXT that
holds the last of them. -/
def shorterRender : List MasterOp :=
  [.acquire 1, .access 1 (.write 0x030 4 0x34333231 0), .access 1 (.write 0x034 4 0x38373635 0),
   .access 1 (.write 0x008 4 0x08000103 0), .release 1, .acquire 2, .access 2 (.write 0x028 4 6 0),
   .release 2, .acquire 1, .access 1 (.write 0x030 4 0x34333231 0), .access 1 (.write 0x034 4 0x38373635 0),
   .access 1 (.write 0x008 4 0x04000103 0), .access 1 (.read 0x110 4), .release 1]

/-- Master 1 reads its rendered text in a later holding, having only put a TLEN of its own there. -/
def readBroken : List MasterOp :=
  [.acquire 1, .access 1 (.write 0x030 4 0x34333231 0), .access 1 (.write 0x008 4 0x04000003 0), .release 1,
   .acquire 2, .access 2 (.write 0x028 4 6 0), .release 2, .acquire 1, .access 1 (.write 0x010 4 0 0),
   .access 1 (.read 0x100 4), .release 1]

/-- Master 1 parses a text that its own NUL ends before TLEN, after a longer one in an earlier holding. -/
def nulText : List MasterOp :=
  [.acquire 1, .access 1 (.write 0x104 4 0x31313131 0), .release 1, .acquire 2, .access 2 (.write 0x028 4 6 0),
   .release 2, .acquire 1, .access 1 (.write 0x100 4 0x00333231 0), .access 1 (.write 0x010 4 256 0),
   .access 1 (.write 0x008 4 0x1 0), .release 1]

/-- Master 1 loads TEXT in one holding, and TLEN and the PARSE in another. -/
def textBroken : List MasterOp :=
  [.acquire 1, .access 1 (.write 0x100 4 0x23333231 0), .release 1, .acquire 2, .access 2 (.read 0x014 4),
   .release 2, .acquire 1, .access 1 (.write 0x010 4 4 0), .access 1 (.write 0x008 4 0x1 0), .release 1]

/-- Master 1 parses a text of 8 characters in one holding and one of 4 in another. -/
def shorterText : List MasterOp :=
  [.acquire 1, .access 1 (.write 0x100 4 0x23333231 0), .access 1 (.write 0x104 4 0x31313131 0),
   .access 1 (.write 0x010 4 8 0), .access 1 (.write 0x008 4 0x1 0), .release 1, .acquire 2,
   .access 2 (.read 0x014 4), .release 2, .acquire 1, .access 1 (.write 0x100 4 0x23333231 0),
   .access 1 (.write 0x010 4 4 0), .access 1 (.write 0x008 4 0x1 0), .release 1]

/-- Master 1's second write of VAL_LO can meet BUSY = 1 and be dropped, so its PACK can take the first. -/
def dropBroken : List MasterOp :=
  [.acquire 1, .access 1 (.write 0x028 4 5 0), .release 1, .acquire 2, .access 2 (.write 0x008 4 0 3),
   .release 2, .acquire 1, .access 1 (.write 0x028 4 6 0), .access 1 .wait,
   .access 1 (.write 0x008 4 0x08100002 0), .release 1]

/-- Whether a program is admitted by the block after reset. -/
def admitted (prog : List MasterOp) : Bool := (nextOf (State.reset.load prog)).isSome

theorem test_lock_kept : severalMasters Config.params lockKept = true ∧
    (nextOf (State.reset.load lockKept)).map (fun t => (t.bus.length, t.loaded == lockKept)) =
      some (9, true) := by decide
theorem test_lock_missing : severalMasters Config.params lockMissing = true ∧ admitted lockMissing = false := by
  decide
theorem test_lock_broken : admitted lockBroken = false ∧ admitted (halfBroken 0x08800002) = false ∧
    admitted textBroken = false ∧ admitted dropBroken = false ∧ admitted resetBroken = false ∧
    admitted readBroken = false := by decide
/-- Programs whose uses each lie in one holding, though bytes of earlier ones are still in the registers:
a PACK of 8 bits takes no byte of VAL_HI (41_packer R135). -/
theorem test_lock_lawful : admitted shorterText = true ∧ admitted shorterRender = true ∧
    admitted nulText = true ∧ admitted (halfBroken 0x08100002) = true := by decide
/-- A master in the middle of its use is not joined by another, not even at STATUS; but an access the
block does not decode joins nothing (20_memory R60). -/
theorem test_lock_exclusive :
    admitted [.acquire 1, .access 1 (.write 0x028 4 5 0), .access 2 (.read 0x00C 4), .release 1] = false ∧
    admitted [.access 1 (.write 0x028 4 5 0), .access 2 (.read 0x1000 4)] = true := by decide
/-- Programs of two masters that come one after the other. -/
theorem test_lock_parts :
    ((nextOf (State.reset.load [.access 1 (.write 0x028 4 5 0)])).bind
      (fun t => nextOf (t.load [.access 2 (.write 0x028 4 6 0)]))) = none := by decide

/-- MastersWithoutTheLockAreRefused: a program with no lock, and a program of one master. -/
theorem test_witness_no_lock :
    MasterOp.access 1 (.write 0x028 4 5 0) ∈ lockMissing ∧ MasterOp.access 2 (.write 0x010 4 0 0) ∈ lockMissing ∧
    usesBlock Config.params (.write 0x028 4 5 0) = true ∧ usesBlock Config.params (.write 0x010 4 0 0) = true ∧
    accessLoc Config.params (.write 0x028 4 5 0) = some .valLo ∧
    (lockMissing.all (fun e => match e with | .acquire _ => false | _ => true)) = true ∧
    ∀ k op, MasterOp.access k op ∈ [MasterOp.access 1 (.write 0x028 4 5 0), .access 2 (.read 0x1000 4)] →
      usesBlock Config.params op = true → k = 1 := by
  refine ⟨by decide, by decide, by decide, by decide, by decide, by decide, fun k op h hu => ?_⟩
  simp at h
  rcases h with ⟨rfl, -⟩ | ⟨-, rfl⟩
  · rfl
  · exact absurd hu (by decide)

theorem lockKept_loads : ∃ t, State.reset.load lockKept = .next t := by
  rcases load_cases State.reset lockKept with ⟨-, h⟩ | ⟨h, -⟩
  · exact ⟨_, h⟩
  · exact absurd h (by decide)

/-- LoadingInPartsIsLoadingAtOnce: a part that is admitted and one that is refused. -/
theorem test_witness_parts : (∃ t, State.reset.load lockKept = .next t) ∧
    State.reset.load lockMissing = .refused .mastersWithoutLock := by
  refine ⟨lockKept_loads, ?_⟩
  rcases load_cases State.reset lockMissing with ⟨h, -⟩ | ⟨-, h⟩
  · exact absurd h (by decide)
  · exact h

/-- AdmittedMastersHoldTheLock: the read of PCK_RES, and the entries after `acquire 1`. -/
theorem test_witness_lock : (∃ t, State.reset.load lockKept = .next t) ∧
    severalMasters Config.params (State.reset.loaded ++ lockKept) = true ∧
    State.reset.loaded ++ lockKept = lockKept.take 4 ++ .access 1 (.read 0x024 4) :: lockKept.drop 5 ∧
    accessLoc Config.params (.read 0x024 4) = some .pckRes ∧
    State.reset.loaded ++ lockKept = [] ++ .acquire 1 :: (lockKept.take 5).tail ++ lockKept.drop 5 ∧
    MasterOp.release 1 ∉ (lockKept.take 5).tail :=
  ⟨lockKept_loads, by decide, by decide, by decide, by decide, by decide⟩

/-- TheLockLastsFromOperandToResult: the byte of VAL that a PACK of 8 bits takes, all premises
together. -/
theorem test_witness_use : (∃ t, State.reset.load lockKept = .next t) ∧
    severalMasters Config.params (State.reset.loaded ++ lockKept) = true ∧
    State.reset.loaded ++ lockKept = [.acquire 1] ++ .access 1 (.write 0x028 4 5 0) :: [] ++
      .access 1 (.write 0x008 4 0x08100002 3) :: lockKept.drop 3 ∧
    (∃ w, LockWalk.start.run Config.params ([.acquire 1] ++ .access 1 (.write 0x028 4 5 0) :: []) = some w ∧
      { off := 0x028, role := .operand } ∈ takes Config.params w (.write 0x008 4 0x08100002 3)) ∧
    ({ off := 0x028, role := .operand } : SharedByte) ∈ puts Config.params (.write 0x028 4 5 0) ∧
    (Role.operand = .operand ∨ Role.operand = .result) :=
  ⟨lockKept_loads, by decide, by decide, ⟨_, rfl, by decide⟩, by decide, .inl rfl⟩

/-- A walk in which TLEN is 4, and one in which the holder has rendered 17 characters. -/
def walkLen : LockWalk := { LockWalk.start with len := some 4 }
def walkRendered : LockWalk := { LockWalk.start with rendered := some 17 }

/-- TheLockLastsFromOperandToResult: the other kinds of use, each at the ends of its bytes: TEXT, TLEN,
RID and VAL as operands, and the results of PARSE, PACK and RENDER. -/
theorem test_witness_uses :
    ({ off := 0x103, role := .operand } : SharedByte) ∈ puts Config.params (.write 0x100 4 0 0) ∧
    { off := 0x103, role := .operand } ∈ takes Config.params walkLen (.write 0x008 4 0x1 0) ∧
    { off := 0x104, role := .operand } ∉ takes Config.params walkLen (.write 0x008 4 0x1 0) ∧
    { off := 0x010, role := .operand } ∈ takes Config.params walkLen (.write 0x008 4 0x1 0) ∧
    { off := 0x032, role := .operand } ∈ takes Config.params walkLen (.write 0x008 4 0x04000003 0) ∧
    { off := 0x033, role := .operand } ∉ takes Config.params walkLen (.write 0x008 4 0x04000003 0) ∧
    { off := 0x028, role := .operand } ∈ takes Config.params walkLen (.write 0x008 4 0x08100002 0) ∧
    { off := 0x029, role := .operand } ∉ takes Config.params walkLen (.write 0x008 4 0x08100002 0) ∧
    ({ off := 0x23F, role := .result } : SharedByte) ∈ puts Config.params (.write 0x008 4 0x1 0) ∧
    { off := 0x23F, role := .result } ∈ takes Config.params walkLen (.read 0x23C 4) ∧
    ({ off := 0x024, role := .result } : SharedByte) ∈ puts Config.params (.write 0x008 4 0x08100002 0) ∧
    { off := 0x024, role := .result } ∈ takes Config.params walkLen (.read 0x024 4) ∧
    ({ off := 0x10B, role := .result } : SharedByte) ∈ puts Config.params (.write 0x008 4 0x04000003 0) ∧
    { off := 0x10B, role := .result } ∈ takes Config.params walkLen (.read 0x108 4) ∧
    { off := 0x110, role := .result } ∈ takes Config.params walkRendered (.read 0x110 4) ∧
    { off := 0x111, role := .result } ∉ takes Config.params walkRendered (.read 0x110 4) := by decide

end Sys2Proof.Tests
end

/-!
SUPPORT. A step said once: which command completes, which access takes effect, and what moves with it
(20_memory R72; 44_control R210 to R212). The statements about whole steps are split along these cases.
-/

namespace Sys2Proof.Machine

/-- From `s` to `t` nothing moves but the STATUS bits and the host's side of the bus: every register, the
byte buffers and the running command are as before. -/
def State.RegistersKept (s t : State) : Prop :=
  t = { s with done := t.done, illcmd := t.illcmd, buserr := t.buserr, wbusy := t.wbusy,
               bus := t.bus, reads := t.reads, fresh := t.fresh }

/-- From `s` to `t` an event is recorded: sticky bits may be set, words may go to the host, and nothing
else moves. -/
def State.Notes (s t : State) : Prop :=
  t = { s with illcmd := s.illcmd || t.illcmd, buserr := s.buserr || t.buserr,
               wbusy := s.wbusy || t.wbusy, bus := t.bus, reads := t.reads, fresh := t.fresh }

theorem State.Notes.registersKept {s t : State} (h : s.Notes t) : s.RegistersKept t := by
  unfold State.RegistersKept
  rw [h]

theorem notes_refl (s : State) : s.Notes s := by
  simp [State.Notes]

theorem notes_setIllcmd (s : State) : s.Notes s.setIllcmd := by
  simp [State.Notes, State.setIllcmd]

theorem notes_setBuserr (s : State) : s.Notes s.setBuserr := by
  simp [State.Notes, State.setBuserr]

theorem notes_setWbusy (s : State) : s.Notes s.setWbusy := by
  simp [State.Notes, State.setWbusy]

theorem notes_returnWord (s : State) (w : Word) : s.Notes (State.returnWord (w, s)) := by
  simp [State.Notes, State.returnWord]

theorem notes_requeue (s : State) (op : HostOp) : s.Notes (s.requeue op) := by
  simp [State.Notes, State.requeue]

theorem notes_dequeued (s : State) (rest : List HostOp) : s.Notes (s.dequeued rest) := by
  simp [State.Notes, State.dequeued]

theorem State.Notes.trans {s u t : State} (hu : s.Notes u) (ht : u.Notes t) : s.Notes t := by
  unfold State.Notes at *
  rw [ht, hu]
  simp [Bool.or_assoc]

/-- A read moves no register and clears no bit (20_memory R67, R79). -/
theorem notes_memRead (s : State) (off n : Nat) : s.Notes (State.returnWord (s.memRead off n)) := by
  rcases memRead_cases s off n with ⟨-, h⟩ | ⟨l, -, -, h⟩ | ⟨l, -, -, h⟩ <;> rw [h]
  · exact (notes_setBuserr s).trans (notes_returnWord _ 0)
  · simp [State.Notes, State.returnWord]
  · exact notes_returnWord s _

/-- All that a step from `s` can do. -/
inductive StepEffect (s : State) : State → Prop
  /-- The running command completes, its LAT gone by. -/
  | finish {r t} (hr : s.current = some r) (hl : r.left = 0) (ht : exec r.cmd s = .next t) :
      StepEffect s t
  /-- An idle block runs a command word at once, its LAT 0. -/
  | runAtOnce {addr v rest i t} (hc : s.current = none) (hbus : s.bus = .write addr 4 v 0 :: rest)
      (hw : windowOffset s.params addr = some 0x008) (hd : decode v = .ok i) (hi : i ≠ .srst)
      (ht : exec i (s.dequeued rest) = .next t) : StepEffect s t
  /-- An idle block accepts a command. -/
  | accept {v rest i lat} (hc : s.current = none) (hd : decode v = .ok i) (hi : i ≠ .srst) :
      StepEffect s ((s.dequeued rest).accept i lat)
  /-- An idle block stores a word. -/
  | store {off l v rest} (hc : s.current = none) (hl : validLoc s.params off 4 = some l) :
      StepEffect s ((s.dequeued rest).storeLoc v l)
  /-- The block is reset. -/
  | reset {u rest} (hu : ServesFrom s u) (hr : s.ResetNext) : StepEffect s (u.dequeued rest).softReset
  /-- A write to STATUS clears bits. -/
  | clear {u addr v lat rest} (hu : ServesFrom s u) (hbus : s.bus = .write addr 4 v lat :: rest)
      (hw : windowOffset s.params addr = some 0x00C) : StepEffect s ((u.dequeued rest).clearStatus v)
  /-- An event is recorded, or nothing happens. -/
  | notes {u t} (hu : ServesFrom s u) (ht : u.Notes t) : StepEffect s t

/-- While no command runs, an access is served in the state as it stands. -/
theorem eq_of_servesFrom_idle {s u : State} (hu : ServesFrom s u) (hb : u.busy = false) :
    s.current = none ∧ u = s := by
  rcases hu with h | ⟨r, k, -, -, rfl⟩
  · exact h
  · simp at hb

/-- The dispatch of a word other than SRST's, in the words of the step (44_control R210, R211). -/
theorem stepEffect_of_dispatchWord {s t : State} {addr lat : Nat} {v : Word} {rest : List HostOp}
    (hc : s.current = none) (hbus : s.bus = .write addr 4 v lat :: rest)
    (hw : windowOffset s.params addr = some 0x008) (hv : v ≠ srstWord)
    (h : dispatchWord v lat (s.dequeued rest) = .next t) : StepEffect s t := by
  have hsrst : ∀ {i}, decode v = .ok i → i ≠ .srst := by
    rintro i hd rfl
    exact hv (decode_srst_word v hd)
  rcases dispatchWord_cases v lat (s.dequeued rest) with ⟨-, h'⟩ | ⟨i, hd, rfl, h'⟩ | ⟨i, hd, -, h'⟩
  · cases h'.symm.trans h
    exact .notes (.inl ⟨hc, rfl⟩) ((notes_dequeued s rest).trans (notes_setIllcmd _))
  · exact .runAtOnce hc hbus hw hd (hsrst hd) (h'.symm.trans h)
  · cases h'.symm.trans h
    exact .accept hc hd (hsrst hd)

/-- A host write, in the words of the step (20_memory R68). -/
theorem stepEffect_of_memWrite {s u t : State} {addr n lat off : Nat} {v : Word} {rest : List HostOp}
    (hu : ServesFrom s u) (hbus : s.bus = .write addr n v lat :: rest)
    (hw : windowOffset s.params addr = some off)
    (h : (u.dequeued rest).memWrite off n v lat = .next t) : StepEffect s t := by
  have hq : u.Notes (u.dequeued rest) := notes_dequeued u rest
  have hidle : (u.dequeued rest).busy = false → s.current = none ∧ u = s := eq_of_servesFrom_idle hu
  rcases memWrite_cases (u.dequeued rest) off n v lat with ⟨-, h'⟩ | ⟨l, hl, hcases⟩
  · cases h'.symm.trans h
    exact .notes hu (hq.trans (notes_setBuserr _))
  rcases hcases with ⟨rfl, h'⟩ | ⟨rfl, rfl, h'⟩ | ⟨-, -, -, h'⟩ | ⟨-, -, h'⟩ | ⟨hb, rfl, hv, h'⟩ |
    ⟨hb, -, -, -, h'⟩ <;> have ht := h'.symm.trans h
  · obtain ⟨rfl, rfl⟩ := validLoc_status hl
    cases ht
    exact .clear hu hbus hw
  · obtain ⟨rfl, rfl⟩ := validLoc_cmd hl
    cases ht
    exact .reset hu ⟨_, rest, hbus, .inr ⟨addr, lat, rfl, hw⟩⟩
  · cases ht
    exact .notes hu (hq.trans (notes_setWbusy _))
  · cases ht
    exact .notes hu (hq.trans (notes_setBuserr _))
  · obtain ⟨rfl, rfl⟩ := validLoc_cmd hl
    obtain ⟨hc, rfl⟩ := hidle hb
    exact stepEffect_of_dispatchWord hc hbus hw hv ht
  · obtain ⟨hc, rfl⟩ := hidle hb
    obtain ⟨rfl, -, -⟩ := validLoc_inv hl
    cases ht
    exact .store hc hl

/-- The service of an access, in the words of the step (20_memory R72). -/
theorem stepEffect_of_serve {s u t : State} {op : HostOp} {rest : List HostOp} (hu : ServesFrom s u)
    (hbus : s.bus = op :: rest) (h : serve op (u.dequeued rest) = .next t) : StepEffect s t := by
  have hparams : (u.dequeued rest).params = s.params := by
    obtain ⟨-, -, -, hp, -⟩ := servesFrom_frame hu
    exact hp
  have hq : u.Notes (u.dequeued rest) := notes_dequeued u rest
  rcases serve_cases op (u.dequeued rest) with ⟨_, _, -, -, h'⟩ | ⟨_, n, off, -, -, h'⟩ |
    ⟨_, _, _, _, -, -, h'⟩ | ⟨addr, n, v, lat, off, rfl, hw, h'⟩ | ⟨-, -, h'⟩ | ⟨-, -, h'⟩ |
    ⟨rfl, h'⟩ <;> have ht := h'.symm.trans h
  · cases ht
    exact .notes hu hq
  · cases ht
    exact .notes hu (hq.trans (notes_memRead _ off n))
  · cases ht
    exact .notes hu hq
  · exact stepEffect_of_memWrite hu hbus (hparams ▸ hw) ht
  · cases ht
    exact .notes hu (hq.trans ((notes_returnWord _ _).trans (notes_requeue _ .wait)))
  · cases ht
    exact .notes hu (hq.trans (notes_returnWord _ _))
  · cases ht
    exact .reset hu ⟨_, rest, hbus, .inl rfl⟩

/-- Every step has one of these effects. -/
theorem stepEffect_of_step {s t : State} (h : step s = .next t) : StepEffect s t := by
  rcases step_cases h with ⟨r, hr, hl, ht⟩ | ⟨u, hu, ⟨-, rfl⟩ | ⟨op, rest, hbus, hs⟩⟩
  · exact .finish hr hl ht
  · exact .notes hu (notes_refl _)
  · exact stepEffect_of_serve hu hbus hs

end Sys2Proof.Machine

/-!
SUPPORT. How large the frame of an accepted text is (43_parser R172), and what the writes of a result
leave in FRM_DATA.
-/

namespace Sys2Proof.Machine

/-- The bounds on an accepted frame that 43_parser R172 and R186 give: the bytes assigned are within the
length, and length and flags are those its kind can carry. -/
def Frame.Bounded (k : FrameKind) (f : Frame) : Prop :=
  f.data.length ≤ f.len ∧
    match k with
    | .classic => f.len ≤ Config.classicMax ∧ f.flags = 0
    | .fd => f.len ≤ Config.fdMax ∧ f.flags ≤ 15

/-- The payload loop reads at most `left` more bytes (43_parser R182). -/
theorem parsePairs_length_le (t : List Byte) : ∀ (left idx : Nat) (data data' : List Byte),
    parsePairs t left idx data = .ok data' → data'.length ≤ data.length + left
  | 0, idx, data, data', h => by cases h; simp
  | left + 1, idx, data, data', h => by
      simp only [parsePairs] at h
      split at h
      · cases h; omega
      · split at h
        · cases h
        · split at h
          · cases h
          · have := parsePairs_length_le t left _ _ _ h
            simp only [List.length_append, List.length_singleton] at this
            omega

/-- An accepted payload is a frame of the kind asked for, its length the bytes read. -/
theorem parsePayload_accept {t : List Byte} {id : Word} {flags maxlen idx : Nat} {kind k : FrameKind}
    {f : Frame} (h : parsePayload t id flags maxlen kind idx = .accept k f) :
    k = kind ∧ f.flags = flags ∧ f.data.length = f.len ∧ f.len ≤ maxlen := by
  unfold parsePayload at h
  split at h
  · next data hd =>
    cases h
    have hlen := parsePairs_length_le t maxlen idx [] data hd
    exact ⟨rfl, rfl, rfl, by simpa using hlen⟩
  · cases h

/-- The length a remote frame asks for fits a classic frame (43_parser R179). -/
theorem remoteLength_le (d : Nat) : (if d ≤ Config.rtrMax then d else 0) ≤ Config.classicMax := by
  split
  · assumption
  · exact Nat.zero_le _

/-- What the selector accepts is bounded by the kind it selects (43_parser R178 to R180). -/
theorem parseSelector_bounded {t : List Byte} {id : Word} {idx : Nat} {k : FrameKind} {f : Frame}
    (h : parseSelector t id idx = .accept k f) : f.Bounded k := by
  unfold parseSelector at h
  split at h
  · unfold parseRemote at h
    cases h
    exact ⟨Nat.zero_le _, remoteLength_le _, rfl⟩
  · split at h
    · unfold parseFd at h
      simp only at h
      split at h
      · cases h
      · next hd =>
        obtain ⟨rfl, hflags, hdata, hlen⟩ := parsePayload_accept h
        exact ⟨hdata.le, hlen, by omega⟩
    · obtain ⟨rfl, hflags, hdata, hlen⟩ := parsePayload_accept h
      exact ⟨hdata.le, hlen, hflags⟩

/-- Every frame PARSE accepts is bounded by its kind (43_parser R172). -/
theorem parseText_bounded {t : List Byte} {k : FrameKind} {f : Frame}
    (h : parseText t = .accept k f) : f.Bounded k := by
  have hfrom : ∀ n idx, parseFrom t n idx = .accept k f → f.Bounded k := by
    intro n idx h
    unfold parseFrom at h
    split at h
    · exact parseSelector_bounded h
    · cases h
  unfold parseText at h
  split at h
  · cases h
  · split at h
    · exact hfrom 3 4 h
    · split at h
      · exact hfrom 8 9 h
      · cases h

@[simp] theorem frameBytes_length (data : List Byte) : (frameBytes data).length = 64 := by
  simp [frameBytes]

/-- FRM_DATA past the bytes assigned is zero (43_parser R172). -/
theorem frmByte_frameBytes (s : State) (data : List Byte) (hw : s.mem.wf = true) {j : Nat} (hj : j < 64)
    (hd : data.length ≤ j) :
    State.frmByte { s with mem := s.mem.writeBytes frmBase (frameBytes data) } j = 0 := by
  rw [frmByte_writeBytes s _ hw j (by simpa using hj)]
  simp [frameBytes, hj, hd]

end Sys2Proof.Machine

/-!
SUPPORT. The invariants of the state, operation by operation (10_state R27, R29, R34 to R42, R44;
20_memory R73), and the step lemma they add up to.
-/

namespace Sys2Proof.Machine

/-! ### The parts -/

theorem runningOk_of_idle {s : State} (h : s.current = none) : s.RunningOk := by
  intro r hr
  simp [h] at hr

theorem hiddenOk_of_idle {s : State} (h : s.current = none) : s.HiddenOk := by
  intro r hr
  simp [h] at hr

/-- A run of bytes written inside the buffers keeps the memory's form (20_memory R63). -/
theorem memoryOk_writeBytes {s : State} (h : s.MemoryOk) {x : Nat} {vs : List Byte}
    (hx : ∀ y, x ≤ y → y < x + vs.length → inBuffers y) :
    State.MemoryOk { s with mem := s.mem.writeBytes x vs } := by
  obtain ⟨hwf, hin⟩ := h
  refine ⟨Memory.wf_writeBytes vs x hwf, fun c hc => ?_⟩
  rcases Memory.mem_writeBytes vs x hc with hc | ⟨hlo, hhi⟩
  · exact hin c hc
  · exact hx c.1 hlo hhi

/-- Bytes written below FRM_DATA leave FRM_DATA alone. -/
theorem frmByte_writeBytes_below (s : State) {x : Nat} {vs : List Byte} (hx : x + vs.length ≤ frmBase)
    (j : Nat) : State.frmByte { s with mem := s.mem.writeBytes x vs } j = s.frmByte j :=
  Memory.read_writeBytes_of_out vs x s.mem (.inr (by omega))

/-- One more cycle of the engine. -/
theorem Work.after_succ (t : List Byte) (i : Instr) : ∀ (k : Nat) (w : Work),
    Work.after t i (k + 1) w = (Work.after t i k w).advance t i
  | 0, _ => rfl
  | k + 1, w => Work.after_succ t i k (w.advance t i)

/-! ### Writes on an idle block -/

/-- Writing RID or TEXT bytes on an idle block. -/
theorem State.Inv.writeBytes {s : State} (h : s.Inv) (hc : s.current = none) {x : Nat} {vs : List Byte}
    (hin : ∀ y, x ≤ y → y < x + vs.length → inBuffers y) (hx : x + vs.length ≤ frmBase) :
    State.Inv { s with mem := s.mem.writeBytes x vs } :=
  { h with
    memory := memoryOk_writeBytes h.memory hin
    tail := fun j hlo hhi => (frmByte_writeBytes_below s hx j).trans (h.tail j hlo hhi)
    running := runningOk_of_idle hc
    hidden := hiddenOk_of_idle hc }

/-- Writing a word of RID or TEXT on an idle block. -/
theorem State.Inv.writeWord {s : State} (h : s.Inv) (hc : s.current = none) {x : Nat} (v : Word)
    (hin : ∀ y, x ≤ y → y < x + 4 → inBuffers y) (hx : x + 4 ≤ frmBase) :
    State.Inv { s with mem := s.mem.writeWord x v } :=
  h.writeBytes hc hin hx

/-- Writing a legal TLEN on an idle block (10_state R29). -/
theorem State.Inv.setTlen {s : State} (h : s.Inv) (hc : s.current = none) {n : BitVec 9}
    (hn : n.toNat ≤ 256) : State.Inv { s with tlen := n } :=
  { h with
    tlen := hn
    running := runningOk_of_idle hc
    hidden := hiddenOk_of_idle hc }

/-- Writing VAL on an idle block. -/
theorem State.Inv.setVal {s : State} (h : s.Inv) (hc : s.current = none) (v : Dword) :
    State.Inv { s with val := v } :=
  { h with
    running := runningOk_of_idle hc
    hidden := hiddenOk_of_idle hc }

/-- Writing a mapped accumulator on an idle block (10_state R42). -/
theorem State.Inv.setAcc {s : State} (h : s.Inv) (hc : s.current = none) {k : Nat} (v : Dword)
    (hk : k < s.params.nacc) : (s.setAcc k v).Inv :=
  { h with
    acc := fun j hj => by
      have hj : s.params.nacc ≤ j := hj
      rw [accAt_setAcc_of_ne s v (by omega)]
      exact h.acc j hj
    running := runningOk_of_idle hc
    hidden := hiddenOk_of_idle hc }

/-- Writing one of the allowed PCK_RES on an idle block (10_state R41). -/
theorem State.Inv.setPck {s : State} (h : s.Inv) (hc : s.current = none) (c : PckCode) {op : BitVec 2}
    (hop : op = lastopPack ∨ op = lastopRender) :
    State.Inv { s with code := c.value, lastop := op } :=
  have hval : op.toNat ≤ 2 ∧ op ≠ 0 := by rcases hop with rfl | rfl <;> decide
  { h with
    pck := ⟨c.value_le, hval.1, fun h0 => absurd h0 hval.2⟩
    running := runningOk_of_idle hc
    hidden := hiddenOk_of_idle hc }

/-- TLEN as a host writes it is legal (10_state R29). -/
theorem saturateTlen_le (v : Word) : (saturateTlen v).toNat ≤ 256 := by
  simp only [saturateTlen, Config.textSize, BitVec.toNat_ofNat]
  omega

/-- A word stored on an idle block (20_memory R68 steps 7 and 8). -/
theorem State.Inv.storeLoc {s : State} (h : s.Inv) (hc : s.current = none) {off : Nat} {l : Loc}
    (hl : validLoc s.params off 4 = some l) (v : Word) : (s.storeLoc v l).Inv := by
  obtain ⟨-, -, hloc⟩ := validLoc_inv hl
  rcases locate_inv hloc with hn | ⟨w, hw, rfl⟩ | ⟨w, -, rfl⟩ | ⟨k, hk, rfl | rfl⟩
  · cases l with
    | tlen => exact h.setTlen hc (saturateTlen_le v)
    | valLo => exact h.setVal hc _
    | valHi => exact h.setVal hc _
    | ridLo => exact h.writeWord hc v (fun y hlo hhi => .inl (by unfold ridBase at *; omega)) (by decide)
    | ridHi => exact h.writeWord hc v (fun y hlo hhi => .inl (by unfold ridBase at *; omega)) (by decide)
    | id | param | cmd | status | prsRes | frmId | frmLen | frmFlags | pckRes => exact h
    | text | frmData | accLo | accHi => simp [namedLocs] at hn
  · exact h.writeWord hc v (fun y hlo hhi => .inr (.inl (by unfold textBase at *; omega)))
      (by unfold textBase frmBase; omega)
  · exact h
  · exact h.setAcc hc _ hk
  · exact h.setAcc hc _ hk

/-! ### Completion of a command -/

/-- The completion of a command with no writes of its own (44_control R212, R213). -/
theorem State.Inv.complete {s : State} (h : s.Inv) : s.complete.Inv :=
  { h with
    running := runningOk_of_idle rfl
    hidden := hiddenOk_of_idle rfl }

/-! The writes of a command may as well be made after BUSY <- 0. -/

theorem finishPck_eq (s : State) (c : PckCode) (op : BitVec 2) :
    s.finishPck c op = { s.complete with code := c.value, lastop := op } := rfl

theorem complete_setAcc (s : State) (k : Nat) (v : Dword) :
    (s.setAcc k v).complete = s.complete.setAcc k v := rfl

theorem complete_putText (s : State) (txt : List Byte) :
    (s.putText txt).complete = s.complete.putText txt := rfl

theorem complete_commitParse (s : State) (p : ParseResult) :
    (s.commitParse p).complete = s.complete.commitParse p := by
  cases p <;> simp only [State.commitParse, State.complete]

/-- PACK (41_packer R132, R133). -/
theorem inv_of_execPack {s t : State} {slot pos size dlc : Nat} (h : s.Inv)
    (ht : execPack slot pos size dlc s = .next t) : t.Inv := by
  rcases execPack_cases slot pos size dlc s with ⟨hok, h'⟩ | ⟨-, h'⟩ <;> cases h'.symm.trans ht
  · obtain ⟨hslot, -⟩ := (packCheck_ok_iff s.params.nacc slot pos size dlc).1 hok
    rw [finishPck_eq, complete_setAcc]
    exact (h.complete.setAcc rfl _ hslot).setPck rfl .ok (.inl rfl)
  · exact h.complete.setPck rfl _ (.inl rfl)

/-- The longest text a RENDER writes (42_render R152). -/
theorem renderText_length_le (s : State) {nacc slot dlc : Nat} (idl : IdLen)
    (hok : renderCheck nacc slot dlc = .ok) : (renderText s slot dlc idl).length ≤ 137 := by
  obtain ⟨-, hdlc⟩ := (renderCheck_ok_iff nacc slot dlc).1 hok
  have hdlc := le_of_canon hdlc
  rw [renderText_length]
  cases idl <;> simp only [IdLen.chars] <;> omega

/-- The text of a RENDER on an idle block (42_render R152). -/
theorem State.Inv.putText {s : State} (h : s.Inv) (hc : s.current = none) {txt : List Byte}
    (hlen : txt.length ≤ 256) : (s.putText txt).Inv := by
  have hmem : State.Inv { s with mem := s.mem.writeBytes textBase txt } :=
    h.writeBytes hc (fun y hlo hhi => .inr (.inl (by unfold textBase at *; omega)))
      (by unfold textBase frmBase; omega)
  refine hmem.setTlen hc ?_
  rw [BitVec.toNat_ofNat]
  omega

/-- RENDER (42_render R151 to R153). -/
theorem inv_of_execRender {s t : State} {slot dlc : Nat} {idl : IdLen} (h : s.Inv)
    (ht : execRender slot dlc idl s = .next t) : t.Inv := by
  rcases execRender_cases slot dlc idl s with ⟨hok, h'⟩ | ⟨-, h'⟩ <;> cases h'.symm.trans ht
  · have hlen := renderText_length_le s idl hok
    rw [finishPck_eq, complete_putText]
    exact (h.complete.putText rfl (by omega)).setPck rfl .ok (.inr rfl)
  · exact h.complete.setPck rfl _ (.inr rfl)

theorem Reason.value_le (r : Reason) : r.value.toNat ≤ 5 := by cases r <;> decide

/-- The registers of an accepted frame (10_state R34 to R39). -/
theorem resultOk_commitParse_accept (s : State) {k : FrameKind} {f : Frame} (hf : f.Bounded k) :
    (s.commitParse (.accept k f)).ResultOk := by
  obtain ⟨-, hk⟩ := hf
  cases k with
  | classic =>
      obtain ⟨hlen, hflags⟩ := hk
      have hlen : f.len ≤ 8 := hlen
      refine .inr (.inl ⟨rfl, rfl, rfl, ?_, ?_⟩)
      · simp; omega
      · simp [hflags]
  | fd =>
      obtain ⟨hlen, hflags⟩ := hk
      have hlen : f.len ≤ 64 := hlen
      refine .inr (.inr ⟨rfl, rfl, rfl, ?_, ?_⟩) <;> simp <;> omega

/-- The writes of a PARSE on an idle block (43_parser R172, R186). -/
theorem State.Inv.commitParse {s : State} (h : s.Inv) (hc : s.current = none) {p : ParseResult}
    (hp : ∀ k f, p = .accept k f → f.Bounded k) : (s.commitParse p).Inv := by
  have hmem : ∀ data, State.MemoryOk { s with mem := s.mem.writeBytes frmBase (frameBytes data) } :=
    fun data => memoryOk_writeBytes h.memory fun y hlo hhi => .inr (.inr (by
      rw [frameBytes_length] at hhi
      unfold frmBase at *
      omega))
  obtain ⟨hwf, -⟩ := h.memory
  cases p with
  | accept k f =>
      have hf := hp k f rfl
      have hlen : f.data.length ≤ f.len ∧ f.len ≤ 64 := by
        obtain ⟨hdata, hk⟩ := hf
        cases k with
        | classic => exact ⟨hdata, hk.1.trans (by decide)⟩
        | fd => exact ⟨hdata, hk.1⟩
      exact
        { h with
          memory := hmem f.data
          result := resultOk_commitParse_accept s hf
          tail := fun j hlo hhi => frmByte_frameBytes s f.data hwf hhi (by
            simp only [commitParse_accept_frmLen, BitVec.toNat_ofNat] at hlo
            omega)
          running := runningOk_of_idle hc
          hidden := hiddenOk_of_idle hc }
  | reject r =>
      exact
        { h with
          memory := hmem []
          result := .inl ⟨rfl, r.value_le, rfl, rfl, rfl, rfl⟩
          tail := fun j _ hhi => frmByte_frameBytes s [] hwf hhi (Nat.zero_le j)
          running := runningOk_of_idle hc
          hidden := hiddenOk_of_idle hc }

/-! ### Reset, acceptance, and the cycles of a running command -/

/-- The invariants hold after a reset (70_reset_and_hazards R261). -/
theorem inv_resetWith {p : Params} (hp : paramsOk p) : (State.resetWith p).Inv where
  params := hp
  memory := ⟨rfl, fun _ hc => absurd hc List.not_mem_nil⟩
  tlen := Nat.zero_le _
  result := .inl ⟨rfl, Nat.zero_le _, rfl, rfl, rfl, rfl⟩
  tail := fun _ _ _ => rfl
  pck := ⟨Nat.zero_le _, Nat.zero_le _, fun _ => rfl⟩
  acc := fun k _ => accAt_resetWith p k
  running := runningOk_of_idle rfl
  hidden := hiddenOk_of_idle rfl

/-- The STATUS bits and the host's side bear on no invariant, but that DONE is 0 while a command runs. -/
theorem State.Inv.of_registersKept {s t : State} (h : s.Inv) (ht : s.RegistersKept t)
    (hdone : t.done = true → s.done = true) : t.Inv := by
  have hrun : ∀ r, s.current = some r → r.cmd.wf = true ∧ r.cmd ≠ .srst ∧ t.done = false := by
    intro r hr
    obtain ⟨hwf, hsrst, hd⟩ := h.running r hr
    exact ⟨hwf, hsrst, Bool.eq_false_iff.2 fun hd' => by simp [hdone hd'] at hd⟩
  rw [ht]
  exact { h with running := hrun }

/-- A recorded event bears on no invariant. -/
theorem State.Inv.of_notes {s t : State} (h : s.Inv) (ht : s.Notes t) : t.Inv :=
  h.of_registersKept ht.registersKept fun hd => by
    rw [ht] at hd
    exact hd

theorem State.Inv.dequeued {s : State} (h : s.Inv) (rest : List HostOp) : (s.dequeued rest).Inv :=
  h.of_notes (notes_dequeued s rest)

theorem State.Inv.softReset {s : State} (h : s.Inv) : s.softReset.Inv :=
  { inv_resetWith h.params with params := h.params }

/-- A write to STATUS (10_state R25). -/
theorem State.Inv.clearStatus {s : State} (h : s.Inv) (v : Word) : (s.clearStatus v).Inv :=
  h.of_registersKept rfl fun hd => by
    rw [clearStatus_done, Bool.and_eq_true] at hd
    exact hd.1

/-- The acceptance of a command: its hidden values are those it starts with (44_control R210). -/
theorem State.Inv.accept {s : State} (h : s.Inv) {i : Instr} (hwf : i.wf = true) (hi : i ≠ .srst)
    (lat : Nat) : (s.accept i lat).Inv :=
  { h with
    running := by
      rintro r hr
      cases hr
      exact ⟨hwf, hi, rfl⟩
    hidden := by
      rintro r hr
      cases hr
      exact ⟨0, rfl⟩ }

/-- A cycle of a running command: its hidden values are those of one cycle more (20_memory R73). -/
theorem State.Inv.cycle {s : State} (h : s.Inv) {r : Running} (hr : s.current = some r) (left : Nat) :
    (s.cycle r left).Inv :=
  { h with
    running := by
      rintro r' hr'
      cases hr'
      exact h.running r hr
    hidden := by
      rintro r' hr'
      cases hr'
      obtain ⟨k, hk⟩ := h.hidden r hr
      refine ⟨k + 1, ?_⟩
      rw [Work.after_succ]
      exact congrArg (Work.advance s.effText r.cmd) hk }

theorem State.Inv.servesFrom {s u : State} (h : s.Inv) (hu : ServesFrom s u) : u.Inv := by
  rcases hu with ⟨-, rfl⟩ | ⟨r, k, hr, -, rfl⟩
  · exact h
  · exact h.cycle hr k

/-! ### Every step -/

/-- The completion of a command keeps the invariants (44_control R212). -/
theorem inv_of_exec {i : Instr} {s t : State} (h : s.Inv) (ht : exec i s = .next t) : t.Inv := by
  cases i with
  | nop =>
      cases ht
      exact h.complete
  | parse =>
      cases ht
      rw [complete_commitParse]
      exact h.complete.commitParse rfl fun _ _ => parseText_bounded
  | pack slot pos size dlc => exact inv_of_execPack h ht
  | render slot dlc idl => exact inv_of_execRender h ht
  | srst =>
      cases ht
      exact h.softReset

/-- Settles O45, effect by effect: a completion, an acceptance, a store, a reset, a STATUS write, or a
recorded event. -/
theorem everyStepKeepsTheInvariants : Obligations.EveryStepKeepsTheInvariants := by
  unfold Obligations.EveryStepKeepsTheInvariants
  intro s t h hstep
  cases stepEffect_of_step hstep with
  | finish _ _ ht => exact inv_of_exec h ht
  | runAtOnce _ _ _ _ _ ht => exact inv_of_exec (h.dequeued _) ht
  | accept _ hd hi => exact (h.dequeued _).accept (wf_of_decode _ _ hd) hi _
  | @store _ _ v rest hc hl => exact (h.dequeued rest).storeLoc hc hl v
  | reset hu _ => exact ((h.servesFrom hu).dequeued _).softReset
  | clear hu _ _ => exact ((h.servesFrom hu).dequeued _).clearStatus _
  | notes hu ht => exact (h.servesFrom hu).of_notes ht

end Sys2Proof.Machine

/-!
SUPPORT. The statements about single registers over a step: STATUS (10_state R25, R28), the result
registers (R33, R40, R41), and the identity registers (R22, R23).
-/

namespace Sys2Proof.Machine

/-! ### STATUS and its write (10_state R25) -/

/-- The bits of STATUS by their numbers (10_state R25). -/
def State.statusBit (s : State) : Nat → Bool
  | 0 => s.busy
  | 1 => s.done
  | 2 => s.illcmd
  | 3 => s.buserr
  | 4 => s.wbusy
  | _ => false

theorem statusWord_getLsbD (s : State) (b : Nat) : s.statusWord.getLsbD b = s.statusBit b := by
  simp only [State.statusWord, BitVec.getLsbD_append]
  match b with
  | 0 | 1 | 2 | 3 | 4 => simp [State.statusBit]
  | b + 5 => simp [State.statusBit]

theorem clearStatus_statusBit (s : State) (v : Word) (b : Nat) :
    (s.clearStatus v).statusBit b =
      (s.statusBit b && !(decide (1 ≤ b ∧ b ≤ 4) && v.getLsbD b)) := by
  match b with
  | 0 | 1 | 2 | 3 | 4 => simp [State.statusBit]
  | b + 5 => simp [State.statusBit]

/-- A write to STATUS is always accepted (10_state R25). -/
theorem memWrite_status (s : State) (v : Word) (lat : Nat) :
    s.memWrite 0x00C 4 v lat = .next (s.clearStatus v) := by
  have hv : validLoc s.params 0x00C 4 = some .status := rfl
  simp [State.memWrite, hv]

/-- Settles O11, by the bits of STATUS before and after the write. -/
theorem statusWriteClearsWrittenOnes : Obligations.StatusWriteClearsWrittenOnes := by
  unfold Obligations.StatusWriteClearsWrittenOnes
  refine ⟨by decide, fun s => ?_, fun s v lat => ?_⟩
  · simp only [statusWord_getLsbD]
    refine ⟨rfl, rfl, rfl, rfl, rfl, fun b hb => ?_⟩
    obtain ⟨b, rfl⟩ := Nat.exists_eq_add_of_le' hb
    rfl
  · refine ⟨s.clearStatus v, memWrite_status s v lat, rfl, fun b => ?_⟩
    rw [statusWord_getLsbD, statusWord_getLsbD, clearStatus_statusBit]

/-! ### Sticky bits (10_state R28) -/

/-- From `s` to `t` no sticky bit is cleared. -/
structure State.StickyKept (s t : State) : Prop where
  illcmd : s.illcmd = true → t.illcmd = true
  buserr : s.buserr = true → t.buserr = true
  wbusy  : s.wbusy = true → t.wbusy = true

theorem stickyKept_of_eq {s t : State}
    (h : t.illcmd = s.illcmd ∧ t.buserr = s.buserr ∧ t.wbusy = s.wbusy) : s.StickyKept t := by
  obtain ⟨hi, hb, hw⟩ := h
  exact ⟨hi.trans, hb.trans, hw.trans⟩

theorem State.Notes.stickyKept {s t : State} (h : s.Notes t) : s.StickyKept t := by
  rw [h]
  exact ⟨fun hs => by simp [hs], fun hs => by simp [hs], fun hs => by simp [hs]⟩

theorem State.StickyKept.trans {s u t : State} (hu : s.StickyKept u) (ht : u.StickyKept t) :
    s.StickyKept t :=
  ⟨ht.illcmd ∘ hu.illcmd, ht.buserr ∘ hu.buserr, ht.wbusy ∘ hu.wbusy⟩

/-- A step keeps the sticky bits, or is a reset, or is a STATUS write that clears the bits written 1. -/
theorem stepEffect_sticky {s t : State} (hrun : s.RunningOk) (h : StepEffect s t) :
    s.StickyKept t ∨ s.ResetNext ∨
      ∃ addr v lat rest, s.bus = .write addr 4 v lat :: rest ∧
        windowOffset s.params addr = some 0x00C ∧ t.illcmd = (s.illcmd && !v.getLsbD 2) ∧
        t.buserr = (s.buserr && !v.getLsbD 3) ∧ t.wbusy = (s.wbusy && !v.getLsbD 4) := by
  cases h with
  | @finish r _ hr _ ht =>
      obtain ⟨-, hsrst, -⟩ := hrun r hr
      exact .inl (stickyKept_of_eq (exec_sticky ht hsrst))
  | runAtOnce _ _ _ _ hi ht => exact .inl (stickyKept_of_eq (exec_sticky ht hi :))
  | accept => exact .inl (stickyKept_of_eq ⟨rfl, rfl, rfl⟩)
  | @store _ l v rest _ _ =>
      obtain ⟨-, hi, hb, hw, -⟩ := storeLoc_frame (s.dequeued rest) v l
      exact .inl (stickyKept_of_eq ⟨hi, hb, hw⟩)
  | reset _ hr => exact .inr (.inl hr)
  | @clear u addr v lat rest hu hbus hw =>
      obtain ⟨hi, hb, hy, -⟩ := servesFrom_frame hu
      refine .inr (.inr ⟨addr, v, lat, rest, hbus, hw, ?_⟩)
      rw [← hi, ← hb, ← hy]
      exact ⟨rfl, rfl, rfl⟩
  | notes hu ht =>
      obtain ⟨hi, hb, hw, -⟩ := servesFrom_frame hu
      exact .inl ((stickyKept_of_eq ⟨hi, hb, hw⟩).trans ht.stickyKept)

/-- A bit that a written word has cleared was written 1. -/
theorem written_one_of_cleared {a b w : Bool} (h : b = (a && !w)) (ha : a = true) (hb : b = false) :
    w = true := by
  simpa [ha, hb] using h

/-- Settles O47, from what a step can do to the sticky bits. -/
theorem stickyBitsAreClearedOnlyByTheHost : Obligations.StickyBitsAreClearedOnlyByTheHost := by
  unfold Obligations.StickyBitsAreClearedOnlyByTheHost
  intro s t hrun hstep
  rcases stepEffect_sticky hrun (stepEffect_of_step hstep) with
    hk | hr | ⟨addr, v, lat, rest, hbus, hw, hi, hb, hy⟩
  · exact ⟨fun hs ht => by simp [hk.illcmd hs] at ht, fun hs ht => by simp [hk.buserr hs] at ht,
      fun hs ht => by simp [hk.wbusy hs] at ht⟩
  · exact ⟨fun _ _ => .inr hr, fun _ _ => .inr hr, fun _ _ => .inr hr⟩
  · have hclear : ∀ b, v.getLsbD b = true → s.ClearNext b :=
      fun b hv => ⟨addr, v, lat, rest, hbus, hw, hv⟩
    exact ⟨fun hs ht => .inl (hclear 2 (written_one_of_cleared hi hs ht)),
      fun hs ht => .inl (hclear 3 (written_one_of_cleared hb hs ht)),
      fun hs ht => .inl (hclear 4 (written_one_of_cleared hy hs ht))⟩

/-! ### Result registers (10_state R33, R40, R41) -/

/-- From `s` to `t` the parse registers stay as they are. -/
structure State.ParseKept (s t : State) : Prop where
  kind     : t.kind = s.kind
  reason   : t.reason = s.reason
  mtu      : t.mtu = s.mtu
  frmId    : t.frmId = s.frmId
  frmLen   : t.frmLen = s.frmLen
  frmFlags : t.frmFlags = s.frmFlags
  frmData  : ∀ j, t.frmByte j = s.frmByte j

/-- From `s` to `t` PCK_RES stays as it is. -/
structure State.PckKept (s t : State) : Prop where
  code   : t.code = s.code
  lastop : t.lastop = s.lastop

theorem State.ParseKept.trans {s u t : State} (hu : s.ParseKept u) (ht : u.ParseKept t) :
    s.ParseKept t where
  kind := ht.kind.trans hu.kind
  reason := ht.reason.trans hu.reason
  mtu := ht.mtu.trans hu.mtu
  frmId := ht.frmId.trans hu.frmId
  frmLen := ht.frmLen.trans hu.frmLen
  frmFlags := ht.frmFlags.trans hu.frmFlags
  frmData := fun j => (ht.frmData j).trans (hu.frmData j)

theorem State.PckKept.trans {s u t : State} (hu : s.PckKept u) (ht : u.PckKept t) : s.PckKept t :=
  ⟨ht.code.trans hu.code, ht.lastop.trans hu.lastop⟩

theorem State.RegistersKept.parseKept {s t : State} (h : s.RegistersKept t) : s.ParseKept t := by
  rw [h]
  exact ⟨rfl, rfl, rfl, rfl, rfl, rfl, fun _ => rfl⟩

theorem State.RegistersKept.pckKept {s t : State} (h : s.RegistersKept t) : s.PckKept t := by
  rw [h]
  exact ⟨rfl, rfl⟩

theorem parseKept_of_servesFrom {s u : State} (h : ServesFrom s u) : s.ParseKept u := by
  rcases h with ⟨-, rfl⟩ | ⟨r, k, -, -, rfl⟩ <;> exact ⟨rfl, rfl, rfl, rfl, rfl, rfl, fun _ => rfl⟩

theorem pckKept_of_servesFrom {s u : State} (h : ServesFrom s u) : s.PckKept u := by
  rcases h with ⟨-, rfl⟩ | ⟨r, k, -, -, rfl⟩ <;> exact ⟨rfl, rfl⟩

/-- A stored word lies in no byte of FRM_DATA, which is read-only (20_memory R63, R68 step 5). -/
theorem storeLoc_frmByte {s : State} {off : Nat} {l : Loc} (hl : validLoc s.params off 4 = some l)
    (v : Word) (j : Nat) : (s.storeLoc v l).frmByte j = s.frmByte j := by
  obtain ⟨-, -, hloc⟩ := validLoc_inv hl
  have hword : ∀ x, x + 4 ≤ frmBase →
      State.frmByte { s with mem := s.mem.writeWord x v } j = s.frmByte j :=
    fun x hx => frmByte_writeBytes_below s hx j
  rcases locate_inv hloc with hn | ⟨w, hw, rfl⟩ | ⟨w, -, rfl⟩ | ⟨k, -, rfl | rfl⟩
  · cases l with
    | ridLo => exact hword ridBase (by decide)
    | ridHi => exact hword (ridBase + 4) (by decide)
    | tlen | valLo | valHi | id | param | cmd | status | prsRes | frmId | frmLen | frmFlags | pckRes => rfl
    | text | frmData | accLo | accHi => simp [namedLocs] at hn
  · exact hword (textBase + 4 * w) (by unfold textBase frmBase; omega)
  · rfl
  · rfl
  · rfl

theorem parseKept_storeLoc {s : State} {off : Nat} {l : Loc} (hl : validLoc s.params off 4 = some l)
    (v : Word) : s.ParseKept (s.storeLoc v l) := by
  obtain ⟨-, -, -, -, hk, hr, hm, hid, hlen, hfl, -⟩ := storeLoc_frame s v l
  exact ⟨hk, hr, hm, hid, hlen, hfl, storeLoc_frmByte hl v⟩

theorem pckKept_storeLoc (s : State) (v : Word) (l : Loc) : s.PckKept (s.storeLoc v l) := by
  obtain ⟨-, -, -, -, -, -, -, -, -, -, hc, ho, -⟩ := storeLoc_frame s v l
  exact ⟨hc, ho⟩

/-- No command but PARSE and SRST touches the parse registers (10_state R33, R40). -/
theorem parseKept_of_exec {i : Instr} {s t : State} (ht : exec i s = .next t) (hp : i ≠ .parse)
    (hi : i ≠ .srst) : s.ParseKept t := by
  cases i with
  | nop => cases ht; exact ⟨rfl, rfl, rfl, rfl, rfl, rfl, fun _ => rfl⟩
  | parse => exact absurd rfl hp
  | pack slot pos size dlc =>
      rcases execPack_cases slot pos size dlc s with ⟨-, h⟩ | ⟨-, h⟩ <;> cases h.symm.trans ht <;>
        exact ⟨rfl, rfl, rfl, rfl, rfl, rfl, fun _ => rfl⟩
  | render slot dlc idl =>
      rcases execRender_cases slot dlc idl s with ⟨hok, h⟩ | ⟨-, h⟩ <;> cases h.symm.trans ht
      · have hlen := renderText_length_le s idl hok
        exact ⟨rfl, rfl, rfl, rfl, rfl, rfl,
          frmByte_writeBytes_below s (by unfold textBase frmBase; omega)⟩
      · exact ⟨rfl, rfl, rfl, rfl, rfl, rfl, fun _ => rfl⟩
  | srst => exact absurd rfl hi

/-- NOP and PARSE do not touch PCK_RES (10_state R41). -/
theorem pckKept_of_exec {i : Instr} {s t : State} (ht : exec i s = .next t)
    (hi : i = .nop ∨ i = .parse) : s.PckKept t := by
  rcases hi with rfl | rfl <;> cases ht
  · exact ⟨rfl, rfl⟩
  · exact ⟨commitParse_code _ _, commitParse_lastop _ _⟩

/-- A step keeps the result registers, or is a reset, or completes a command which finds them as they
stand. -/
theorem stepEffect_results {s t : State} (h : StepEffect s t) :
    (s.ParseKept t ∧ s.PckKept t) ∨ s.ResetNext ∨
      ∃ i u, s.CompletesNow i ∧ s.ParseKept u ∧ s.PckKept u ∧ exec i u = .next t := by
  have hq : ∀ rest, s.RegistersKept (s.dequeued rest) :=
    fun rest => (notes_dequeued s rest).registersKept
  have hkept : ∀ {u}, ServesFrom s u → u.RegistersKept t → s.ParseKept t ∧ s.PckKept t :=
    fun hu ht => ⟨(parseKept_of_servesFrom hu).trans ht.parseKept,
      (pckKept_of_servesFrom hu).trans ht.pckKept⟩
  cases h with
  | @finish r _ hr hl ht =>
      exact .inr (.inr ⟨r.cmd, s, .inl ⟨r, hr, hl, rfl⟩, (notes_refl s).registersKept.parseKept,
        (notes_refl s).registersKept.pckKept, ht⟩)
  | @runAtOnce addr v rest i _ hc hbus hw hd _ ht =>
      exact .inr (.inr ⟨i, s.dequeued rest, .inr ⟨hc, addr, v, rest, hbus, hw, hd⟩,
        (hq rest).parseKept, (hq rest).pckKept, ht⟩)
  | accept => exact .inl ⟨⟨rfl, rfl, rfl, rfl, rfl, rfl, fun _ => rfl⟩, ⟨rfl, rfl⟩⟩
  | @store _ l v rest _ hl =>
      exact .inl ⟨(hq rest).parseKept.trans (parseKept_storeLoc (s := s.dequeued rest) hl v),
        (hq rest).pckKept.trans (pckKept_storeLoc _ v l)⟩
  | reset _ hr => exact .inr (.inl hr)
  | clear hu _ _ => exact .inl (hkept hu rfl)
  | notes hu ht => exact .inl (hkept hu ht.registersKept)

/-- Parse registers that are kept do not change. -/
theorem State.ParseKept.not_changed {s t : State} (h : s.ParseKept t) :
    ¬ (t.kind ≠ s.kind ∨ t.reason ≠ s.reason ∨ t.mtu ≠ s.mtu ∨ t.frmId ≠ s.frmId ∨
      t.frmLen ≠ s.frmLen ∨ t.frmFlags ≠ s.frmFlags ∨ ∃ j, j < 64 ∧ t.frmByte j ≠ s.frmByte j) := by
  rintro (hc | hc | hc | hc | hc | hc | ⟨j, -, hc⟩)
  exacts [hc h.kind, hc h.reason, hc h.mtu, hc h.frmId, hc h.frmLen, hc h.frmFlags, hc (h.frmData j)]

theorem State.PckKept.not_changed {s t : State} (h : s.PckKept t) :
    ¬ (t.code ≠ s.code ∨ t.lastop ≠ s.lastop) := by
  rintro (hc | hc)
  exacts [hc h.code, hc h.lastop]

/-- Settles O49, from what a step can do to the result registers and which command writes which. -/
theorem resultRegistersChangeOnlyAtTheirCommands :
    Obligations.ResultRegistersChangeOnlyAtTheirCommands := by
  unfold Obligations.ResultRegistersChangeOnlyAtTheirCommands
  intro s t hstep
  rcases stepEffect_results (stepEffect_of_step hstep) with
    ⟨hparse, hpck⟩ | hr | ⟨i, u, hi, hparse, hpck, ht⟩
  · exact ⟨fun hc => absurd hc hparse.not_changed, fun hc => absurd hc hpck.not_changed⟩
  · exact ⟨fun _ => .inr (.inr hr), fun _ => .inr (.inr (.inr hr))⟩
  · refine ⟨fun hc => ?_, fun hc => ?_⟩
    · by_cases hp : i = .parse
      · exact .inl (hp ▸ hi)
      by_cases hs : i = .srst
      · exact .inr (.inl (hs ▸ hi))
      exact absurd hc (hparse.trans (parseKept_of_exec ht hp hs)).not_changed
    · cases i with
      | nop => exact absurd hc (hpck.trans (pckKept_of_exec ht (.inl rfl))).not_changed
      | parse => exact absurd hc (hpck.trans (pckKept_of_exec ht (.inr rfl))).not_changed
      | pack slot pos size dlc => exact .inl ⟨slot, pos, size, dlc, hi⟩
      | render slot dlc idl => exact .inr (.inl ⟨slot, dlc, idl, hi⟩)
      | srst => exact .inr (.inr (.inl hi))

/-! ### ID and PARAM (10_state R22, R23) -/

/-- A location in no command's write set reads exactly, whether a command runs or not (20_memory R79). -/
theorem memRead_of_not_writeSet {s : State} {off : Nat} {l : Loc} (hl : validLoc s.params off 4 = some l)
    (hw : ∀ i, writeSet s.params i l = false) : s.memRead off 4 = (s.readLoc l, s) := by
  have hu : s.unspecified l = false := by
    unfold State.unspecified
    cases s.current with
    | none => rfl
    | some r => exact hw r.cmd
  simp [State.memRead, hl, hu]

theorem memRead_id (s : State) : s.memRead 0x000 4 = (Config.idValue, s) :=
  memRead_of_not_writeSet (l := .id) rfl fun i => by cases i <;> rfl

theorem memRead_param (s : State) : s.memRead 0x004 4 = (s.readLoc .param, s) :=
  memRead_of_not_writeSet (l := .param) rfl fun i => by cases i <;> rfl

theorem params_of_exec {i : Instr} {s t : State} (h : exec i s = .next t) : t.params = s.params := by
  obtain ⟨t', ht', -, -, -, -, hp, -⟩ := exec_cases i s
  cases h.symm.trans ht'
  exact hp

/-- No step changes the parameters (10_state R23). -/
theorem stepEffect_params {s t : State} (h : StepEffect s t) : t.params = s.params := by
  have hserve : ∀ {u}, ServesFrom s u → u.params = s.params := fun hu => by
    obtain ⟨-, -, -, hp, -⟩ := servesFrom_frame hu
    exact hp
  cases h with
  | finish _ _ ht => exact params_of_exec ht
  | runAtOnce _ _ _ _ _ ht => exact (params_of_exec ht :)
  | accept => rfl
  | @store _ l v rest _ _ =>
      obtain ⟨-, -, -, -, -, -, -, -, -, -, -, -, hp, -⟩ := storeLoc_frame (s.dequeued rest) v l
      exact hp
  | reset hu _ => exact (hserve hu :)
  | clear hu _ _ => exact (hserve hu :)
  | notes hu ht => exact (congrArg State.params ht).trans (hserve hu :)

/-- Settles O51: ID is a constant, and PARAM is read from the parameters alone, which no step changes. -/
theorem identityRegistersAreConstant : Obligations.IdentityRegistersAreConstant := by
  unfold Obligations.IdentityRegistersAreConstant
  refine ⟨memRead_id, fun s t hstep => ?_⟩
  have hp := stepEffect_params (stepEffect_of_step hstep)
  refine ⟨hp, ?_⟩
  rw [memRead_param, memRead_param]
  simp only [State.readLoc, hp]

end Sys2Proof.Machine

/-!
SUPPORT. The address map as a table from locations to offsets (20_memory R61, R63), what an access to a
mapped location does (R67 to R69, R79), and the statements about accesses to the window.
-/

namespace Sys2Proof.Machine

/-! ### The address map by its locations -/

/-- The word numbers and slots of 20_memory R63 that a location can have: those the map gives an offset. -/
def Loc.Mapped (nacc : Nat) : Loc → Prop
  | .text w => w < 64
  | .frmData w => w < 16
  | .accLo k | .accHi k => k < nacc
  | _ => True

theorem named_offset : ∀ e ∈ namedLocs, e.1 = e.2.offset ∧ ∀ nacc, e.2.Mapped nacc := by
  simp [namedLocs, Loc.offset, Loc.Mapped, ridBase]

/-- The named registers end below 0x038 (20_memory R63). -/
theorem lookup_named_of_ge {off : Nat} (h : 0x038 ≤ off) : namedLocs.lookup off = none := by
  simp only [List.lookup_eq_none_iff, bne_iff_ne]
  intro e he
  have : e.1 < 0x038 := by revert e; decide
  omega

theorem locate_of_ge {off : Nat} (h : 0x038 ≤ off) (p : Params) :
    locate p off =
      if 0x100 ≤ off ∧ off < 0x200 then some (.text ((off - 0x100) / 4))
      else if 0x200 ≤ off ∧ off < 0x240 then some (.frmData ((off - 0x200) / 4))
      else if 0x400 ≤ off ∧ off < 0x400 + 8 * p.nacc then
        some (if (off - 0x400) % 8 < 4 then .accLo ((off - 0x400) / 8) else .accHi ((off - 0x400) / 8))
      else none := by
  rw [locate, lookup_named_of_ge h]

/-- A mapped location lies at its offset. -/
theorem locate_offset {p : Params} {l : Loc} (h : l.Mapped p.nacc) : locate p l.offset = some l := by
  cases l with
  | text w =>
      have h : w < 64 := h
      rw [Loc.offset, textBase, locate_of_ge (by omega), if_pos (by omega)]
      congr 2; omega
  | frmData w =>
      have h : w < 16 := h
      rw [Loc.offset, frmBase, locate_of_ge (by omega), if_neg (by omega), if_pos (by omega)]
      congr 2; omega
  | accLo k =>
      have h : k < p.nacc := h
      rw [Loc.offset, locate_of_ge (by omega), if_neg (by omega), if_neg (by omega), if_pos (by omega),
        if_pos (by omega)]
      congr 2; omega
  | accHi k =>
      have h : k < p.nacc := h
      rw [Loc.offset, locate_of_ge (by omega), if_neg (by omega), if_neg (by omega), if_pos (by omega),
        if_neg (by omega)]
      congr 2; omega
  | id | param | cmd | status | tlen | prsRes | frmId | frmLen | frmFlags | pckRes | valLo | valHi
  | ridLo | ridHi => rfl

/-- What an aligned offset names is a mapped location at that offset. -/
theorem offset_of_locate {p : Params} {off : Nat} {l : Loc} (h : locate p off = some l)
    (ha : off % 4 = 0) : off = l.offset ∧ l.Mapped p.nacc := by
  cases hn : namedLocs.lookup off with
  | some l' =>
      rw [locate, hn] at h
      cases h
      obtain ⟨pre, post, he, -⟩ := List.lookup_eq_some_iff.1 hn
      obtain ⟨ho, hm⟩ := named_offset (off, l) (by simp [he])
      exact ⟨ho, hm p.nacc⟩
  | none =>
      rw [locate, hn] at h
      simp only at h
      split_ifs at h <;> cases h <;> simp only [Loc.offset, Loc.Mapped, textBase, frmBase] <;> omega

/-- A valid access is one of size 4 to the offset of a mapped location (20_memory R61). -/
theorem validLoc_eq_some_iff {p : Params} {off n : Nat} {l : Loc} :
    validLoc p off n = some l ↔ n = 4 ∧ off = l.offset ∧ l.Mapped p.nacc := by
  constructor
  · intro h
    obtain ⟨hn, ha, hl⟩ := validLoc_inv h
    exact ⟨hn, offset_of_locate hl ha⟩
  · rintro ⟨rfl, rfl, hm⟩
    have ha : l.offset % 4 = 0 := by
      cases l <;> simp only [Loc.offset, ridBase, textBase, frmBase] <;> omega
    rw [validLoc, if_pos ⟨rfl, ha⟩, locate_offset hm]

/-- The location at a valid access's offset (20_memory R63). -/
theorem exists_loc_of_mappedOffset {nacc off : Nat} (ha : off % 4 = 0) (hm : mappedOffset nacc off) :
    ∃ l : Loc, off = l.offset ∧ l.Mapped nacc := by
  rcases hm with hn | ⟨hlo, hhi⟩ | ⟨hlo, hhi⟩
  · have hnamed : ∀ off < 0x038, off % 4 = 0 → ∃ e ∈ namedLocs, e.1 = off := by decide
    obtain ⟨e, he, rfl⟩ := hnamed off hn ha
    obtain ⟨ho, hmap⟩ := named_offset e he
    exact ⟨e.2, ho, hmap nacc⟩
  · by_cases ht : off < 0x200
    · exact ⟨.text ((off - 0x100) / 4), by simp only [Loc.offset, textBase]; omega,
        by simp only [Loc.Mapped]; omega⟩
    · exact ⟨.frmData ((off - 0x200) / 4), by simp only [Loc.offset, frmBase]; omega,
        by simp only [Loc.Mapped]; omega⟩
  · by_cases hw : off % 8 = 0
    · exact ⟨.accLo ((off - 0x400) / 8), by simp only [Loc.offset]; omega,
        by simp only [Loc.Mapped]; omega⟩
    · exact ⟨.accHi ((off - 0x400) / 8), by simp only [Loc.offset]; omega,
        by simp only [Loc.Mapped]; omega⟩

/-- The offset of a mapped location is one of the map's, and aligned (20_memory R63). -/
theorem validAccess_offset {nacc : Nat} {l : Loc} (h : l.Mapped nacc) : validAccess nacc l.offset 4 := by
  refine ⟨rfl, ?_⟩
  unfold mappedOffset
  cases l with
  | text w => simp only [Loc.Mapped, Loc.offset, textBase] at *; omega
  | frmData w => simp only [Loc.Mapped, Loc.offset, frmBase] at *; omega
  | accLo k | accHi k => simp only [Loc.Mapped, Loc.offset] at *; omega
  | id | param | cmd | status | tlen | prsRes | frmId | frmLen | frmFlags | pckRes | valLo | valHi
  | ridLo | ridHi => exact ⟨rfl, .inl (by decide)⟩

/-- An access is valid exactly when it goes to the offset of a mapped location, with size 4. -/
theorem validAccess_iff {nacc off n : Nat} :
    validAccess nacc off n ↔ n = 4 ∧ ∃ l : Loc, off = l.offset ∧ l.Mapped nacc := by
  constructor
  · rintro ⟨rfl, ha, hm⟩
    exact ⟨rfl, exists_loc_of_mappedOffset ha hm⟩
  · rintro ⟨rfl, l, rfl, hl⟩
    exact validAccess_offset hl

/-- Settles O7, by the locations of the map. -/
theorem validAccessesAreThoseOfTheMap : Obligations.ValidAccessesAreThoseOfTheMap := by
  unfold Obligations.ValidAccessesAreThoseOfTheMap
  intro p off n
  simp only [validLoc_eq_some_iff, validAccess_iff, exists_and_left]

theorem validLoc_offset {p : Params} {l : Loc} (h : l.Mapped p.nacc) : validLoc p l.offset 4 = some l :=
  validLoc_eq_some_iff.2 ⟨rfl, rfl, h⟩

theorem exists_validLoc {p : Params} {off : Nat} (h : validAccess p.nacc off 4) :
    ∃ l, validLoc p off 4 = some l :=
  (validAccessesAreThoseOfTheMap p off 4).2 h

theorem validLoc_eq_none {p : Params} {off n : Nat} (h : ¬ validAccess p.nacc off n) :
    validLoc p off n = none :=
  Option.eq_none_iff_forall_ne_some.2 fun l hl => h ((validAccessesAreThoseOfTheMap p off n).1 ⟨l, hl⟩)

/-! ### Accesses that are refused, dropped or ignored (20_memory R60, R62, R68, R69) -/

/-- Settles O8: an access that is not valid names no location. -/
theorem invalidAccessesAreRefused : Obligations.InvalidAccessesAreRefused := by
  unfold Obligations.InvalidAccessesAreRefused
  intro s off n v lat h
  have hv := validLoc_eq_none h
  simp [State.memRead, State.memWrite, hv, State.setBuserr]

theorem ne_of_readOnly {l l' : Loc} (h : l.readOnly = true) (h' : l'.readOnly = false) : l ≠ l' := by
  rintro rfl
  simp [h] at h'

/-- A valid write while busy is dropped, but for one to STATUS or of SRST to CMD (20_memory R68 step 4). -/
theorem memWrite_of_busy {s : State} {off : Nat} {l : Loc} {v : Word}
    (hl : validLoc s.params off 4 = some l) (hb : s.busy = true) (hst : l ≠ .status)
    (hcmd : ¬ (l = .cmd ∧ v = srstWord)) (lat : Nat) :
    s.memWrite off 4 v lat = .next s.setWbusy := by
  simp [State.memWrite, hl, hst, hcmd, hb]

/-- A write to a read-only location of an idle block is refused (20_memory R68 step 5). -/
theorem memWrite_of_readOnly {s : State} {off : Nat} {l : Loc} (hl : validLoc s.params off 4 = some l)
    (hb : s.busy = false) (hro : l.readOnly = true) (v : Word) (lat : Nat) :
    s.memWrite off 4 v lat = .next s.setBuserr := by
  have hst : l ≠ .status := ne_of_readOnly hro rfl
  have hcmd : l ≠ .cmd := ne_of_readOnly hro rfl
  simp [State.memWrite, hl, hst, hcmd, hb, hro]

/-- A write to any other location but CMD and STATUS of an idle block is stored (20_memory R68 steps 7
and 8). -/
theorem memWrite_of_store {s : State} {off : Nat} {l : Loc} (hl : validLoc s.params off 4 = some l)
    (hb : s.busy = false) (hro : l.readOnly = false) (hst : l ≠ .status) (hcmd : l ≠ .cmd) (v : Word)
    (lat : Nat) : s.memWrite off 4 v lat = .next (s.storeLoc v l) := by
  simp [State.memWrite, hl, hst, hcmd, hb, hro]

/-- The read-only offsets are those of the read-only locations (20_memory R68 step 5). -/
theorem readOnlyOffset_offset {nacc : Nat} {l : Loc} (h : l.Mapped nacc) :
    readOnlyOffset l.offset ↔ l.readOnly = true := by
  unfold readOnlyOffset
  cases l with
  | text w => simp [Loc.Mapped, Loc.offset, Loc.readOnly, textBase] at *; omega
  | frmData w => simp [Loc.Mapped, Loc.offset, Loc.readOnly, frmBase] at *; omega
  | accLo k | accHi k => simp [Loc.offset, Loc.readOnly]; omega
  | id | param | cmd | status | tlen | prsRes | frmId | frmLen | frmFlags | pckRes | valLo | valHi
  | ridLo | ridHi => decide

/-- Settles O12: an RO offset holds a read-only location, and CMD is in no write set. -/
theorem readOnlyWritesAreRefused : Obligations.ReadOnlyWritesAreRefused := by
  unfold Obligations.ReadOnlyWritesAreRefused
  intro s off v lat hro ha
  have hm : mappedOffset s.params.nacc off := by
    unfold readOnlyOffset at hro
    unfold mappedOffset
    omega
  obtain ⟨l, rfl, hl⟩ := exists_loc_of_mappedOffset ha hm
  have hv := validLoc_offset hl
  rw [readOnlyOffset_offset hl] at hro
  have hst : l ≠ .status := ne_of_readOnly hro rfl
  have hcmd : l ≠ .cmd := ne_of_readOnly hro rfl
  refine ⟨fun hb => memWrite_of_readOnly hv hb hro v lat,
    fun hb => memWrite_of_busy hv hb hst (fun h => hcmd h.1) lat, ?_⟩
  exact memRead_of_not_writeSet (l := .cmd) rfl fun i => by cases i <;> rfl

/-- Settles O13, by step 4 of 20_memory R68 at the offset's location. -/
theorem busyWritesAreDropped : Obligations.BusyWritesAreDropped := by
  unfold Obligations.BusyWritesAreDropped
  intro s off v lat hb hva hst hcmd
  obtain ⟨l, hl⟩ := exists_validLoc hva
  obtain ⟨-, rfl, -⟩ := validLoc_eq_some_iff.1 hl
  refine memWrite_of_busy hl hb (fun h => hst (h ▸ rfl)) ?_ lat
  rintro ⟨rfl, hv⟩
  exact hcmd ⟨rfl, hv⟩

/-- Settles O16: the window gives such an address no offset. -/
theorem addressesOutsideTheWindowAreIgnored : Obligations.AddressesOutsideTheWindowAreIgnored := by
  unfold Obligations.AddressesOutsideTheWindowAreIgnored
  intro s addr n v lat h
  have hw : windowOffset s.params addr = none := if_neg (by simp only [Config.windowSize]; omega)
  simp [serve, State.hostRead, State.hostWrite, hw]

/-! ### Reads while a command runs (20_memory R79) -/

/-- The write set of a command by offsets is its write set by locations. -/
theorem inWriteSet_offset {p : Params} {l : Loc} (h : l.Mapped p.nacc) (i : Instr) :
    inWriteSet p.nacc i l.offset ↔ writeSet p i l = true := by
  cases i with
  | nop | srst => simp [inWriteSet, writeSet]
  | parse | pack slot pos size dlc | render slot dlc idl =>
      cases l <;> simp only [Loc.Mapped] at h <;>
        simp [inWriteSet, writeSet, Loc.offset, ridBase, textBase, frmBase] <;> omega

/-- Settles O10, by the write set at the offset's location. -/
theorem readsWhileBusy : Obligations.ReadsWhileBusy := by
  unfold Obligations.ReadsWhileBusy
  intro s r hr off hva
  obtain ⟨l, hl⟩ := exists_validLoc hva
  obtain ⟨-, rfl, hm⟩ := validLoc_eq_some_iff.1 hl
  have hu : s.unspecified l = writeSet s.params r.cmd l := by simp [State.unspecified, hr]
  rw [inWriteSet_offset hm, ← hu]
  constructor
  · intro h
    simp [State.memRead, hl, h]
  · intro h
    exact ⟨l, hl, by simp [State.memRead, hl, h]⟩

end Sys2Proof.Machine

/-!
SUPPORT. The words that reads return and writes store, as numbers and bytes (20_memory R65 to R68), and the
statements about the accesses to an idle block.
-/

namespace Sys2Proof.Machine

/-! ### Words as numbers and bytes (20_memory R65, R66) -/

/-- A register's fields side by side: the value of the upper, shifted, and that of the lower. -/
theorem toNat_append_fields {m n : Nat} (x : BitVec m) (y : BitVec n) :
    (x ++ y).toNat = x.toNat * 2 ^ n + y.toNat := by
  rw [BitVec.toNat_append, ← Nat.shiftLeft_add_eq_or_of_lt y.isLt, Nat.shiftLeft_eq]

theorem lowHalf_toNat (v : Dword) : (lowHalf v).toNat = v.toNat % 2 ^ 32 := by
  simp [lowHalf]

theorem highHalf_toNat (v : Dword) : (highHalf v).toNat = v.toNat / 2 ^ 32 := by
  simp [highHalf, Nat.shiftRight_eq_div_pow]
  omega

theorem withLow_toNat (v : Dword) (w : Word) :
    (withLow v w).toNat = v.toNat / 2 ^ 32 * 2 ^ 32 + w.toNat := by
  rw [withLow, toNat_append_fields, highHalf_toNat]

theorem withHigh_toNat (v : Dword) (w : Word) :
    (withHigh v w).toNat = w.toNat * 2 ^ 32 + v.toNat % 2 ^ 32 := by
  rw [withHigh, toNat_append_fields, lowHalf_toNat]

theorem withLow_withLow (v : Dword) (w w' : Word) : withLow (withLow v w) w' = withLow v w' := by
  unfold withLow
  rw [show highHalf (highHalf v ++ w) = highHalf v from BitVec.extractLsb'_append_eq_left]

theorem withHigh_withHigh (v : Dword) (w w' : Word) : withHigh (withHigh v w) w' = withHigh v w' := by
  unfold withHigh
  rw [show lowHalf (w ++ lowHalf v) = lowHalf v from BitVec.extractLsb'_append_eq_right]

/-- Byte `k` of the word at `x` is the byte at `x + k` (20_memory R65). -/
theorem byteOf_word (m : Memory) (x : Nat) {k : Nat} (hk : k < 4) :
    byteOf (m.word x) k = m.read (x + k) := by
  unfold byteOf Memory.word wordOfBytes
  match k, hk with
  | 0, _ => exact BitVec.extractLsb'_append_eq_right
  | 1, _ =>
      rw [BitVec.extractLsb'_append_eq_of_le (by decide)]
      exact BitVec.extractLsb'_append_eq_right
  | 2, _ =>
      rw [BitVec.extractLsb'_append_eq_of_le (by decide), BitVec.extractLsb'_append_eq_of_le (by decide)]
      exact BitVec.extractLsb'_append_eq_right
  | 3, _ =>
      rw [BitVec.extractLsb'_append_eq_of_le (by decide), BitVec.extractLsb'_append_eq_of_le (by decide),
        BitVec.extractLsb'_append_eq_of_le (by decide)]
      exact BitVec.extractLsb'_eq_self

/-! ### Reads of an idle block (20_memory R67) -/

/-- A valid read of an idle block returns the location's value and changes nothing. -/
theorem memRead_of_idle {s : State} {off : Nat} {l : Loc} (hb : s.busy = false)
    (hl : validLoc s.params off 4 = some l) : s.memRead off 4 = (s.readLoc l, s) := by
  have hu : s.unspecified l = false := by simp [State.unspecified, (not_busy_iff s).1 hb]
  simp [State.memRead, hl, hu]

theorem readLoc_param_toNat (s : State) (h : s.params.nacc ≤ 16) :
    (s.readLoc .param).toNat =
      s.params.nacc + (if s.params.hexCase = .upper then 0x100 else 0) := by
  have hn : s.params.nacc % 32 = s.params.nacc := Nat.mod_eq_of_lt (by omega)
  simp only [State.readLoc, toNat_append_fields, hexUp, BitVec.toNat_ofBool, BitVec.toNat_ofNat]
  cases s.params.hexCase with
  | upper => simp [hn]; omega
  | lower => simp [hn]

theorem statusWord_toNat_of_idle {s : State} (hb : s.busy = false) :
    s.statusWord.toNat =
      2 * s.done.toNat + 4 * s.illcmd.toNat + 8 * s.buserr.toNat + 16 * s.wbusy.toNat := by
  simp only [State.statusWord, toNat_append_fields, BitVec.toNat_ofBool, hb]
  simp
  omega

theorem readLoc_prsRes_toNat (s : State) :
    (s.readLoc .prsRes).toNat = s.kind.toNat + 16 * s.reason.toNat + 256 * s.mtu.toNat := by
  simp only [State.readLoc, toNat_append_fields]
  simp
  omega

theorem readLoc_pckRes_toNat (s : State) :
    (s.readLoc .pckRes).toNat = s.code.toNat + 256 * s.lastop.toNat := by
  simp only [State.readLoc, toNat_append_fields]
  simp
  omega

/-- Byte `k` of TEXT word `w` (10_state R30, 20_memory R65). -/
theorem byteOf_readLoc_text (s : State) {w k : Nat} (hw : w < 64) (hk : k < 4) :
    byteOf (s.readLoc (.text w)) k = s.textByte (4 * w + k) := by
  have hi : 4 * w + k < 256 := by omega
  simp [State.readLoc, byteOf_word _ _ hk, State.textByte, Config.textSize, hi, Nat.add_assoc]

theorem byteOf_readLoc_frmData (s : State) (w : Nat) {k : Nat} (hk : k < 4) :
    byteOf (s.readLoc (.frmData w)) k = s.frmByte (4 * w + k) := by
  simp [State.readLoc, byteOf_word _ _ hk, State.frmByte, Nat.add_assoc]

theorem byteOf_readLoc_ridHi (s : State) {k : Nat} (hk : k < 4) :
    byteOf (s.readLoc .ridHi) k = s.ridByte (4 + k) := by
  simp [State.readLoc, byteOf_word _ _ hk, State.ridByte, Nat.add_assoc]

/-- Settles O9, register by register. -/
theorem readsReturnTheRegisters : Obligations.ReadsReturnTheRegisters := by
  unfold Obligations.ReadsReturnTheRegisters
  intro s hb hnacc
  have hword : ∀ l : Loc, l.Mapped s.params.nacc → (s.memRead l.offset 4).1 = s.readLoc l :=
    fun l hl => congrArg Prod.fst (memRead_of_idle hb (validLoc_offset hl))
  have hnat : ∀ (l : Loc) {n : Nat}, l.Mapped s.params.nacc → (s.readLoc l).toNat = n →
      (s.memRead l.offset 4).1.toNat = n :=
    fun l n hl hn => (congrArg BitVec.toNat (hword l hl)).trans hn
  have hbyte : ∀ (l : Loc) {k : Nat} {b : Byte}, l.Mapped s.params.nacc → byteOf (s.readLoc l) k = b →
      byteOf (s.memRead l.offset 4).1 k = b :=
    fun l k b hl hn => (congrArg (byteOf · k) (hword l hl)).trans hn
  have hstate : ∀ off, validAccess s.params.nacc off 4 → (s.memRead off 4).2 = s := by
    intro off hva
    obtain ⟨l, hl⟩ := exists_validLoc hva
    rw [memRead_of_idle hb hl]
  exact ⟨hstate,
    hword .id trivial,
    hnat .param trivial (readLoc_param_toNat s hnacc),
    hword .cmd trivial,
    hnat .status trivial (statusWord_toNat_of_idle hb),
    hnat .tlen trivial (BitVec.toNat_setWidth_of_le (by decide)),
    hnat .prsRes trivial (readLoc_prsRes_toNat s),
    hword .frmId trivial,
    hnat .frmLen trivial (BitVec.toNat_setWidth_of_le (by decide)),
    hnat .frmFlags trivial (BitVec.toNat_setWidth_of_le (by decide)),
    hnat .pckRes trivial (readLoc_pckRes_toNat s),
    hnat .valLo trivial (lowHalf_toNat s.val),
    hnat .valHi trivial (highHalf_toNat s.val),
    fun _ hk => hbyte .ridLo trivial (byteOf_word s.mem ridBase hk),
    fun _ hk => hbyte .ridHi trivial (byteOf_readLoc_ridHi s hk),
    fun w _ hw hk => hbyte (.text w) hw (byteOf_readLoc_text s hw hk),
    fun w _ hw hk => hbyte (.frmData w) hw (byteOf_readLoc_frmData s w hk),
    fun k hk => ⟨hnat (.accLo k) hk (lowHalf_toNat _), hnat (.accHi k) hk (highHalf_toNat _)⟩⟩

/-! ### Writes to an idle block (20_memory R68 steps 7 and 8) -/

theorem saturateTlen_toNat (v : Word) : (saturateTlen v).toNat = min v.toNat 256 := by
  simp only [saturateTlen, Config.textSize, BitVec.toNat_ofNat]
  omega

/-- Byte `k` of a word written at RID[x] (20_memory R65). -/
theorem ridByte_writeWord {s : State} (hwf : s.mem.wf = true) (v : Word) (x : Nat) {k : Nat} (hk : k < 4) :
    State.ridByte { s with mem := s.mem.writeWord (ridBase + x) v } (x + k) = byteOf v k := by
  rw [State.ridByte, ← Nat.add_assoc]
  exact Memory.read_writeWord_of_in v hwf hk

/-- Byte `k` of a written TEXT word (20_memory R65). -/
theorem textByte_writeWord {s : State} (hwf : s.mem.wf = true) (v : Word) {w k : Nat} (hw : w < 64)
    (hk : k < 4) :
    State.textByte { s with mem := s.mem.writeWord (textBase + 4 * w) v } (4 * w + k) = byteOf v k := by
  rw [State.textByte, if_pos (by simp only [Config.textSize]; omega), ← Nat.add_assoc]
  exact Memory.read_writeWord_of_in v hwf hk

/-- Settles O14, location by location. -/
theorem idleWritesStoreTheirValue : Obligations.IdleWritesStoreTheirValue := by
  unfold Obligations.IdleWritesStoreTheirValue
  intro s v lat hb hwf hnacc
  have hstore : ∀ l : Loc, l.Mapped s.params.nacc → l.readOnly = false → l ≠ .status → l ≠ .cmd →
      s.memWrite l.offset 4 v lat = .next (s.storeLoc v l) :=
    fun l hl hro hst hcmd => memWrite_of_store (validLoc_offset hl) hb hro hst hcmd v lat
  refine ⟨⟨_, hstore .tlen trivial rfl nofun nofun, rfl, saturateTlen_toNat v⟩,
    ⟨_, hstore .valLo trivial rfl nofun nofun, rfl, withLow_toNat s.val v⟩,
    ⟨_, hstore .valHi trivial rfl nofun nofun, rfl, withHigh_toNat s.val v⟩, ?_, ?_, ?_⟩
  · intro h hh
    match h, hh with
    | 0, _ => exact ⟨_, hstore .ridLo trivial rfl nofun nofun, rfl, fun _ => ridByte_writeWord hwf v 0,
        fun _ => Memory.read_writeWord_of_out v s.mem⟩
    | 1, _ => exact ⟨_, hstore .ridHi trivial rfl nofun nofun, rfl, fun _ => ridByte_writeWord hwf v 4,
        fun _ => Memory.read_writeWord_of_out v s.mem⟩
  · intro w hw
    refine ⟨_, hstore (.text w) hw rfl nofun nofun, rfl, fun _ => textByte_writeWord hwf v hw,
      fun x hx => Memory.read_writeWord_of_out v s.mem ?_⟩
    unfold textBase
    omega
  · intro k hk
    have hk16 : k < 16 := by omega
    refine ⟨⟨_, hstore (.accLo k) hk rfl nofun nofun, rfl, ?_, fun j => accAt_setAcc_of_ne s _⟩,
      ⟨_, hstore (.accHi k) hk rfl nofun nofun, rfl, ?_, fun j => accAt_setAcc_of_ne s _⟩⟩
    · rw [State.storeLoc, accAt_setAcc_self s k _ hk16, withLow_toNat]
    · rw [State.storeLoc, accAt_setAcc_self s k _ hk16, withHigh_toNat]

/-! ### Accesses repeated (20_memory R70) -/

/-- Writing the byte that is there changes nothing, for the form is canonical. -/
theorem Memory.write_eq_self {x : Nat} {v : Byte} :
    ∀ {m : Memory}, m.wf = true → m.read x = v → m.write x v = m
  | [], _, hv => by simp [Memory.write, ← hv, Memory.read]
  | (a, b) :: rest, hwf, hv => by
      obtain ⟨hb, habove, hrest⟩ := (Memory.wf_cons a b rest).1 hwf
      rcases Nat.lt_trichotomy x a with hlt | rfl | hgt
      · have habove' : Memory.above x ((a, b) :: rest) := by
          rintro c (_ | ⟨_, hc⟩)
          exacts [hlt, hlt.trans (habove c hc)]
        rw [Memory.read_of_above habove'] at hv
        simp [Memory.write, hlt, ← hv]
      · rw [Memory.read, if_pos rfl] at hv
        have hv0 : v ≠ 0 := hv ▸ hb
        simp only [Memory.write, lt_irrefl, if_true, if_false, if_neg hv0, hv]
      · rw [Memory.read, if_neg hgt.ne'] at hv
        simp [Memory.write, hgt.not_gt, hgt.ne', Memory.write_eq_self hrest hv]

theorem Memory.writeBytes_eq_self {m : Memory} (hwf : m.wf = true) :
    ∀ (vs : List Byte) (x : Nat), (∀ k < vs.length, m.read (x + k) = vs.getD k 0) →
      m.writeBytes x vs = m
  | [], _, _ => rfl
  | v :: vs, x, h => by
      have hv : m.read x = v := h 0 (by simp)
      rw [Memory.writeBytes, Memory.write_eq_self hwf hv]
      refine Memory.writeBytes_eq_self hwf vs (x + 1) fun k hk => ?_
      have hk' := h (k + 1) (by simpa using hk)
      rw [Nat.add_assoc, Nat.add_comm 1 k]
      simpa using hk'

theorem Memory.writeWord_writeWord {m : Memory} (hwf : m.wf = true) (x : Nat) (v : Word) :
    (m.writeWord x v).writeWord x v = m.writeWord x v :=
  Memory.writeBytes_eq_self (Memory.wf_writeWord x v hwf) _ x
    fun _ hk => Memory.read_writeBytes_of_in _ x _ hwf hk

/-- An update of an accumulator that is idempotent on its value is idempotent on the state. -/
theorem setAcc_setAcc_of_idempotent (s : State) (k : Nat) {f : Dword → Dword} (hf : ∀ a, f (f a) = f a) :
    (s.setAcc k (f (s.accAt k))).setAcc k (f ((s.setAcc k (f (s.accAt k))).accAt k)) =
      s.setAcc k (f (s.accAt k)) := by
  by_cases hk : k < 16
  · rw [accAt_setAcc_self s k _ hk, hf]
    simp [State.setAcc]
  · have hout : ∀ t : State, ∀ a, t.setAcc k a = t := fun t a => by
      simp [State.setAcc, Vector.setIfInBounds_eq_of_size_le (by omega : 16 ≤ k)]
    simp only [hout]

/-- A word stored twice is stored (20_memory R70). -/
theorem storeLoc_storeLoc {s : State} (hwf : s.mem.wf = true) (v : Word) (l : Loc) :
    (s.storeLoc v l).storeLoc v l = s.storeLoc v l := by
  cases l with
  | valLo => simp [State.storeLoc, withLow_withLow]
  | valHi => simp [State.storeLoc, withHigh_withHigh]
  | ridLo | ridHi | text w => simp [State.storeLoc, Memory.writeWord_writeWord hwf]
  | accLo k => exact setAcc_setAcc_of_idempotent s k (f := (withLow · v)) fun a => withLow_withLow a v v
  | accHi k => exact setAcc_setAcc_of_idempotent s k (f := (withHigh · v)) fun a => withHigh_withHigh a v v
  | tlen | id | param | cmd | status | prsRes | frmId | frmLen | frmFlags | pckRes | frmData w => rfl

theorem clearStatus_clearStatus (s : State) (v : Word) :
    (s.clearStatus v).clearStatus v = s.clearStatus v := by
  simp [State.clearStatus]

/-- Settles O15: a STATUS write and a stored word are idempotent, and an idle read moves nothing. -/
theorem repeatedAccessesChangeNothing : Obligations.RepeatedAccessesChangeNothing := by
  unfold Obligations.RepeatedAccessesChangeNothing
  intro s off hb hwf hva
  obtain ⟨l, hl⟩ := exists_validLoc hva
  refine ⟨by simp only [memRead_of_idle hb hl], fun hro hcmd v lat lat' => ?_⟩
  obtain ⟨-, rfl, hm⟩ := validLoc_eq_some_iff.1 hl
  by_cases hst : l = .status
  · subst hst
    refine ⟨_, memWrite_status s v lat, ?_⟩
    exact (memWrite_status _ v lat').trans (congrArg _ (clearStatus_clearStatus s v))
  · have hro : l.readOnly = false := by rwa [readOnlyOffset_offset hm, Bool.not_eq_true] at hro
    have hcmd : l ≠ .cmd := by rintro rfl; exact hcmd rfl
    obtain ⟨-, -, -, -, -, -, -, -, -, -, -, -, hparams, hcur, -⟩ := storeLoc_frame s v l
    have hb' : (s.storeLoc v l).busy = false := by rwa [State.busy, hcur]
    have hl' : validLoc (s.storeLoc v l).params l.offset 4 = some l := by rwa [hparams]
    refine ⟨_, memWrite_of_store hl hb hro hst hcmd v lat, ?_⟩
    rw [memWrite_of_store hl' hb' hro hst hcmd v lat', storeLoc_storeLoc hwf]

/-! ### A running command (20_memory R72, R73) -/

/-- Settles O50: a step that leaves a busy block busy takes one cycle of the running command and serves an
access that is no reset. -/
theorem nothingMovesWhileACommandRuns : Obligations.NothingMovesWhileACommandRuns := by
  unfold Obligations.NothingMovesWhileACommandRuns
  intro s t hbusy hstep hbusy'
  obtain ⟨r, hr⟩ := (busy_iff s).1 hbusy
  have hidle : s.current ≠ none := by simp [hr]
  have hcycle : ∀ {u}, ServesFrom s u → ∃ k, r.left = k + 1 ∧ u = s.cycle r k := by
    rintro u (⟨hc, -⟩ | ⟨r', k, hr', hl, rfl⟩)
    · exact absurd hc hidle
    · cases hr.symm.trans hr'
      exact ⟨k, hl, rfl⟩
  cases stepEffect_of_step hstep with
  | @finish r' _ _ _ ht =>
      obtain ⟨t', ht', hc, -⟩ := exec_cases r'.cmd s
      cases ht.symm.trans ht'
      simp [State.busy, hc] at hbusy'
  | runAtOnce hc | accept hc | store hc => exact absurd hc hidle
  | reset => cases hbusy'
  | clear hu =>
      obtain ⟨k, hl, rfl⟩ := hcycle hu
      exact ⟨rfl, r, _, hr, rfl, rfl, hl.symm⟩
  | notes hu ht =>
      obtain ⟨k, hl, rfl⟩ := hcycle hu
      rw [ht]
      exact ⟨rfl, r, _, hr, rfl, rfl, hl.symm⟩

end Sys2Proof.Machine

/-!
SUPPORT. Command words as fields (30_encoding R90 to R96): a row of the opcode map by the fields it fixes, the
decoder by its rows, the encoder as a sum of fields, and the statements about command words.
-/

namespace Sys2Proof

/-! ### Fields (30_encoding R94) -/

theorem field_eq (c : Word) (hi lo : Nat) :
    field c hi lo = c.toNat / 2 ^ lo % 2 ^ (hi - lo + 1) := by
  simp [field, Nat.shiftRight_eq_div_pow]

/-- Two words agree in a field exactly when they agree in its bits. -/
theorem field_eq_field_iff {c d : Word} {hi lo : Nat} (h : lo ≤ hi) :
    field c hi lo = field d hi lo ↔ ∀ b, lo ≤ b → b ≤ hi → c.getLsbD b = d.getLsbD b := by
  rw [field, field, BitVec.toNat_inj]
  constructor
  · intro he b hlo hhi
    have hb := congrArg (BitVec.getLsbD · (b - lo)) he
    simpa [h, hhi, hlo] using hb
  · intro hb
    refine BitVec.eq_of_getLsbD_eq fun k hk => ?_
    simp [hb (lo + k) (by omega) (by omega)]

theorem field_eq_zero_iff {c : Word} {hi lo : Nat} (h : lo ≤ hi) :
    field c hi lo = 0 ↔ ∀ b, lo ≤ b → b ≤ hi → c.getLsbD b = false := by
  have h0 : field 0 hi lo = 0 := by simp [field_eq]
  rw [← h0, field_eq_field_iff h]
  simp

theorem field_ne_zero_iff {c : Word} {hi lo : Nat} (h : lo ≤ hi) :
    field c hi lo ≠ 0 ↔ ∃ b, lo ≤ b ∧ b ≤ hi ∧ c.getLsbD b = true := by
  simp [Ne, field_eq_zero_iff h]

/-- A field of one bit. -/
theorem field_bit (c : Word) (b : Nat) : field c b b = (c.getLsbD b).toNat := by
  rw [field_eq, BitVec.getLsbD, Nat.toNat_testBit]
  simp

/-! ### The rows of the opcode map (30_encoding R95) -/

/-- The OP of a row's words (30_encoding R95). -/
def OpName.op : OpName → Nat
  | .nop => 0x0
  | .parse => 0x1
  | .pack => 0x2
  | .render => 0x3
  | .srst => 0xF

/-- The fields above OP, by their end bits, that are 0 in a row's words (30_encoding R91 to R93). -/
def OpName.reserved : OpName → List (Nat × Nat)
  | .nop | .parse | .srst => [(31, 4)]
  | .pack => [(31, 31)]
  | .render => [(31, 31), (23, 9)]

/-- A word has the OP of a row, and zeros in its reserved fields. -/
def OpName.Matches (n : OpName) (c : Word) : Prop :=
  field c 3 0 = n.op ∧ ∀ f ∈ n.reserved, field c f.1 f.2 = 0

theorem matches_formatN_iff {n : OpName} (hn : n.reserved = [(31, 4)]) (c : Word) :
    n.Matches c ↔ field c 3 0 = n.op ∧ field c 31 4 = 0 := by
  simp [OpName.Matches, hn]

theorem matches_pack_iff (c : Word) : OpName.pack.Matches c ↔ field c 3 0 = 0x2 ∧ field c 31 31 = 0 := by
  simp [OpName.Matches, OpName.op, OpName.reserved]

theorem matches_render_iff (c : Word) :
    OpName.render.Matches c ↔ field c 3 0 = 0x3 ∧ field c 31 31 = 0 ∧ field c 23 9 = 0 := by
  simp [OpName.Matches, OpName.op, OpName.reserved]

theorem mask_bit_iff : ∀ r ∈ opMap, ∀ b < 32,
    r.mask.getLsbD b = true ↔ b ≤ 3 ∨ ∃ f ∈ r.name.reserved, f.2 ≤ b ∧ b ≤ f.1 := by decide

theorem reserved_le (n : OpName) : ∀ f ∈ n.reserved, 4 ≤ f.2 ∧ f.2 ≤ f.1 ∧ f.1 < 32 := by
  cases n <;> decide

theorem pattern_bit_of_ge : ∀ r ∈ opMap, ∀ b < 32, 4 ≤ b → r.pattern.getLsbD b = false := by decide

theorem pattern_op : ∀ r ∈ opMap, field r.pattern 3 0 = r.name.op := by decide

/-- A mask and pattern of the map test the OP and the reserved fields. -/
theorem fits_iff {r : OpRow} (hr : r ∈ opMap) (c : Word) : r.fits c = true ↔ r.name.Matches c := by
  have hbits : r.fits c = true ↔
      ∀ b < 32, (c.getLsbD b && r.mask.getLsbD b) = r.pattern.getLsbD b := by
    rw [OpRow.fits, beq_iff_eq]
    exact ⟨fun h b _ => by rw [← h, BitVec.getLsbD_and],
      fun h => BitVec.eq_of_getLsbD_eq fun b hb => by rw [BitVec.getLsbD_and, h b hb]⟩
  rw [hbits, OpName.Matches, ← pattern_op r hr, field_eq_field_iff (by decide)]
  constructor
  · intro h
    refine ⟨fun b _ hb => ?_, fun f hf => ?_⟩
    · have hm := (mask_bit_iff r hr b (by omega)).2 (.inl hb)
      simpa [hm] using h b (by omega)
    · obtain ⟨h4, hle, h32⟩ := reserved_le r.name f hf
      refine (field_eq_zero_iff hle).2 fun b hlo hhi => ?_
      have hm := (mask_bit_iff r hr b (by omega)).2 (.inr ⟨f, hf, hlo, hhi⟩)
      simpa [hm, pattern_bit_of_ge r hr b (by omega) (by omega)] using h b (by omega)
  · rintro ⟨hop, hres⟩ b hb
    by_cases h3 : b ≤ 3
    · rw [(mask_bit_iff r hr b hb).2 (.inl h3), Bool.and_true, hop b (Nat.zero_le b) h3]
    · rw [pattern_bit_of_ge r hr b hb (by omega), Bool.and_eq_false_imp]
      intro hc
      refine Bool.eq_false_iff.2 fun hm => ?_
      obtain hle | ⟨f, hf, hlo, hhi⟩ := (mask_bit_iff r hr b hb).1 hm
      · exact h3 hle
      · exact (field_ne_zero_iff (hlo.trans hhi)).2 ⟨b, hlo, hhi, hc⟩ (hres f hf)

theorem row_eq_of_op : ∀ r ∈ opMap, ∀ r' ∈ opMap, r.name.op = r'.name.op → r = r' := by decide

theorem exists_row (n : OpName) : ∃ r ∈ opMap, r.name = n := by
  cases n <;> decide

/-! ### The decoder by its rows -/

/-- The decoder gives the command of the row a word fits: no two rows have the same OP. -/
theorem decode_of_fits {r : OpRow} (hr : r ∈ opMap) {c : Word} (h : r.fits c = true) :
    decode c = .ok (operandsOf c r.name) := by
  unfold decode
  cases hf : opMap.find? (fun r => r.fits c) with
  | none => exact absurd h (List.find?_eq_none.1 hf r hr)
  | some r' =>
      have hr' := List.mem_of_find?_eq_some hf
      have h' : r'.fits c = true := by simpa using List.find?_some hf
      obtain ⟨hop, -⟩ := (fits_iff hr c).1 h
      obtain ⟨hop', -⟩ := (fits_iff hr' c).1 h'
      rw [row_eq_of_op r' hr' r hr (hop'.symm.trans hop)]

theorem decode_of_matches {n : OpName} {c : Word} (h : n.Matches c) : decode c = .ok (operandsOf c n) := by
  obtain ⟨r, hr, rfl⟩ := exists_row n
  exact decode_of_fits hr ((fits_iff hr c).2 h)

theorem fits_of_decode {c : Word} {i : Instr} (h : decode c = .ok i) :
    ∃ r ∈ opMap, r.fits c = true ∧ operandsOf c r.name = i := by
  unfold decode at h
  cases hf : opMap.find? (fun r => r.fits c) with
  | none => simp [hf] at h
  | some r =>
      rw [hf] at h
      cases h
      exact ⟨r, List.mem_of_find?_eq_some hf, by simpa using List.find?_some hf, rfl⟩

theorem matches_of_decode {c : Word} {i : Instr} (h : decode c = .ok i) :
    ∃ n : OpName, n.Matches c ∧ operandsOf c n = i := by
  obtain ⟨r, hr, hf, hi⟩ := fits_of_decode h
  exact ⟨r.name, (fits_iff hr c).1 hf, hi⟩

theorem decode_error_iff (c : Word) : (∃ e, decode c = .error e) ↔ ∀ n : OpName, ¬ n.Matches c := by
  constructor
  · rintro ⟨e, he⟩ n h
    cases he.symm.trans (decode_of_matches h)
  · intro h
    cases hd : decode c with
    | error e => exact ⟨e, rfl⟩
    | ok i =>
        obtain ⟨n, hn, -⟩ := matches_of_decode hd
        exact absurd hn (h n)

theorem operandsOf_render (c : Word) :
    operandsOf c .render =
      .render (field c 7 4) (field c 30 24) (if c.getLsbD 8 then .id8 else .id3) := by
  rw [operandsOf, field_bit]
  cases c.getLsbD 8 <;> rfl

/-- Settles O4: a row's mask and pattern are what the decoder tests. -/
theorem decodeFollowsTheOpcodeMap : Obligations.DecodeFollowsTheOpcodeMap := by
  unfold Obligations.DecodeFollowsTheOpcodeMap
  intro c
  have hrow : ∀ r ∈ opMap, c &&& r.mask = r.pattern → decode c = .ok (operandsOf c r.name) :=
    fun r hr h => decode_of_fits hr (beq_iff_eq.2 h)
  simp only [opMap, List.forall_mem_cons, operandsOf_render] at hrow
  obtain ⟨hnop, hparse, hpack, hrender, hsrst, -⟩ := hrow
  refine ⟨hnop, hparse, hpack, hrender, hsrst, ?_⟩
  rintro ⟨i, hi⟩
  obtain ⟨r, hr, hf, -⟩ := fits_of_decode hi
  have hf : c &&& r.mask = r.pattern := beq_iff_eq.1 hf
  simp only [opMap, List.mem_cons, List.not_mem_nil, or_false] at hr
  rcases hr with rfl | rfl | rfl | rfl | rfl
  exacts [.inl hf, .inr (.inl hf), .inr (.inr (.inl hf)), .inr (.inr (.inr (.inl hf))),
    .inr (.inr (.inr (.inr hf)))]

/-- Settles O3, by running the decoder on the seven words. -/
theorem specWordsDecode : Obligations.SpecWordsDecode := by
  unfold Obligations.SpecWordsDecode
  decide

/-! ### The encoder as a sum of fields (30_encoding R99) -/

/-- A field shifted above the fields below it adds to them. -/
theorem toNat_shiftLeft_or {w x y k : Nat} {low : BitVec w} (hlow : low.toNat = y) (hy : y < 2 ^ k)
    (hx : x * 2 ^ k < 2 ^ w) : ((BitVec.ofNat w x <<< k) ||| low).toNat = x * 2 ^ k + y := by
  have hxw : x < 2 ^ w := lt_of_le_of_lt (Nat.le_mul_of_pos_right x (by positivity)) hx
  rw [BitVec.toNat_or, BitVec.toNat_shiftLeft, BitVec.toNat_ofNat, Nat.mod_eq_of_lt hxw, hlow,
    Nat.shiftLeft_eq, Nat.mod_eq_of_lt hx, ← Nat.shiftLeft_eq, Nat.shiftLeft_add_eq_or_of_lt hy]

theorem encode_pack_toNat {slot pos size dlc : Nat} (hslot : slot ≤ 15) (hpos : pos ≤ 511)
    (hsize : size ≤ 127) (hdlc : dlc ≤ 127) :
    (encode (.pack slot pos size dlc)).toNat =
      dlc * 2 ^ 24 + (size * 2 ^ 17 + (pos * 2 ^ 8 + (slot * 2 ^ 4 + 2))) := by
  simp only [encode, BitVec.or_assoc]
  refine toNat_shiftLeft_or (toNat_shiftLeft_or (toNat_shiftLeft_or
    (toNat_shiftLeft_or rfl ?_ ?_) ?_ ?_) ?_ ?_) ?_ ?_ <;> omega

theorem encode_render_toNat {slot dlc : Nat} (idl : IdLen) (hslot : slot ≤ 15) (hdlc : dlc ≤ 127) :
    (encode (.render slot dlc idl)).toNat =
      dlc * 2 ^ 24 + (idl.bit * 2 ^ 8 + (slot * 2 ^ 4 + 3)) := by
  have hbit : idl.bit ≤ 1 := by cases idl <;> decide
  simp only [encode, BitVec.or_assoc]
  refine toNat_shiftLeft_or (toNat_shiftLeft_or (toNat_shiftLeft_or rfl ?_ ?_) ?_ ?_) ?_ ?_ <;> omega

/-! ### Decoder and encoder -/

theorem decode_encode_pack {slot pos size dlc : Nat} (hslot : slot ≤ 15) (hpos : pos ≤ 511)
    (hsize : size ≤ 127) (hdlc : dlc ≤ 127) :
    decode (encode (.pack slot pos size dlc)) = .ok (.pack slot pos size dlc) := by
  have hsum := encode_pack_toNat hslot hpos hsize hdlc
  have hmatches : OpName.pack.Matches (encode (.pack slot pos size dlc)) := by
    rw [matches_pack_iff]
    refine ⟨Laws.OpField.pack slot pos size dlc, ?_⟩
    rw [field_eq, hsum]
    omega
  rw [decode_of_matches hmatches]
  simp only [operandsOf, field_eq, hsum, Except.ok.injEq, Instr.pack.injEq]
  omega

theorem decode_encode_render {slot dlc : Nat} (idl : IdLen) (hslot : slot ≤ 15) (hdlc : dlc ≤ 127) :
    decode (encode (.render slot dlc idl)) = .ok (.render slot dlc idl) := by
  have hsum := encode_render_toNat idl hslot hdlc
  have hbit : idl.bit ≤ 1 := by cases idl <;> decide
  have hmatches : OpName.render.Matches (encode (.render slot dlc idl)) := by
    rw [matches_render_iff]
    refine ⟨Laws.OpField.render slot dlc idl, ?_, ?_⟩ <;> rw [field_eq, hsum] <;> omega
  have hslotF : field (encode (.render slot dlc idl)) 7 4 = slot := by rw [field_eq, hsum]; omega
  have hdlcF : field (encode (.render slot dlc idl)) 30 24 = dlc := by rw [field_eq, hsum]; omega
  have hidlF : field (encode (.render slot dlc idl)) 8 8 = idl.bit := by rw [field_eq, hsum]; omega
  rw [decode_of_matches hmatches, operandsOf, hslotF, hdlcF, hidlF]
  cases idl <;> rfl

/-- Settles O1, command by command, from the sums of fields. -/
theorem decodeInvertsEncode : Obligations.DecodeInvertsEncode := by
  unfold Obligations.DecodeInvertsEncode
  intro i hwf
  cases i with
  | nop | parse | srst => rfl
  | pack slot pos size dlc =>
      simp only [Instr.wf, Bool.and_eq_true, decide_eq_true_eq] at hwf
      obtain ⟨⟨⟨hslot, hpos⟩, hsize⟩, hdlc⟩ := hwf
      exact decode_encode_pack hslot hpos hsize hdlc
  | render slot dlc idl =>
      simp only [Instr.wf, Bool.and_eq_true, decide_eq_true_eq] at hwf
      obtain ⟨hslot, hdlc⟩ := hwf
      exact decode_encode_render idl hslot hdlc

/-- A word with no bit above OP is its OP. -/
theorem eq_of_matches_formatN {n : OpName} {c : Word} (hn : n.reserved = [(31, 4)]) (h : n.Matches c) :
    c.toNat = n.op := by
  obtain ⟨hop, hhigh⟩ := (matches_formatN_iff hn c).1 h
  simp only [field_eq] at hop hhigh
  omega

theorem encode_operandsOf {n : OpName} {c : Word} (h : n.Matches c) : encode (operandsOf c n) = c := by
  apply BitVec.eq_of_toNat_eq
  cases n with
  | nop | parse | srst => exact (eq_of_matches_formatN rfl h).symm
  | pack =>
      obtain ⟨hop, h31⟩ := (matches_pack_iff c).1 h
      simp only [field_eq] at hop h31
      rw [operandsOf, encode_pack_toNat] <;> simp only [field_eq] <;> omega
  | render =>
      obtain ⟨hop, h31, hmid⟩ := (matches_render_iff c).1 h
      have hidl : (if field c 8 8 = 0 then IdLen.id3 else .id8).bit = field c 8 8 := by
        rw [field_bit]
        cases c.getLsbD 8 <;> rfl
      simp only [field_eq] at hop h31 hmid
      rw [operandsOf, encode_render_toNat, hidl] <;> simp only [field_eq] <;> omega

/-- Settles O2: the fields of a word that fits a row, and the row's zeros, are all of its bits. -/
theorem encodeInvertsDecode : Obligations.EncodeInvertsDecode := by
  unfold Obligations.EncodeInvertsDecode
  intro c i hd
  obtain ⟨n, hn, rfl⟩ := matches_of_decode hd
  exact ⟨wf_of_decode c _ hd, encode_operandsOf hn⟩

/-! ### Illegal words (30_encoding R96, 44_control R211) -/

/-- A word matches no row exactly when it is in one of the classes of 30_encoding R96. -/
theorem forall_not_matches_iff (c : Word) :
    (∀ n : OpName, ¬ n.Matches c) ↔
      (4 ≤ field c 3 0 ∧ field c 3 0 ≤ 0xE) ∨
      ((field c 3 0 = 0x0 ∨ field c 3 0 = 0x1 ∨ field c 3 0 = 0xF) ∧ field c 31 4 ≠ 0) ∨
      (field c 3 0 = 0x2 ∧ field c 31 31 ≠ 0) ∨
      (field c 3 0 = 0x3 ∧ (field c 31 31 ≠ 0 ∨ field c 23 9 ≠ 0)) := by
  have hop : field c 3 0 < 16 := BitVec.isLt _
  have hall : (∀ n : OpName, ¬ n.Matches c) ↔
      ¬ OpName.nop.Matches c ∧ ¬ OpName.parse.Matches c ∧ ¬ OpName.pack.Matches c ∧
        ¬ OpName.render.Matches c ∧ ¬ OpName.srst.Matches c :=
    ⟨fun h => ⟨h _, h _, h _, h _, h _⟩, fun ⟨hn, hp, hk, hr, hs⟩ n => by cases n <;> assumption⟩
  rw [hall, matches_pack_iff, matches_render_iff, matches_formatN_iff rfl, matches_formatN_iff rfl,
    matches_formatN_iff rfl]
  simp only [OpName.op]
  omega

end Sys2Proof

namespace Sys2Proof.Machine

/-- A word other than SRST's, written to CMD of an idle block, is dispatched (20_memory R68 step 6). -/
theorem memWrite_cmd_of_idle {s : State} {v : Word} (hb : s.busy = false) (hv : v ≠ srstWord) (lat : Nat) :
    s.memWrite 0x008 4 v lat = dispatchWord v lat s := by
  have hl : validLoc s.params 0x008 4 = some .cmd := validLoc_offset (l := .cmd) trivial
  simp [State.memWrite, hl, hv, hb, Loc.readOnly]

/-- Settles O5, by the rows the word fails to match and by what a write to CMD does with it. -/
theorem illegalWordsAreRecordedAndDropped : Obligations.IllegalWordsAreRecordedAndDropped := by
  unfold Obligations.IllegalWordsAreRecordedAndDropped
  intro c
  constructor
  · rw [decode_error_iff, forall_not_matches_iff, field_ne_zero_iff (by decide),
      field_ne_zero_iff (by decide : 9 ≤ 23), field_bit, show field c 3 0 = c.toNat % 16 by simp [field_eq]]
    simp
  · rintro ⟨e, he⟩ s lat
    have hv : c ≠ srstWord := by
      rintro rfl
      cases he
    refine ⟨fun hb => ?_, fun hb => ?_⟩
    · rw [memWrite_cmd_of_idle hb hv, dispatchWord, he]
      rfl
    · exact memWrite_of_busy (l := .cmd) rfl hb nofun (fun h => hv h.2) lat

end Sys2Proof.Machine

/-!
SUPPORT. Command lines as text (30_encoding R99): the parts of a printed line, the numbers read back from
their decimal digits, and the statement about the assembler.
-/

namespace Sys2Proof.Machine

/-! ### The parts of a line -/

/-- A part of a line: some characters, none of them a separator. -/
def IsToken (w : List Char) : Prop := w ≠ [] ∧ ∀ c ∈ w, c ≠ ' ' ∧ c ≠ ','

/-- Characters that are no separators gather into the part being read. -/
theorem asmTokens_append (rest : List Char) : ∀ (w cur : List Char),
    (∀ c ∈ w, c ≠ ' ' ∧ c ≠ ',') → asmTokens (w ++ rest) cur = asmTokens rest (w.reverse ++ cur)
  | [], _, _ => rfl
  | c :: w, cur, h => by
      obtain ⟨hc, hw⟩ := List.forall_mem_cons.1 h
      rw [List.cons_append, asmTokens, if_neg (by simp [hc]), asmTokens_append rest w (c :: cur) hw]
      simp

theorem asmTokens_token {w : List Char} (hw : IsToken w) : asmTokens w [] = [w] := by
  obtain ⟨hne, hplain⟩ := hw
  have h := asmTokens_append [] w [] hplain
  rw [List.append_nil, List.append_nil] at h
  rw [h, asmTokens, List.reverse_reverse]
  simpa using hne

theorem asmTokens_token_sep {w : List Char} (hw : IsToken w) {c : Char} (hc : c = ' ' ∨ c = ',')
    (rest : List Char) : asmTokens (w ++ c :: rest) [] = w :: asmTokens rest [] := by
  obtain ⟨hne, hplain⟩ := hw
  rw [asmTokens_append _ w [] hplain, asmTokens, if_pos hc, if_neg (by simpa using hne)]
  simp

theorem asmTokens_space (rest : List Char) : asmTokens (' ' :: rest) [] = asmTokens rest [] := rfl

/-- The parts of a line's operands are the operands. -/
theorem asmTokens_asmOperands : ∀ ws : List (List Char), (∀ w ∈ ws, IsToken w) →
    asmTokens (asmOperands ws) [] = ws
  | [], _ => rfl
  | [w], h => asmTokens_token (h w (by simp))
  | w :: w' :: ws, h => by
      obtain ⟨hw, hws⟩ := List.forall_mem_cons.1 h
      rw [asmOperands, List.append_assoc, List.cons_append, asmTokens_token_sep hw (.inr rfl),
        List.cons_append, asmTokens_space, List.nil_append, asmTokens_asmOperands (w' :: ws) hws]
      simp

/-- The parts of a printed line are its mnemonic and its operands. -/
theorem asmTokens_line {mnemonic : List Char} {ws : List (List Char)} (hm : IsToken mnemonic)
    (hws : ∀ w ∈ ws, IsToken w) :
    asmTokens (mnemonic ++ ' ' :: asmOperands ws) [] = mnemonic :: ws := by
  rw [asmTokens_token_sep hm (.inl rfl), asmTokens_asmOperands ws hws]

/-! ### Numbers -/

/-- A decimal digit is read back, and is neither a separator nor the `x` of a hexadecimal number. -/
theorem digitChar_spec : ∀ d < 10,
    digitValue 10 (Char.ofNat (0x30 + d)) = some d ∧
    Char.ofNat (0x30 + d) ≠ ' ' ∧ Char.ofNat (0x30 + d) ≠ ',' ∧ Char.ofNat (0x30 + d) ≠ 'x' := by decide

theorem mem_decimal {c : Char} : ∀ {fuel n : Nat}, c ∈ decimal fuel n →
    ∃ d < 10, c = Char.ofNat (0x30 + d)
  | 0, _, h => by simp [decimal] at h
  | fuel + 1, n, h => by
      rw [decimal, List.mem_append, List.mem_singleton] at h
      rcases h with h | rfl
      · split at h
        · simp at h
        · exact mem_decimal h
      · exact ⟨n % 10, Nat.mod_lt _ (by decide), rfl⟩

theorem decimal_ne_nil (fuel n : Nat) : decimal (fuel + 1) n ≠ [] := by simp [decimal]

theorem isToken_decimal (fuel n : Nat) : IsToken (decimal (fuel + 1) n) := by
  refine ⟨decimal_ne_nil fuel n, fun c hc => ?_⟩
  obtain ⟨d, hd, rfl⟩ := mem_decimal hc
  obtain ⟨-, hspace, hcomma, -⟩ := digitChar_spec d hd
  exact ⟨hspace, hcomma⟩

theorem digitsValue_append_digit (radix : Nat) (c : Char) : ∀ (cs : List Char) (v : Nat),
    digitsValue radix (cs ++ [c]) v =
      (digitsValue radix cs v).bind fun u => (digitValue radix c).map (radix * u + ·)
  | [], v => by
      cases h : digitValue radix c <;> simp [digitsValue, h]
  | c' :: cs, v => by
      cases h : digitValue radix c' with
      | none => simp [digitsValue, h]
      | some d => simpa [digitsValue, h] using digitsValue_append_digit radix c cs (radix * v + d)

/-- The digits of a number stand for it, where the fuel covers them. -/
theorem digitsValue_decimal : ∀ {fuel n : Nat}, n < 10 ^ fuel →
    digitsValue 10 (decimal fuel n) 0 = some n
  | 0, n, h => by
      obtain rfl : n = 0 := by omega
      rfl
  | fuel + 1, n, h => by
      obtain ⟨hdigit, -⟩ := digitChar_spec (n % 10) (Nat.mod_lt _ (by decide))
      have hhigh : digitsValue 10 (if n < 10 then [] else decimal fuel (n / 10)) 0 = some (n / 10) := by
        split
        · next hn => rw [Nat.div_eq_of_lt hn]; rfl
        · exact digitsValue_decimal (by omega)
      rw [decimal, digitsValue_append_digit, hhigh, hdigit, Option.bind_some, Option.map_some,
        Nat.div_add_mod]

/-- A number without an `x` is decimal. -/
theorem asmNumber_of_no_x {cs : List Char} (hne : cs ≠ []) (hx : 'x' ∉ cs) :
    asmNumber cs = digitsValue 10 cs 0 := by
  unfold asmNumber
  split <;> simp_all

theorem asmNumber_decimal {n : Nat} (h : n < 1000) : asmNumber (decimal 3 n) = some n := by
  rw [asmNumber_of_no_x (decimal_ne_nil 2 n), digitsValue_decimal h]
  intro hx
  obtain ⟨d, hd, he⟩ := mem_decimal hx
  obtain ⟨-, -, -, hne⟩ := digitChar_spec d hd
  exact hne he.symm

/-! ### Lines -/

theorem asmCommand_pack {slot pos size dlc : Nat} (hslot : slot < 1000) (hpos : pos < 1000)
    (hsize : size < 1000) (hdlc : dlc < 1000) :
    asmCommand (asmText (.pack slot pos size dlc)) = some (.pack slot pos size dlc) := by
  have htokens : asmTokens (asmText (.pack slot pos size dlc)) [] =
      [['p', 'a', 'c', 'k'], decimal 3 slot, decimal 3 pos, decimal 3 size, decimal 3 dlc] :=
    asmTokens_line (mnemonic := ['p', 'a', 'c', 'k']) (by simp [IsToken]) (by simp [isToken_decimal])
  simp [asmCommand, htokens, asmNumber_decimal, hslot, hpos, hsize, hdlc]

theorem asmCommand_render {slot dlc : Nat} (idl : IdLen) (hslot : slot < 1000) (hdlc : dlc < 1000) :
    asmCommand (asmText (.render slot dlc idl)) = some (.render slot dlc idl) := by
  have hline : ∀ w, IsToken w → asmTokens
      (['r', 'e', 'n', 'd', 'e', 'r'] ++ ' ' :: asmOperands [decimal 3 slot, decimal 3 dlc, w]) [] =
        [['r', 'e', 'n', 'd', 'e', 'r'], decimal 3 slot, decimal 3 dlc, w] :=
    fun w hw => asmTokens_line (by simp [IsToken]) (by simp [isToken_decimal, hw])
  cases idl with
  | id3 =>
      have htokens : asmTokens (asmText (.render slot dlc .id3)) [] = _ :=
        hline ['i', 'd', '3'] (by simp [IsToken])
      simp [asmCommand, htokens, asmNumber_decimal, hslot, hdlc]
  | id8 =>
      have htokens : asmTokens (asmText (.render slot dlc .id8)) [] = _ :=
        hline ['i', 'd', '8'] (by simp [IsToken])
      simp [asmCommand, htokens, asmNumber_decimal, hslot, hdlc]

/-- The command of a printed line (30_encoding R99). -/
theorem asmCommand_asmText {i : Instr} (hwf : i.wf = true) : asmCommand (asmText i) = some i := by
  cases i with
  | nop | parse | srst => rfl
  | pack slot pos size dlc =>
      simp only [Instr.wf, Bool.and_eq_true, decide_eq_true_eq] at hwf
      exact asmCommand_pack (by omega) (by omega) (by omega) (by omega)
  | render slot dlc idl =>
      simp only [Instr.wf, Bool.and_eq_true, decide_eq_true_eq] at hwf
      exact asmCommand_render idl (by omega) (by omega)

/-- Settles O6: a printed line reads as its command, whose operands fit. -/
theorem assemblerReadsBackItsLines : Obligations.AssemblerReadsBackItsLines := by
  unfold Obligations.AssemblerReadsBackItsLines
  intro i hwf
  simp only [asmLine, asmCommand_asmText hwf, assemble, hwf, if_true]

end Sys2Proof.Machine

/-!
SUPPORT. The pseudo-instructions (30_encoding R101) run on an idle block: a run of data writes as a run of
stored words, a text written word by word, and the statements about them.
-/

namespace Sys2Proof.Machine

/-! ### Data writes, step by step -/

/-- A step that answers a next state begins a run. -/
theorem run_succ {s t : State} (h : step s = .next t) (k : Nat) :
    Host.Core.run Sys2Proof.core (k + 1) s = Host.Core.run Sys2Proof.core k t := by
  have h' : Sys2Proof.core.step s = .next t := h
  simp only [Host.Core.run, h']

theorem windowOffset_base {p : Params} {off : Nat} (h : off < 0x1000) :
    windowOffset p (p.base + off) = some off := by
  rw [windowOffset, if_pos (by simp only [Config.windowSize]; omega)]
  simp

/-- An idle block serves a data write at once. -/
theorem step_dataWr {s : State} {off : Nat} {v : Word} {rest : List HostOp} (hc : s.current = none)
    (hoff : off < 0x1000) (hbus : s.bus = dataWr s.params off v :: rest) :
    step s = (s.dequeued rest).memWrite off 4 v 0 := by
  have hw : windowOffset (s.dequeued rest).params (s.params.base + off) = some off :=
    windowOffset_base hoff
  simp [step, tick, hc, serveNext, hbus, dataWr, wr, serve, State.hostWrite, hw]

/-- The locations that store what a host writes to an idle block (20_memory R68 steps 7 and 8). -/
structure Loc.Stores (p : Params) (l : Loc) : Prop where
  mapped    : l.Mapped p.nacc
  inWindow  : l.offset < 0x1000
  writable  : l.readOnly = false
  notStatus : l ≠ .status
  notCmd    : l ≠ .cmd

/-- The operand registers store what is written to them. -/
theorem stores_of_operand {p : Params} {l : Loc} (hm : l.Mapped p.nacc) (h : l.operand = true) :
    l.Stores p := by
  cases l with
  | tlen | valLo | valHi | ridLo | ridHi => exact ⟨hm, by decide, rfl, nofun, nofun⟩
  | text w =>
      have hw : w < 64 := hm
      exact ⟨hm, by simp only [Loc.offset, textBase]; omega, rfl, nofun, nofun⟩
  | id | param | cmd | status | prsRes | frmId | frmLen | frmFlags | pckRes | frmData | accLo | accHi =>
      cases h

/-- Both halves of a mapped accumulator store what is written to them. -/
theorem stores_acc {p : Params} {k : Nat} (hnacc : p.nacc ≤ 16) (hk : k < p.nacc) :
    (Loc.accLo k).Stores p ∧ (Loc.accHi k).Stores p :=
  ⟨⟨hk, by simp only [Loc.offset]; omega, rfl, nofun, nofun⟩,
    ⟨hk, by simp only [Loc.offset]; omega, rfl, nofun, nofun⟩⟩

theorem step_dataWr_of_stores {s : State} {l : Loc} {v : Word} {rest : List HostOp}
    (hc : s.current = none) (hl : l.Stores s.params)
    (hbus : s.bus = dataWr s.params l.offset v :: rest) :
    step s = .next ((s.dequeued rest).storeLoc v l) := by
  rw [step_dataWr hc hl.inWindow hbus]
  exact memWrite_of_store (s := s.dequeued rest) (validLoc_offset hl.mapped) ((not_busy_iff s).2 hc)
    hl.writable hl.notStatus hl.notCmd v 0

/-- A run of words stored, the first first. -/
def State.storeAll (s : State) : List (Loc × Word) → State
  | [] => s
  | (l, v) :: ws => State.storeAll (s.storeLoc v l) ws

theorem storeAll_append (b : List (Loc × Word)) : ∀ (a : List (Loc × Word)) (s : State),
    s.storeAll (a ++ b) = (s.storeAll a).storeAll b
  | [], _ => rfl
  | (l, v) :: a, s => storeAll_append b a (s.storeLoc v l)

/-- The data writes of a run of words. -/
def dataWrs (p : Params) (ws : List (Loc × Word)) : List HostOp :=
  ws.map fun e => dataWr p e.1.offset e.2

theorem storeLoc_dequeued (s : State) (v : Word) (l : Loc) (rest : List HostOp) :
    (s.storeLoc v l).dequeued rest = (s.dequeued rest).storeLoc v l := by
  cases l <;> rfl

/-- Run on an idle block, data writes store their words and nothing else. -/
theorem run_dataWrs {p : Params} {rest : List HostOp} : ∀ (ws : List (Loc × Word)) {s : State},
    s.params = p → s.current = none → (∀ e ∈ ws, e.1.Stores p) → s.bus = dataWrs p ws ++ rest →
    Host.Core.run Sys2Proof.core ws.length s = .next ((s.dequeued rest).storeAll ws)
  | [], s, _, _, _, hbus => by
      have hs : s.dequeued rest = s := by
        obtain rfl : s.bus = rest := hbus
        rfl
      rw [hs]
      rfl
  | (l, v) :: ws, s, hp, hc, hws, hbus => by
      subst hp
      obtain ⟨hl, hws⟩ := List.forall_mem_cons.1 hws
      obtain ⟨-, -, -, -, -, -, -, -, -, -, -, -, hparams, hcur, hbus', -⟩ :=
        storeLoc_frame (s.dequeued (dataWrs s.params ws ++ rest)) v l
      have hstep := step_dataWr_of_stores (rest := dataWrs s.params ws ++ rest) hc hl hbus
      have hrun := run_dataWrs ws hparams (hcur.trans hc) hws hbus'
      rw [storeLoc_dequeued] at hrun
      exact (run_succ hstep ws.length).trans hrun

/-! ### Values and texts by words -/

theorem withHigh_withLow_halves (v w : Dword) : withHigh (withLow w (lowHalf v)) (highHalf v) = v := by
  refine BitVec.eq_of_toNat_eq ?_
  have hv := v.isLt
  rw [withHigh_toNat, withLow_toNat, lowHalf_toNat, highHalf_toNat]
  omega

theorem withHigh_withLow_zero (w : Dword) : withHigh (withLow w 0) 0 = 0 :=
  withHigh_withLow_halves 0 w

/-- Byte `j` of a text's word is the text's character there, or 0x00 past its end (30_encoding R101). -/
theorem byteOf_textWord (txt : List Byte) (k : Nat) {j : Nat} (hj : j < 4) :
    byteOf (textWord txt k) j = txt.getD (k + j) 0 := by
  have hlow : ∀ {m : Nat} (x : BitVec m) (b : Byte), (x ++ b).extractLsb' 0 8 = b :=
    fun x b => BitVec.extractLsb'_append_eq_right
  have hpeel : ∀ {m : Nat} (x : BitVec m) (b : Byte) (n : Nat), 8 ≤ n →
      (x ++ b).extractLsb' n 8 = x.extractLsb' (n - 8) 8 :=
    fun x b n => BitVec.extractLsb'_append_eq_of_le
  unfold byteOf textWord wordOfBytes
  match j, hj with
  | 0, _ | 1, _ | 2, _ | 3, _ => simp [hlow, hpeel]

/-- A memory after the first `n` words of a text are written from offset `x`. -/
def Memory.writeText (m : Memory) (x : Nat) (txt : List Byte) : Nat → Memory
  | 0 => m
  | n + 1 => (Memory.writeText m x txt n).writeWord (x + 4 * n) (textWord txt (4 * n))

theorem Memory.wf_writeText {m : Memory} (h : m.wf = true) (x : Nat) (txt : List Byte) :
    ∀ n, (m.writeText x txt n).wf = true
  | 0 => h
  | n + 1 => Memory.wf_writeWord _ _ (Memory.wf_writeText h x txt n)

theorem Memory.read_writeText_of_out (m : Memory) (x : Nat) (txt : List Byte) {y : Nat} :
    ∀ n, (y < x ∨ x + 4 * n ≤ y) → (m.writeText x txt n).read y = m.read y
  | 0, _ => rfl
  | n + 1, h => by
      rw [Memory.writeText, Memory.read_writeWord_of_out _ _ (by omega),
        Memory.read_writeText_of_out m x txt n (by omega)]

/-- The words written hold the text, padded with 0x00. -/
theorem Memory.read_writeText_of_in {m : Memory} (h : m.wf = true) (x : Nat) (txt : List Byte) {k : Nat} :
    ∀ n, k < 4 * n → (m.writeText x txt n).read (x + k) = txt.getD k 0
  | n + 1, hk => by
      rw [Memory.writeText]
      by_cases hlow : k < 4 * n
      · rw [Memory.read_writeWord_of_out _ _ (by omega), Memory.read_writeText_of_in h x txt n hlow]
      · obtain ⟨j, rfl⟩ := Nat.exists_eq_add_of_le (Nat.le_of_not_lt hlow)
        rw [← Nat.add_assoc, Memory.read_writeWord_of_in _ (Memory.wf_writeText h x txt n) (by omega),
          byteOf_textWord txt (4 * n) (by omega)]

/-! ### setval and settext -/

theorem run_setval {s : State} {rest : List HostOp} (hc : s.current = none) (v : Dword)
    (hbus : s.bus = setval s.params v ++ rest) :
    Host.Core.run Sys2Proof.core 2 s = .next { s with val := v, bus := rest } := by
  have hrun := run_dataWrs [(.valLo, lowHalf v), (.valHi, highHalf v)] rfl hc
    (List.forall_mem_cons.2 ⟨stores_of_operand trivial rfl,
      List.forall_mem_singleton.2 (stores_of_operand trivial rfl)⟩) hbus
  have hval : withHigh (withLow s.val (lowHalf v)) (highHalf v) = v := withHigh_withLow_halves v s.val
  refine hrun.trans ?_
  simp only [State.storeAll, State.storeLoc, State.dequeued, hval]

/-- The words of a text that `settext` writes to TEXT (30_encoding R101). -/
def textWords (txt : List Byte) (n : Nat) : List (Loc × Word) :=
  (List.range n).map fun w => (.text w, textWord txt (4 * w))

theorem storeAll_textWords (s : State) (txt : List Byte) : ∀ n,
    s.storeAll (textWords txt n) = { s with mem := s.mem.writeText textBase txt n }
  | 0 => rfl
  | n + 1 => by
      rw [textWords, List.range_succ, List.map_append, storeAll_append, ← textWords,
        storeAll_textWords s txt n]
      rfl

/-- The accesses of `settext` are the words of the text and TLEN. -/
theorem settext_eq_some {p : Params} {txt : List Byte} {ops : List HostOp}
    (h : settext p txt = some ops) : txt.length ≤ 256 ∧
      ops = dataWrs p (textWords txt ((txt.length + 3) / 4) ++ [(.tlen, BitVec.ofNat 32 txt.length)]) := by
  unfold settext at h
  split at h
  · next hlen =>
    cases h
    exact ⟨hlen, by simp [dataWrs, textWords, Loc.offset, textBase]⟩
  · cases h

theorem run_settext {s : State} {rest ops : List HostOp} {txt : List Byte} (hc : s.current = none)
    (hops : settext s.params txt = some ops) (hbus : s.bus = ops ++ rest) :
    Host.Core.run Sys2Proof.core ops.length s =
      .next { s with mem := s.mem.writeText textBase txt ((txt.length + 3) / 4),
                     tlen := saturateTlen (BitVec.ofNat 32 txt.length), bus := rest } := by
  obtain ⟨hlen, rfl⟩ := settext_eq_some hops
  have hstores : ∀ e ∈ textWords txt ((txt.length + 3) / 4) ++ [(Loc.tlen, BitVec.ofNat 32 txt.length)],
      e.1.Stores s.params := by
    intro e he
    rcases List.mem_append.1 he with he | he
    · obtain ⟨w, hw, rfl⟩ := List.mem_map.1 he
      have hw : w < (txt.length + 3) / 4 := List.mem_range.1 hw
      exact stores_of_operand (show w < 64 by omega) rfl
    · cases List.mem_singleton.1 he
      exact stores_of_operand trivial rfl
  have hrun := run_dataWrs _ rfl hc hstores hbus
  rw [storeAll_append, storeAll_textWords] at hrun
  rw [dataWrs, List.length_map]
  exact hrun

/-- Settles O52, from the words the accesses store. -/
theorem setvalAndSettextLoadTheirOperands : Obligations.SetvalAndSettextLoadTheirOperands := by
  unfold Obligations.SetvalAndSettextLoadTheirOperands
  intro s rest hc hwf
  refine ⟨run_setval hc, fun txt ops hops hbus => ⟨_, run_settext hc hops hbus, rfl, ?_⟩⟩
  obtain ⟨hlen, -⟩ := settext_eq_some hops
  have hin := fun i => Memory.read_writeText_of_in hwf textBase txt (k := i) ((txt.length + 3) / 4)
  have hout := fun x => Memory.read_writeText_of_out s.mem textBase txt (y := x) ((txt.length + 3) / 4)
  refine ⟨?_, fun i hi => ?_, fun i hlo hhi => ?_, fun i hi => ?_, hout⟩
  · rw [saturateTlen_toNat, BitVec.toNat_ofNat]
    omega
  · rw [State.textByte, if_pos (by simp only [Config.textSize]; omega), hin i (by omega)]
  · rw [State.textByte, if_pos (by simp only [Config.textSize]; omega), hin i hhi,
      List.getD_eq_default _ _ hlo]
  · simp only [State.textByte, hout (textBase + i) (by omega)]

/-! ### setrid, clracc and clrsts -/

theorem run_setrid {s : State} {rest ops : List HostOp} {txt : List Byte} (hc : s.current = none)
    (hops : setrid s.params txt = some ops) (hbus : s.bus = ops ++ rest) :
    Host.Core.run Sys2Proof.core 2 s = .next { s with mem := s.mem.writeText ridBase txt 2, bus := rest } := by
  unfold setrid at hops
  split at hops
  · cases hops
    exact run_dataWrs [(.ridLo, textWord txt 0), (.ridHi, textWord txt 4)] rfl hc
      (List.forall_mem_cons.2 ⟨stores_of_operand trivial rfl,
        List.forall_mem_singleton.2 (stores_of_operand trivial rfl)⟩) hbus
  · cases hops

theorem run_clracc {s : State} {rest : List HostOp} {k : Nat} (hc : s.current = none)
    (hnacc : s.params.nacc ≤ 16) (hk : k < s.params.nacc) (hbus : s.bus = clracc s.params k ++ rest) :
    Host.Core.run Sys2Proof.core 2 s = .next ((s.dequeued rest).setAcc k 0) := by
  obtain ⟨hlo, hhi⟩ := stores_acc hnacc hk
  have hrun := run_dataWrs [(.accLo k, 0), (.accHi k, 0)] rfl hc
    (List.forall_mem_cons.2 ⟨hlo, List.forall_mem_singleton.2 hhi⟩) hbus
  refine hrun.trans ?_
  simp only [State.storeAll, State.storeLoc]
  rw [accAt_setAcc_self _ _ _ (by omega), withHigh_withLow_zero]
  simp [State.setAcc]

theorem run_clrsts {s : State} {rest : List HostOp} (hc : s.current = none)
    (hbus : s.bus = clrsts s.params ++ rest) :
    Host.Core.run Sys2Proof.core 1 s = .next ((s.dequeued rest).clearStatus 0x1E) := by
  have hstep : step s = .next ((s.dequeued rest).clearStatus 0x1E) :=
    (step_dataWr hc (by decide) hbus).trans (memWrite_status _ _ 0)
  rw [run_succ hstep]
  rfl

/-- Settles O53, from the words the accesses store and from the write to STATUS. -/
theorem setridClraccClrstsDoTheirWrites : Obligations.SetridClraccClrstsDoTheirWrites := by
  unfold Obligations.SetridClraccClrstsDoTheirWrites
  intro s rest hc hwf hnacc
  refine ⟨fun txt ops hops hbus => ⟨_, run_setrid hc hops hbus, rfl, ?_, ?_⟩,
    fun k hk hbus => ⟨_, run_clracc hc hnacc hk hbus, rfl, ?_, ?_⟩, fun hbus => ?_⟩
  · exact fun k hk => Memory.read_writeText_of_in hwf ridBase txt 2 hk
  · exact fun x hx => Memory.read_writeText_of_out s.mem ridBase txt 2 hx
  · exact accAt_setAcc_self _ k 0 (by omega)
  · exact fun j hj => accAt_setAcc_of_ne _ 0 hj
  · rw [run_clrsts hc hbus]
    simp [State.clearStatus, State.dequeued]

/-! ### wait -/

/-- Settles O54, by the two outcomes of a poll. -/
theorem waitPollsUntilIdle : Obligations.WaitPollsUntilIdle := by
  unfold Obligations.WaitPollsUntilIdle
  intro s t h
  have hpoll := serve_cases .wait s
  simp only [reduceCtorEq, false_and, exists_false, false_or, true_and, or_false] at hpoll
  rcases hpoll with ⟨hb, h'⟩ | ⟨hb, h'⟩ <;> cases h'.symm.trans h
  · exact ⟨rfl, rfl, fun _ => rfl, fun hb' => absurd (hb.symm.trans hb') nofun⟩
  · exact ⟨rfl, rfl, fun hb' => absurd (hb.symm.trans hb') nofun, fun _ => rfl⟩

end Sys2Proof.Machine

/-!
SUPPORT. The nibble codec (40_nibble): the value of each range of octets, the octet of each range of nibbles,
and the statements about the two together.
-/

namespace Sys2Proof.Machine

/-! ### The decoder, by the range of the octet (R120) -/

theorem nib_of_digit {c : Byte} (h : 0x30 ≤ c.toNat ∧ c.toNat ≤ 0x39) : nib c = c.toNat - 0x30 := by
  simp only [nib, if_pos h]

theorem nib_of_upper {c : Byte} (h : 0x41 ≤ c.toNat ∧ c.toNat ≤ 0x46) :
    nib c = c.toNat - 0x41 + 10 := by
  have hdigit : ¬ (0x30 ≤ c.toNat ∧ c.toNat ≤ 0x39) := by omega
  simp only [nib, if_neg hdigit, if_pos h]

theorem nib_of_lower {c : Byte} (h : 0x61 ≤ c.toNat ∧ c.toNat ≤ 0x66) :
    nib c = c.toNat - 0x61 + 10 := by
  have hdigit : ¬ (0x30 ≤ c.toNat ∧ c.toNat ≤ 0x39) := by omega
  have hupper : ¬ (0x41 ≤ c.toNat ∧ c.toNat ≤ 0x46) := by omega
  simp only [nib, if_neg hdigit, if_neg hupper, if_pos h]

theorem nib_of_not_hex {c : Byte} (hdigit : ¬ (0x30 ≤ c.toNat ∧ c.toNat ≤ 0x39))
    (hupper : ¬ (0x41 ≤ c.toNat ∧ c.toNat ≤ 0x46)) (hlower : ¬ (0x61 ≤ c.toNat ∧ c.toNat ≤ 0x66)) :
    nib c = 16 := by
  simp only [nib, if_neg hdigit, if_neg hupper, if_neg hlower]

/-- The octets the decoder gives a nibble for. -/
theorem range_of_nib_le {c : Byte} (h : nib c ≤ 15) :
    (0x30 ≤ c.toNat ∧ c.toNat ≤ 0x39) ∨ (0x41 ≤ c.toNat ∧ c.toNat ≤ 0x46) ∨
      (0x61 ≤ c.toNat ∧ c.toNat ≤ 0x66) := by
  by_contra hnone
  obtain ⟨hdigit, hletter⟩ := not_or.1 hnone
  obtain ⟨hupper, hlower⟩ := not_or.1 hletter
  rw [nib_of_not_hex hdigit hupper hlower] at h
  omega

/-- Settles O17, from the decoder's value on each range. -/
theorem nibbleDecoderTable : Obligations.NibbleDecoderTable := by
  unfold Obligations.NibbleDecoderTable
  intro c
  refine ⟨fun h => ?_, nib_of_digit, fun h => ?_, nib_of_upper, fun h => ?_, nib_of_lower, fun h => ?_⟩
  all_goals exact nib_of_not_hex (by omega) (by omega) (by omega)

/-! ### The encoder, by the range of the nibble (R122) -/

/-- The octet of the letter A in the letter case of HEXCASE. -/
def hexLetterBase : HexCase → Nat
  | .upper => 0x41
  | .lower => 0x61

theorem hexch_toNat_of_digit (hc : HexCase) {n : Nat} (h : n ≤ 9) : (hexch hc n).toNat = 0x30 + n := by
  unfold hexch
  rw [if_pos h, BitVec.toNat_ofNat]
  omega

theorem hexch_toNat_of_letter (hc : HexCase) {n : Nat} (hlo : 10 ≤ n) (hhi : n ≤ 15) :
    (hexch hc n).toNat = hexLetterBase hc + (n - 10) := by
  unfold hexch
  rw [if_neg (by omega)]
  cases hc <;> simp only [hexLetterBase, BitVec.toNat_ofNat] <;> omega

/-! ### The round trip (R123) -/

theorem nib_hexch (hc : HexCase) {n : Nat} (h : n ≤ 15) : nib (hexch hc n) = n := by
  by_cases hdigit : n ≤ 9
  · have hch := hexch_toNat_of_digit hc hdigit
    rw [nib_of_digit (by omega)]
    omega
  · have hch := hexch_toNat_of_letter hc (by omega) h
    cases hc <;> simp only [hexLetterBase] at hch
    · rw [nib_of_upper (by omega)]
      omega
    · rw [nib_of_lower (by omega)]
      omega

theorem hexch_nib_of_digit (hc : HexCase) {c : Byte} (h : 0x30 ≤ c.toNat ∧ c.toNat ≤ 0x39) :
    hexch hc (nib c) = c := by
  have hnib := nib_of_digit h
  apply BitVec.eq_of_toNat_eq
  rw [hexch_toNat_of_digit hc (by omega)]
  omega

/-- Each letter comes back in the case of HEXCASE. -/
theorem hexch_nib_toNat_of_letter (hc : HexCase) {c : Byte} {base : Nat} (hnib : nib c = c.toNat - base + 10)
    (h : base ≤ c.toNat ∧ c.toNat ≤ base + 5) :
    (hexch hc (nib c)).toNat = hexLetterBase hc + (c.toNat - base) := by
  rw [hexch_toNat_of_letter hc (by omega) (by omega)]
  omega

theorem hexch_nib_of_upper (hc : HexCase) {c : Byte} (h : 0x41 ≤ c.toNat ∧ c.toNat ≤ 0x46) :
    hexch hc (nib c) = if hc = .upper then c else c + 0x20 := by
  have hch := hexch_nib_toNat_of_letter hc (nib_of_upper h) h
  cases hc <;> simp only [hexLetterBase, reduceCtorEq, if_true, if_false] at hch ⊢ <;> bv_omega

theorem hexch_nib_of_lower (hc : HexCase) {c : Byte} (h : 0x61 ≤ c.toNat ∧ c.toNat ≤ 0x66) :
    hexch hc (nib c) = if hc = .upper then c - 0x20 else c := by
  have hch := hexch_nib_toNat_of_letter hc (nib_of_lower h) h
  cases hc <;> simp only [hexLetterBase, reduceCtorEq, if_true, if_false] at hch ⊢ <;> bv_omega

/-- Settles O18, from the octet each range of hex digits comes back as. -/
theorem nibbleRoundTrip : Obligations.NibbleRoundTrip := by
  unfold Obligations.NibbleRoundTrip
  refine fun hc => ⟨fun n => nib_hexch hc, fun c hnib => ?_⟩
  rcases range_of_nib_le hnib with h | h | h
  · rw [hexch_nib_of_digit hc h, if_pos (.inl h.2)]
  · have hdigit : ¬ c.toNat ≤ 0x39 := by omega
    have hlower : ¬ 0x61 ≤ c.toNat := by omega
    rw [hexch_nib_of_upper hc h]
    cases hc <;> simp [hdigit, hlower, h.2]
  · have hdigit : ¬ c.toNat ≤ 0x39 := by omega
    have hupper : ¬ c.toNat ≤ 0x46 := by omega
    rw [hexch_nib_of_lower hc h]
    cases hc <;> simp [hdigit, hupper, h.1]

end Sys2Proof.Machine

/-!
SUPPORT. The signal bit-packer (41_packer): its checks as one code, its merge bit by bit, what a PACK that
passes its checks leaves in the accumulator file, and the statements about them.
-/

namespace Sys2Proof.Machine

/-! ### The checks (R131, R132) -/

theorem canon_iff_mem (d : Nat) :
    canon d = true ↔ d ∈ [0, 1, 2, 3, 4, 5, 6, 7, 8, 12, 16, 20, 24, 32, 48, 64] :=
  List.contains_iff_mem

theorem packCheck_value (nacc slot pos size dlc : Nat) :
    (packCheck nacc slot pos size dlc).value =
      if slot ≥ nacc then 1
      else if dlc ∉ [0, 1, 2, 3, 4, 5, 6, 7, 8, 12, 16, 20, 24, 32, 48, 64] then 2
      else if size = 0 ∨ size > 64 then 3
      else if pos + size > 8 * dlc then 4
      else if 8 * dlc - pos > 64 then 5
      else 0 := by
  simp only [packCheck, Bool.not_eq_true', ← Bool.not_eq_true, canon_iff_mem]
  split_ifs <;> rfl

theorem PckCode.value_eq_zero_iff (c : PckCode) : c.value = 0 ↔ c = .ok := by
  cases c <;> decide

/-! ### The merge, bit by bit (R133) -/

theorem packMask_getLsbD (size b : Nat) :
    (packMask size).getLsbD b = decide (b < 64 ∧ b < size) := by
  rw [packMask, BitVec.getLsbD_ofNat, Nat.testBit_two_pow_sub_one, Bool.decide_and]

theorem packShift_eq (pos size dlc : Nat) : packShift pos size dlc = 8 * dlc - pos - size :=
  Nat.sub_right_comm _ _ _

theorem packMerge_getLsbD (acc val : Dword) {pos size dlc b : Nat} (hfit : pos + size ≤ 8 * dlc) (hb : b < 64) :
    (packMerge acc val pos size dlc).getLsbD b =
      if 8 * dlc - pos - size ≤ b ∧ b < 8 * dlc - pos then val.getLsbD (b - (8 * dlc - pos - size))
      else acc.getLsbD b := by
  simp only [packMerge, packShift_eq, BitVec.getLsbD_or, BitVec.getLsbD_and, BitVec.getLsbD_not,
    BitVec.getLsbD_shiftLeft, packMask_getLsbD]
  by_cases hlo : 8 * dlc - pos - size ≤ b
  · by_cases hhi : b < 8 * dlc - pos
    · have hin : b - (8 * dlc - pos - size) < 64 ∧ b - (8 * dlc - pos - size) < size := by omega
      simp [hb, hlo, hhi, hin, Nat.not_lt.2 hlo]
    · have hout : ¬ b - (8 * dlc - pos - size) < size := by omega
      simp [hb, hhi, hout]
  · simp [hb, hlo, Nat.lt_of_not_le hlo]

/-- A field merged twice is merged (R136). -/
theorem packMerge_packMerge (acc val : Dword) {pos size dlc : Nat} (hfit : pos + size ≤ 8 * dlc) :
    packMerge (packMerge acc val pos size dlc) val pos size dlc = packMerge acc val pos size dlc := by
  refine BitVec.eq_of_getLsbD_eq fun b hb => ?_
  rw [packMerge_getLsbD _ val hfit hb]
  split
  · next hin => rw [packMerge_getLsbD acc val hfit hb, if_pos hin]
  · rfl

/-! ### A PACK (R132, R133) -/

@[simp] theorem accAt_finishPck (s : State) (c : PckCode) (op : BitVec 2) (k : Nat) :
    (s.finishPck c op).accAt k = s.accAt k := rfl

theorem exec_pack_of_ok {s : State} {slot pos size dlc : Nat}
    (hok : packCheck s.params.nacc slot pos size dlc = .ok) :
    exec (.pack slot pos size dlc) s =
      .next ((s.setAcc slot (packMerge (s.accAt slot) s.val pos size dlc)).finishPck .ok lastopPack) := by
  obtain ⟨-, h⟩ | ⟨hne, -⟩ := execPack_cases slot pos size dlc s
  · exact h
  · exact absurd hok hne

section Packed

variable {s t : State} {slot pos size dlc : Nat} (hnacc : s.params.nacc ≤ 16)
  (hok : packCheck s.params.nacc slot pos size dlc = .ok) (ht : exec (.pack slot pos size dlc) s = .next t)
include hnacc hok ht

theorem accAt_of_pack : t.accAt slot = packMerge (s.accAt slot) s.val pos size dlc := by
  obtain ⟨hslot, -⟩ := (packCheck_ok_iff ..).1 hok
  cases (exec_pack_of_ok hok).symm.trans ht
  rw [accAt_finishPck, accAt_setAcc_self s slot _ (by omega)]

/-- The bits of the slot: the field holds the low SIZE bits of VAL (R133), the others are kept (R134). -/
theorem accAt_of_pack_getLsbD {b : Nat} (hb : b < 64) :
    (t.accAt slot).getLsbD b =
      if 8 * dlc - pos - size ≤ b ∧ b < 8 * dlc - pos then s.val.getLsbD (b - (8 * dlc - pos - size))
      else (s.accAt slot).getLsbD b := by
  obtain ⟨-, -, -, -, hfit, -⟩ := (packCheck_ok_iff ..).1 hok
  rw [accAt_of_pack hnacc hok ht, packMerge_getLsbD _ _ hfit hb]

theorem accAt_of_pack_getLsbD_field {b : Nat} (hb : b < size) :
    (t.accAt slot).getLsbD (8 * dlc - pos - size + b) = s.val.getLsbD b := by
  obtain ⟨-, -, -, -, hfit, hwide⟩ := (packCheck_ok_iff ..).1 hok
  rw [accAt_of_pack_getLsbD hnacc hok ht (by omega), if_pos (by omega), Nat.add_sub_cancel_left]

end Packed

/-- A PACK repeated at once (R136). -/
theorem exec_pack_again {s t : State} {slot pos size dlc : Nat}
    (hok : packCheck s.params.nacc slot pos size dlc = .ok) (ht : exec (.pack slot pos size dlc) s = .next t) :
    exec (.pack slot pos size dlc) t = .next t := by
  obtain ⟨-, -, -, -, hfit, -⟩ := (packCheck_ok_iff ..).1 hok
  have hacc := setAcc_setAcc_of_idempotent s slot (f := (packMerge · s.val pos size dlc))
    fun acc => packMerge_packMerge acc s.val hfit
  cases (exec_pack_of_ok hok).symm.trans ht
  refine (exec_pack_of_ok ?_).trans (congrArg (fun u => Host.Outcome.next (u.finishPck .ok lastopPack)) hacc)
  exact hok

/-! ### The statements -/

/-- Settles O19, by whether the checks pass. -/
theorem packReportsTheFirstFailingCheck : Obligations.PackReportsTheFirstFailingCheck := by
  unfold Obligations.PackReportsTheFirstFailingCheck
  intro s slot pos size dlc
  rw [← packCheck_value]
  obtain ⟨hok, ht⟩ | ⟨hne, ht⟩ := execPack_cases slot pos size dlc s
  · refine ⟨_, ht, by rw [hok]; rfl, rfl, rfl, rfl, fun hcode => absurd rfl hcode, fun _ hnacc => ?_⟩
    exact accAt_of_pack hnacc hok ht
  · refine ⟨_, ht, rfl, rfl, rfl, rfl, fun _ => rfl, fun hcode => ?_⟩
    exact absurd ((PckCode.value_eq_zero_iff _).1 hcode) hne

/-- Settles O20, from the bits of the slot a PACK leaves. -/
theorem packMergesOnlyItsField : Obligations.PackMergesOnlyItsField := by
  unfold Obligations.PackMergesOnlyItsField
  intro s slot pos size dlc hnacc hslot hdlc hpos hsize hfit hwide
  have hok : packCheck s.params.nacc slot pos size dlc = .ok :=
    (packCheck_ok_iff ..).2 ⟨hslot, (canon_iff_mem dlc).2 hdlc, hpos, hsize, hfit, hwide⟩
  have ht := exec_pack_of_ok hok
  exact ⟨_, ht, rfl, fun b hb => accAt_of_pack_getLsbD hnacc hok ht hb,
    fun k hk => accAt_setAcc_of_ne s _ hk⟩

/-- Settles O21: the merge is idempotent, and the second PACK keeps the bits outside its own field. -/
theorem packComposesAndIsIdempotent : Obligations.PackComposesAndIsIdempotent := by
  unfold Obligations.PackComposesAndIsIdempotent
  intro s t slot pos size dlc hnacc hok ht
  refine ⟨exec_pack_again hok ht, fun v pos' size' dlc' hok' hdisj => ?_⟩
  have hparams : t.params = s.params := by cases (exec_pack_of_ok hok).symm.trans ht; rfl
  rw [← hparams] at hok'
  have hu := exec_pack_of_ok (s := { t with val := v }) hok'
  have hnacc' : t.params.nacc ≤ 16 := hparams ▸ hnacc
  refine ⟨_, hu, fun b hb => ?_,
    fun b hb => accAt_of_pack_getLsbD_field (s := { t with val := v }) hnacc' hok' hu hb⟩
  obtain ⟨-, -, -, -, hfit, hwide⟩ := (packCheck_ok_iff ..).1 hok
  rw [accAt_of_pack_getLsbD (s := { t with val := v }) hnacc' hok' hu (by omega), if_neg (by omega)]
  exact accAt_of_pack_getLsbD_field hnacc hok ht hb

end Sys2Proof.Machine

/-!
SUPPORT. RENDER (42_render): its checks as one code, its text character by character, the state a RENDER that
passes its checks leaves, and the statements about one RENDER.
-/

namespace Sys2Proof.Machine

/-! ### The checks (R151) -/

theorem renderCheck_value (nacc slot dlc : Nat) :
    (renderCheck nacc slot dlc).value =
      if slot ≥ nacc then 1
      else if dlc ∉ [0, 1, 2, 3, 4, 5, 6, 7, 8, 12, 16, 20, 24, 32, 48, 64] then 2
      else 0 := by
  simp only [renderCheck, Bool.not_eq_true', ← Bool.not_eq_true, canon_iff_mem]
  split_ifs <;> rfl

/-! ### The text (R152) -/

/-- The identifier characters of a RENDER: RID as it stands. -/
def renderIdent (s : State) (idl : IdLen) : List Byte := (List.range idl.chars).map s.ridByte

/-- The payload characters of a RENDER: the digits of the accumulator, most significant first. -/
def renderPayload (s : State) (slot dlc : Nat) : List Byte :=
  (List.range (2 * dlc)).map (renderDigit s.params.hexCase (renderValue (s.accAt slot) dlc) dlc)

theorem renderText_eq (s : State) (slot dlc : Nat) (idl : IdLen) :
    renderText s slot dlc idl = renderIdent s idl ++ chHash :: renderPayload s slot dlc := by
  simp [renderText, renderIdent, renderPayload]

@[simp] theorem renderIdent_length (s : State) (idl : IdLen) : (renderIdent s idl).length = idl.chars := by
  simp [renderIdent]

theorem renderText_getD_of_ident (s : State) (slot dlc : Nat) {idl : IdLen} {k : Nat} (hk : k < idl.chars) :
    (renderText s slot dlc idl).getD k 0 = s.ridByte k := by
  rw [renderText_eq, List.getD_append _ _ _ _ (by simpa using hk)]
  simp [renderIdent, hk]

theorem renderText_getD_hash (s : State) (slot dlc : Nat) (idl : IdLen) :
    (renderText s slot dlc idl).getD idl.chars 0 = chHash := by
  rw [renderText_eq, List.getD_append_right _ _ _ _ (by simp)]
  simp

theorem renderText_getD_of_payload (s : State) (slot : Nat) {dlc : Nat} (idl : IdLen) {j : Nat} (hj : j < 2 * dlc) :
    (renderText s slot dlc idl).getD (idl.chars + 1 + j) 0 =
      renderDigit s.params.hexCase (renderValue (s.accAt slot) dlc) dlc j := by
  rw [renderText_eq, List.getD_append_right _ _ _ _ (by simp; omega), renderIdent_length,
    show idl.chars + 1 + j - idl.chars = j + 1 by omega]
  simp [renderPayload, hj]

/-- No digit written depends on the bits above the low DLC bytes, so `v` may be read as the accumulator. -/
theorem renderDigit_renderValue (hc : HexCase) (acc : Dword) {dlc j : Nat} (hj : j < 2 * dlc) :
    renderDigit hc (renderValue acc dlc) dlc j = hexch hc (acc.toNat / 16 ^ (2 * dlc - 1 - j) % 16) := by
  have hsplit : 2 ^ (8 * dlc) = 16 ^ (2 * dlc - 1 - j) * (16 * 16 ^ j) := by
    rw [← Nat.pow_succ', ← Nat.pow_add, show 16 = 2 ^ 4 from rfl, ← Nat.pow_mul]
    congr 1
    omega
  rw [renderDigit, renderValue, hsplit, Nat.mod_mul_right_div_self, Nat.mod_mul_right_mod]

theorem renderText_fits (s : State) {nacc slot dlc : Nat} (idl : IdLen) (hok : renderCheck nacc slot dlc = .ok) :
    (renderText s slot dlc idl).length ≤ 256 :=
  (renderText_length_le s idl hok).trans (by decide)

/-! ### The state after a RENDER (R152, R153) -/

theorem exec_render_of_ok {s : State} {slot dlc : Nat} (idl : IdLen)
    (hok : renderCheck s.params.nacc slot dlc = .ok) :
    exec (.render slot dlc idl) s =
      .next ((s.putText (renderText s slot dlc idl)).finishPck .ok lastopRender) := by
  obtain ⟨-, h⟩ | ⟨hne, -⟩ := execRender_cases slot dlc idl s
  · exact h
  · exact absurd hok hne

@[simp] theorem textByte_finishPck (s : State) (c : PckCode) (op : BitVec 2) (k : Nat) :
    (s.finishPck c op).textByte k = s.textByte k := rfl

theorem textByte_putText (s : State) {txt : List Byte} (hwf : s.mem.wf = true) (hlen : txt.length ≤ 256)
    {k : Nat} (hk : k < txt.length) : (s.putText txt).textByte k = txt.getD k 0 :=
  textByte_writeBytes s txt hwf k hk (by omega)

theorem putText_tlen_toNat (s : State) {txt : List Byte} (hlen : txt.length ≤ 256) :
    (s.putText txt).tlen.toNat = txt.length := by
  rw [putText_tlen, BitVec.toNat_ofNat]
  omega

/-! ### The statements about one RENDER -/

/-- Settles O22, by whether the checks pass. -/
theorem renderReportsTheFirstFailingCheck : Obligations.RenderReportsTheFirstFailingCheck := by
  unfold Obligations.RenderReportsTheFirstFailingCheck
  intro s slot dlc idl
  rw [← renderCheck_value]
  obtain ⟨hok, ht⟩ | ⟨-, ht⟩ := execRender_cases slot dlc idl s
  · exact ⟨_, ht, by rw [hok]; rfl, rfl, rfl, rfl, fun hcode => absurd rfl hcode⟩
  · exact ⟨_, ht, rfl, rfl, rfl, rfl, fun _ => rfl⟩

/-- Settles O23, from the characters of the rendered text and their places in TEXT. -/
theorem renderWritesTheFrameText : Obligations.RenderWritesTheFrameText := by
  unfold Obligations.RenderWritesTheFrameText
  intro s slot dlc idl hwf hslot hdlc
  have hok : renderCheck s.params.nacc slot dlc = .ok :=
    (renderCheck_ok_iff ..).2 ⟨hslot, (canon_iff_mem dlc).2 hdlc⟩
  have hlen := renderText_length s slot dlc idl
  have hmax := renderText_fits s idl hok
  have hbyte : ∀ k, k < idl.chars + 1 + 2 * dlc →
      (s.putText (renderText s slot dlc idl)).textByte k = (renderText s slot dlc idl).getD k 0 :=
    fun k hk => textByte_putText s hwf hmax (hlen ▸ hk)
  refine ⟨_, exec_render_of_ok idl hok, rfl, (putText_tlen_toNat s hmax).trans hlen, fun k hk => ?_, ?_,
    fun j hj => ?_, fun x hx => ?_⟩
  · rw [textByte_finishPck, hbyte k (by omega), renderText_getD_of_ident s slot dlc hk]
  · rw [textByte_finishPck, hbyte _ (by omega), renderText_getD_hash, chHash]
  · rw [textByte_finishPck, hbyte _ (by omega), renderText_getD_of_payload s slot idl hj,
      renderDigit_renderValue _ _ hj]
  · exact Memory.read_writeBytes_of_out _ textBase s.mem (by rw [hlen]; unfold textBase; omega)

end Sys2Proof.Machine

/-!
SUPPORT. The text of a classic data frame (43_parser R175 to R184): the identifier word its digits give, the
payload loop over pairs of hex digits, and the frame PARSE accepts.
-/

namespace Sys2Proof.Machine

/-! ### Characters (R171) -/

theorem ch_append_left {t : List Byte} (u : List Byte) {k : Nat} (hk : k < t.length) :
    ch (t ++ u) k = ch t k :=
  List.getD_append t u 0 k hk

theorem ch_append_length (t u : List Byte) : ch (t ++ u) t.length = u.headD 0 := by
  cases u <;> simp [ch]

theorem ch_append_length_succ (t : List Byte) (c : Byte) (u : List Byte) :
    ch (t ++ c :: u) (t.length + 1) = u.headD 0 := by
  cases u <;> simp [ch]

theorem ch_mem {t : List Byte} {k : Nat} (hk : k < t.length) : ch t k ∈ t := by
  rw [ch, List.getD_eq_getElem _ _ hk]
  exact List.getElem_mem hk

/-- An octet that is no hex digit differs from every hex digit. -/
theorem isHex_ne {c d : Byte} (hc : isHex c) (hd : 15 < nib d) : c ≠ d := by
  rintro rfl
  exact absurd hc (Nat.not_le.2 hd)

/-! ### The identifier (R176, R177) -/

theorem ofNat_shiftLeft (w d k : Nat) : BitVec.ofNat w d <<< k = BitVec.ofNat w (d * 2 ^ k) := by
  apply BitVec.eq_of_toNat_eq
  simp [Nat.shiftLeft_eq]

/-- Where the digits read so far stand `left + 1` digits above the end, the next goes under them. -/
theorem ofNat_or_digit (v left : Nat) {d : Nat} (hd : d ≤ 15) :
    BitVec.ofNat 32 (v * 16 ^ (left + 1)) ||| (BitVec.ofNat 32 d <<< (4 * left)) =
      BitVec.ofNat 32 ((16 * v + d) * 16 ^ left) := by
  have hpow : 16 ^ left = 2 ^ (4 * left) := Nat.pow_mul 2 4 left ▸ rfl
  have hnibble : v <<< 4 + d = v <<< 4 ||| d := Nat.shiftLeft_add_eq_or_of_lt (by omega) v
  rw [ofNat_shiftLeft, ← BitVec.ofNat_or, Nat.pow_succ', ← Nat.mul_assoc, hpow, ← Nat.shiftLeft_eq,
    ← Nat.shiftLeft_eq, ← Nat.shiftLeft_eq, ← Nat.shiftLeft_or_distrib, Nat.mul_comm 16 v,
    ← Nat.shiftLeft_eq v 4, hnibble]

theorem hexValue_concat (ds : List Byte) (c : Byte) : hexValue (ds ++ [c]) = 16 * hexValue ds + nib c := by
  simp [hexValue]

theorem parseIdent_of_hex (t : List Byte) {n : Nat} (hhex : ∀ k, k < n → isHex (ch t k)) :
    ∀ left k, k + left = n →
    parseIdent t n left k (BitVec.ofNat 32 (hexValue ((List.range k).map (ch t)) * 16 ^ left)) =
      .ok (BitVec.ofNat 32 (hexValue ((List.range n).map (ch t))))
  | 0, k, hk => by
      obtain rfl : k = n := hk
      simp [parseIdent]
  | left + 1, k, hk => by
      have hd : nib (ch t k) ≤ 15 := hhex k (by omega)
      have ih := parseIdent_of_hex t hhex left (k + 1) (by omega)
      rw [List.range_succ, List.map_append, List.map_singleton, hexValue_concat, ← ofNat_or_digit _ _ hd] at ih
      rw [parseIdent, if_neg (Nat.not_lt.2 hd), show n - 1 - k = left by omega]
      exact ih

theorem map_ch_range (ids u : List Byte) : (List.range ids.length).map (ch (ids ++ u)) = ids := by
  refine List.ext_getElem (by simp) fun k _ hk => ?_
  rw [List.getElem_map, List.getElem_range, ch_append_left u hk, ch, List.getD_eq_getElem _ _ hk]

theorem parseIdent_of_isHex {ids : List Byte} (u : List Byte) (hids : ∀ c ∈ ids, isHex c) :
    parseIdent (ids ++ u) ids.length ids.length 0 0 = .ok (BitVec.ofNat 32 (hexValue ids)) := by
  have hhex : ∀ k, k < ids.length → isHex (ch (ids ++ u) k) := fun k hk =>
    ch_append_left u hk ▸ hids _ (ch_mem hk)
  simpa [hexValue, map_ch_range] using parseIdent_of_hex (ids ++ u) hhex ids.length 0 (Nat.zero_add _)

theorem markExtended_hexValue (ids : List Byte) :
    markExtended ids.length (BitVec.ofNat 32 (hexValue ids)) = identWord ids := rfl

/-! ### The payload (R181 to R184) -/

theorem skipDot_length (t : List Byte) : skipDot t t.length = t.length := by
  simp [skipDot, ch, chDot]

/-- The test for a separator stops at the first digit of a pair, whether or not the separator is there. -/
theorem skipDot_of_pair (pre u : List Byte) (dotted : Bool) {hi : Byte} (hhi : isHex hi) :
    skipDot (pre ++ ((if dotted then [chDot] else []) ++ hi :: u)) pre.length =
      (pre ++ if dotted then [chDot] else []).length := by
  unfold skipDot
  rw [ch_append_length]
  cases dotted
  · simp [isHex_ne hhi (d := chDot) (by decide)]
  · simp

/-- One turn of the loop on a pair of hex digits (R183). -/
theorem parsePairs_pair {hi lo : Byte} (hhi : isHex hi) (hlo : isHex lo) (pre u data : List Byte) (dotted : Bool)
    (left : Nat) :
    parsePairs (pre ++ ((if dotted then [chDot] else []) ++ hi :: lo :: u)) (left + 1) pre.length data =
      parsePairs (pre ++ ((if dotted then [chDot] else []) ++ hi :: lo :: u)) left
        ((pre ++ if dotted then [chDot] else []).length + 2) (data ++ [pairByte (nib hi) (nib lo)]) := by
  rw [parsePairs, skipDot_of_pair pre (lo :: u) dotted hhi, ← List.append_assoc]
  have hin : ¬ (pre ++ if dotted then [chDot] else []).length ≥
      ((pre ++ if dotted then [chDot] else []) ++ hi :: lo :: u).length := by
    simp only [List.length_append, List.length_cons]
    omega
  simp only [if_neg hin, ch_append_length, ch_append_length_succ, List.headD_cons, if_neg (Nat.not_lt.2 hhi),
    if_neg (Nat.not_lt.2 hlo)]

theorem pairsText_cons (dotted : Bool) (hi lo : Byte) (ps : List (Bool × Byte × Byte)) :
    pairsText ((dotted, hi, lo) :: ps) = (if dotted then [chDot] else []) ++ hi :: lo :: pairsText ps := by
  simp [pairsText]

/-- The loop reads every pair of a text that ends with its pairs. -/
theorem parsePairs_of_pairsText : ∀ (ps : List (Bool × Byte × Byte)) (left : Nat) (pre data : List Byte),
    (∀ p ∈ ps, isHex p.2.1 ∧ isHex p.2.2) → ps.length ≤ left →
    parsePairs (pre ++ pairsText ps) left pre.length data =
      .ok (data ++ ps.map fun p => pairByte (nib p.2.1) (nib p.2.2))
  | [], 0, _, _, _, _ => by simp [parsePairs]
  | [], left + 1, pre, data, _, _ => by simp [parsePairs, pairsText, skipDot_length]
  | (dotted, hi, lo) :: ps, left + 1, pre, data, hps, hlen => by
      obtain ⟨⟨hhi, hlo⟩, hps⟩ := List.forall_mem_cons.1 hps
      have ih := parsePairs_of_pairsText ps left (pre ++ (if dotted then [chDot] else []) ++ [hi, lo])
        (data ++ [pairByte (nib hi) (nib lo)]) hps (Nat.le_of_succ_le_succ hlen)
      rw [pairsText_cons, parsePairs_pair hhi hlo]
      simpa [Nat.add_assoc] using ih

/-! ### The selector and the frame (R174, R175, R178) -/

/-- What a payload of pairs begins with selects a classic data frame. -/
theorem parseSelector_of_pairsText (pre : List Byte) (id : Word) {ps : List (Bool × Byte × Byte)}
    (hps : ∀ p ∈ ps, isHex p.2.1 ∧ isHex p.2.2) :
    parseSelector (pre ++ pairsText ps) id pre.length =
      parsePayload (pre ++ pairsText ps) id 0 Config.classicMax .classic pre.length := by
  have hhead : ∀ d, d ≠ 0 → d ≠ chDot → 15 < nib d → ch (pre ++ pairsText ps) pre.length ≠ d := by
    intro d hzero hdot hd
    rw [ch_append_length]
    match ps, hps with
    | [], _ => exact Ne.symm hzero
    | (true, _, _) :: _, _ => exact Ne.symm hdot
    | (false, _, _) :: _, hps => exact isHex_ne (hps _ (List.mem_cons_self ..)).1 hd
  rw [parseSelector, if_neg (not_or.2 ⟨hhead chUpperR ?_ ?_ ?_, hhead chLowerR ?_ ?_ ?_⟩),
    if_neg (hhead chHash ?_ ?_ ?_)] <;> decide

/-- The delimiter is found behind the identifier: with 8 digits, none of them is taken for it (R175). -/
theorem parseText_of_delimited {ids : List Byte} (u : List Byte) (hlen : ids.length = 3 ∨ ids.length = 8)
    (hids : ∀ c ∈ ids, isHex c) :
    parseText (ids ++ chHash :: u) = parseFrom (ids ++ chHash :: u) ids.length (ids.length + 1) := by
  have hlong : ¬ (ids ++ chHash :: u).length < 4 := by
    simp only [List.length_append, List.length_cons]
    omega
  have hdelim : ch (ids ++ chHash :: u) ids.length = chHash := ch_append_length ids _
  rw [parseText, if_neg hlong]
  rcases hlen with h3 | h8
  · rw [h3] at hdelim ⊢
    rw [if_pos hdelim]
  · have hdigit : ch (ids ++ chHash :: u) 3 ≠ chHash := by
      rw [ch_append_left _ (by omega)]
      exact isHex_ne (hids _ (ch_mem (by omega))) (by decide)
    rw [h8] at hdelim ⊢
    rw [if_neg hdigit, if_pos hdelim]

/-- PARSE accepts a classic data frame (R178, R184). -/
theorem parseText_of_classic {ids : List Byte} {ps : List (Bool × Byte × Byte)}
    (hlen : ids.length = 3 ∨ ids.length = 8) (hids : ∀ c ∈ ids, isHex c)
    (hps : ∀ p ∈ ps, isHex p.2.1 ∧ isHex p.2.2) (hmax : ps.length ≤ 8) :
    parseText (ids ++ chHash :: pairsText ps) =
      .accept .classic { id := identWord ids, len := ps.length, flags := 0,
                         data := ps.map fun p => pairByte (nib p.2.1) (nib p.2.2) } := by
  have hpre : ids ++ chHash :: pairsText ps = (ids ++ [chHash]) ++ pairsText ps := by simp
  have hidx : ids.length + 1 = (ids ++ [chHash]).length := by simp
  rw [parseText_of_delimited _ hlen hids, parseFrom, parseIdent_of_isHex _ hids]
  simp only [markExtended_hexValue]
  rw [hpre, hidx, parseSelector_of_pairsText _ _ hps, parsePayload,
    parsePairs_of_pairsText ps Config.classicMax _ [] hps hmax]
  simp

end Sys2Proof.Machine

/-!
SUPPORT. The round trip of 42_render R155: a rendered text is one PARSE reads whole, it is a classic data
frame, and the bytes of its digits are those of the accumulator.
-/

namespace Sys2Proof.Machine

/-! ### The rendered text as pairs of digits -/

/-- The payload of a RENDER in the grammar's terms: DLC pairs of digits, without separators. -/
def renderPairs (s : State) (slot dlc : Nat) : List (Bool × Byte × Byte) :=
  let digit := renderDigit s.params.hexCase (renderValue (s.accAt slot) dlc) dlc
  (List.range dlc).map fun j => (false, digit (2 * j), digit (2 * j + 1))

@[simp] theorem renderPairs_length (s : State) (slot dlc : Nat) : (renderPairs s slot dlc).length = dlc := by
  simp [renderPairs]

/-- A run of `2 * n` values, taken two at a time. -/
theorem map_range_two_mul {α : Type} (f : Nat → α) (n : Nat) :
    (List.range (2 * n)).map f = (List.range n).flatMap fun j => [f (2 * j), f (2 * j + 1)] := by
  induction n with
  | zero => rfl
  | succ n ih => simp [Nat.mul_succ, List.range_succ, ih]

theorem renderPayload_eq_pairsText (s : State) (slot dlc : Nat) :
    renderPayload s slot dlc = pairsText (renderPairs s slot dlc) := by
  rw [renderPayload, map_range_two_mul]
  simp [pairsText, renderPairs, List.flatMap_map]

theorem renderText_eq_pairs (s : State) (slot dlc : Nat) (idl : IdLen) :
    renderText s slot dlc idl = renderIdent s idl ++ chHash :: pairsText (renderPairs s slot dlc) := by
  rw [renderText_eq, renderPayload_eq_pairsText]

theorem nib_renderDigit (hc : HexCase) (v dlc j : Nat) :
    nib (renderDigit hc v dlc j) = v / 16 ^ (2 * dlc - 1 - j) % 16 :=
  nib_hexch hc (by omega)

theorem isHex_renderDigit (hc : HexCase) (v dlc j : Nat) : isHex (renderDigit hc v dlc j) := by
  rw [isHex, nib_renderDigit]
  omega

theorem isHex_of_mem_renderPairs {s : State} {slot dlc : Nat} {p : Bool × Byte × Byte}
    (h : p ∈ renderPairs s slot dlc) : isHex p.2.1 ∧ isHex p.2.2 := by
  obtain ⟨j, -, rfl⟩ := List.mem_map.1 h
  exact ⟨isHex_renderDigit .., isHex_renderDigit ..⟩

/-- Payload byte `j` is accumulator bits [8(DLC-1-j)+7 : 8(DLC-1-j)] (R152). -/
theorem pairByte_renderDigit (hc : HexCase) (acc : Dword) {dlc j : Nat} (hj : j < dlc) :
    pairByte (nib (renderDigit hc (renderValue acc dlc) dlc (2 * j)))
        (nib (renderDigit hc (renderValue acc dlc) dlc (2 * j + 1))) =
      acc.extractLsb' (8 * (dlc - 1 - j)) 8 := by
  have hlo : 16 ^ (2 * dlc - 1 - (2 * j + 1)) = 2 ^ (8 * (dlc - 1 - j)) := by
    rw [show 16 = 2 ^ 4 from rfl, ← Nat.pow_mul]
    congr 1
    omega
  have hhi : 16 ^ (2 * dlc - 1 - 2 * j) = 2 ^ (8 * (dlc - 1 - j)) * 16 := by
    rw [← hlo, ← Nat.pow_succ]
    congr 1
    omega
  rw [renderDigit_renderValue _ _ (by omega), renderDigit_renderValue _ _ (by omega), nib_hexch _ (by omega),
    nib_hexch _ (by omega), hhi, hlo, ← Nat.div_div_eq_div_mul]
  apply BitVec.eq_of_toNat_eq
  rw [pairByte, BitVec.toNat_ofNat, BitVec.extractLsb'_toNat, Nat.shiftRight_eq_div_pow]
  omega

/-! ### The rendered text as PARSE sees it -/

theorem isHex_of_mem_renderIdent {s : State} {idl : IdLen} (hid : ∀ k, k < idl.chars → nib (s.ridByte k) ≤ 15) :
    ∀ c ∈ renderIdent s idl, isHex c := by
  intro c hc
  obtain ⟨k, hk, rfl⟩ := List.mem_map.1 hc
  exact hid k (List.mem_range.1 hk)

theorem isHex_ne_zero {c : Byte} (h : isHex c) : c ≠ 0 := isHex_ne h (by decide)

/-- A rendered text holds no NUL when its identifier is hexadecimal. -/
theorem ne_zero_of_mem_renderText {s : State} {slot dlc : Nat} {idl : IdLen}
    (hid : ∀ k, k < idl.chars → nib (s.ridByte k) ≤ 15) : ∀ c ∈ renderText s slot dlc idl, c ≠ 0 := by
  intro c hc
  rw [renderText_eq, List.mem_append, List.mem_cons] at hc
  rcases hc with hc | rfl | hc
  · exact isHex_ne_zero (isHex_of_mem_renderIdent hid c hc)
  · decide
  · obtain ⟨j, -, rfl⟩ := List.mem_map.1 hc
    exact isHex_ne_zero (isHex_renderDigit ..)

/-- A text put in TEXT is the effective text, if it fits and holds no NUL (43_parser R170). -/
theorem effText_putText (s : State) {txt : List Byte} (hwf : s.mem.wf = true) (hlen : txt.length ≤ 256)
    (hnul : ∀ c ∈ txt, c ≠ 0) : (s.putText txt).effText = txt := by
  have hread : (List.range txt.length).map (s.putText txt).textByte = txt := by
    refine List.ext_getElem (by simp) fun k _ hk => ?_
    rw [List.getElem_map, List.getElem_range, textByte_putText s hwf hlen hk, List.getD_eq_getElem _ _ hk]
  rw [State.effText, putText_tlen_toNat s hlen, hread, List.takeWhile_eq_self_iff]
  simpa using hnul

/-- The frame R155 says a rendered text stands for. -/
def renderFrame (s : State) (slot dlc : Nat) (idl : IdLen) : Frame :=
  { id := identWord (renderIdent s idl), len := dlc, flags := 0,
    data := (List.range dlc).map fun j => (s.accAt slot).extractLsb' (8 * (dlc - 1 - j)) 8 }

theorem renderFrame_data_getD (s : State) (slot : Nat) {dlc j : Nat} (idl : IdLen) (hj : j < dlc) :
    (renderFrame s slot dlc idl).data.getD j 0 = (s.accAt slot).extractLsb' (8 * (dlc - 1 - j)) 8 := by
  simp [renderFrame, hj]

theorem renderFrame_data_getD_of_ge (s : State) (slot : Nat) {dlc j : Nat} (idl : IdLen) (hj : dlc ≤ j) :
    (renderFrame s slot dlc idl).data.getD j 0 = 0 := by
  simp [renderFrame, hj]

theorem map_pairByte_renderPairs (s : State) (slot dlc : Nat) (idl : IdLen) :
    (renderPairs s slot dlc).map (fun p => pairByte (nib p.2.1) (nib p.2.2)) =
      (renderFrame s slot dlc idl).data := by
  rw [renderPairs, List.map_map]
  exact List.map_congr_left fun j hj => pairByte_renderDigit _ _ (List.mem_range.1 hj)

theorem parseText_renderText {s : State} {slot dlc : Nat} {idl : IdLen} (hdlc : dlc ≤ 8)
    (hid : ∀ k, k < idl.chars → nib (s.ridByte k) ≤ 15) :
    parseText (renderText s slot dlc idl) = .accept .classic (renderFrame s slot dlc idl) := by
  have hlen : (renderIdent s idl).length = 3 ∨ (renderIdent s idl).length = 8 := by
    cases idl <;> simp [IdLen.chars]
  rw [renderText_eq_pairs, parseText_of_classic hlen (isHex_of_mem_renderIdent hid)
    (fun p => isHex_of_mem_renderPairs) (by simpa using hdlc), map_pairByte_renderPairs s slot dlc idl,
    renderPairs_length, renderFrame]

/-! ### The statement -/

theorem canon_of_le_eight {d : Nat} (h : d ≤ 8) : canon d = true := by
  rw [canon_iff_mem]
  interval_cases d <;> decide

theorem exec_parse_of_accept {s : State} {k : FrameKind} {f : Frame} (h : parseText s.effText = .accept k f) :
    exec .parse s = .next (s.commitParse (.accept k f)).complete := by
  rw [← h]
  exact execParse_eq s

/-- FRM_DATA after a PARSE that accepts (43_parser R172). -/
theorem frmByte_of_accept (s : State) (k : FrameKind) (f : Frame) (hwf : s.mem.wf = true) {j : Nat} (hj : j < 64) :
    (s.commitParse (.accept k f)).complete.frmByte j = f.data.getD j 0 := by
  rw [State.frmByte, complete_mem, commitParse_accept_mem,
    Memory.read_writeBytes_of_in _ frmBase j hwf (by simpa using hj)]
  simp [frameBytes, hj]

/-- Settles O24: the rendered text is the effective text of the PARSE, and its frame is known. -/
theorem renderThenParseGivesTheFrame : Obligations.RenderThenParseGivesTheFrame := by
  unfold Obligations.RenderThenParseGivesTheFrame
  intro s slot dlc idl hwf hslot hdlc hid
  have hok : renderCheck s.params.nacc slot dlc = .ok :=
    (renderCheck_ok_iff ..).2 ⟨hslot, canon_of_le_eight hdlc⟩
  let t := (s.putText (renderText s slot dlc idl)).finishPck .ok lastopRender
  have hwf' : t.mem.wf = true := Memory.wf_writeBytes _ textBase hwf
  have heff : t.effText = renderText s slot dlc idl :=
    effText_putText s hwf (renderText_fits s idl hok) (ne_zero_of_mem_renderText hid)
  have hparse : parseText t.effText = .accept .classic (renderFrame s slot dlc idl) := by
    rw [heff, parseText_renderText hdlc hid]
  refine ⟨t, _, exec_render_of_ok idl hok, exec_parse_of_accept hparse, rfl, rfl, rfl, ?_,
    fun j hj => ?_, fun j hlo hhi => ?_⟩
  · rw [complete_frmLen, commitParse_accept_frmLen, BitVec.toNat_ofNat]
    exact Nat.mod_eq_of_lt (show dlc < 128 by omega)
  · rw [frmByte_of_accept _ _ _ hwf' (by omega), renderFrame_data_getD s slot idl hj]
  · rw [frmByte_of_accept _ _ _ hwf' hhi, renderFrame_data_getD_of_ge s slot idl hlo]

end Sys2Proof.Machine

/-!
SUPPORT. The effective text of a PARSE (43_parser R170, R171) as the run of TEXT below its effective length, and
the writes that end a PARSE (R172).
-/

namespace Sys2Proof.Machine

/-! ### The effective length (R170) -/

/-- L of R170: the index of the first NUL in TEXT[0..TLEN-1], or TLEN if there is none. -/
def State.effLen (s : State) : Nat :=
  ((List.range s.tlen.toNat).map s.textByte).findIdx fun c => !(c != 0)

theorem effLen_le (s : State) : s.effLen ≤ s.tlen.toNat := by
  rw [State.effLen]
  simpa using List.findIdx_le_length (xs := (List.range s.tlen.toNat).map s.textByte)
    (p := fun c => !(c != 0))

theorem textByte_ne_zero_of_lt_effLen {s : State} {i : Nat} (hi : i < s.effLen) : s.textByte i ≠ 0 := by
  simpa using List.not_of_lt_findIdx hi

theorem textByte_effLen {s : State} (hL : s.effLen < s.tlen.toNat) : s.textByte s.effLen = 0 := by
  have hlen : s.effLen < ((List.range s.tlen.toNat).map s.textByte).length := by simpa using hL
  simpa [State.effLen] using List.findIdx_getElem (w := hlen)

/-- R170 names one length only. -/
theorem effLen_eq {s : State} {L : Nat} (hle : L ≤ s.tlen.toNat) (hbefore : ∀ i, i < L → s.textByte i ≠ 0)
    (hat : L < s.tlen.toNat → s.textByte L = 0) : s.effLen = L := by
  have hle' := effLen_le s
  rcases Nat.lt_trichotomy s.effLen L with hlt | heq | hgt
  · exact absurd (textByte_effLen (by omega)) (hbefore _ hlt)
  · exact heq
  · exact absurd (hat (by omega)) (textByte_ne_zero_of_lt_effLen hgt)

theorem effText_eq (s : State) : s.effText = (List.range s.effLen).map s.textByte := by
  rw [State.effText, List.takeWhile_eq_take_findIdx_not, ← List.map_take, List.take_range,
    ← State.effLen, Nat.min_eq_left (effLen_le s)]

/-- Settles O25, with L the effective length. -/
theorem effectiveTextEndsAtTheFirstNul : Obligations.EffectiveTextEndsAtTheFirstNul := by
  unfold Obligations.EffectiveTextEndsAtTheFirstNul
  refine fun s => ⟨s.effLen, effLen_le s, by simp [effText_eq], fun _ => textByte_ne_zero_of_lt_effLen,
    textByte_effLen, fun i => ?_⟩
  rw [effText_eq, ch]
  split
  · next hi => simp [hi]
  · next hi => exact List.getD_eq_default _ _ (by simpa using hi)

/-! ### The writes of a result (R172) -/

theorem exec_parse_of_reject {s : State} {r : Reason} (h : parseText s.effText = .reject r) :
    exec .parse s = .next (s.commitParse (.reject r)).complete := by
  rw [← h]
  exact execParse_eq s

/-- FRM_DATA after a PARSE that rejects. -/
theorem frmByte_of_reject (s : State) (r : Reason) (hwf : s.mem.wf = true) {j : Nat} (hj : j < 64) :
    (s.commitParse (.reject r)).complete.frmByte j = 0 := by
  have hdata : (frameBytes []).getD j 0 = 0 := by
    rw [frameBytes, List.getD_eq_getElem _ _ (by simpa using hj), List.getElem_map]
    rfl
  rw [State.frmByte, complete_mem, commitParse_reject_mem,
    Memory.read_writeBytes_of_in _ frmBase j hwf (by simpa using hj), hdata]

/-- A PARSE writes the parse registers, the handshake bits and memory, and nothing else. -/
theorem eq_of_commitParse {s t : State} {p : ParseResult} (ht : t = (s.commitParse p).complete) :
    t = { s with kind := t.kind, reason := t.reason, mtu := t.mtu, frmId := t.frmId, frmLen := t.frmLen,
                 frmFlags := t.frmFlags, mem := t.mem, current := none, done := true } := by
  subst ht
  cases p <;> simp only [State.commitParse, State.complete]

/-- A PARSE writes nothing of memory but FRM_DATA. -/
theorem read_commitParse_of_out (s : State) (p : ParseResult) {x : Nat} (hx : x < 0x200 ∨ 0x240 ≤ x) :
    (s.commitParse p).complete.mem.read x = s.mem.read x := by
  have hout : ∀ data, (s.mem.writeBytes frmBase (frameBytes data)).read x = s.mem.read x := fun data =>
    Memory.read_writeBytes_of_out _ frmBase s.mem (by rw [frameBytes_length]; unfold frmBase; omega)
  cases p with
  | accept k f => rw [complete_mem, commitParse_accept_mem, hout]
  | reject r => rw [complete_mem, commitParse_reject_mem, hout]

theorem Frame.Bounded.len_le {k : FrameKind} {f : Frame} (h : f.Bounded k) : f.len ≤ 64 := by
  obtain ⟨-, hk⟩ := h
  cases k with
  | classic => exact hk.1.trans (by decide)
  | fd => exact hk.1

theorem Frame.Bounded.flags_le {k : FrameKind} {f : Frame} (h : f.Bounded k) : f.flags ≤ 15 := by
  obtain ⟨-, hk⟩ := h
  cases k with
  | classic => exact hk.2.trans_le (Nat.zero_le 15)
  | fd => exact hk.2

/-- Settles O26, by the two ways a PARSE ends. -/
theorem parseCommitsItsResult : Obligations.ParseCommitsItsResult := by
  unfold Obligations.ParseCommitsItsResult
  intro s hwf
  cases hp : parseText s.effText with
  | accept k f =>
      have hlen := (parseText_bounded hp).len_le
      have hflags := (parseText_bounded hp).flags_le
      refine ⟨_, exec_parse_of_accept hp, eq_of_commitParse rfl, fun x => read_commitParse_of_out s _, ?_, rfl,
        ?_, rfl, ?_, hlen, ?_, hflags, fun j => frmByte_of_accept s k f hwf⟩
      · cases k <;> rfl
      · cases k <;> rfl
      · rw [complete_frmLen, commitParse_accept_frmLen, BitVec.toNat_ofNat]
        omega
      · rw [complete_frmFlags, commitParse_accept_frmFlags, BitVec.toNat_ofNat]
        omega
  | reject r =>
      refine ⟨_, exec_parse_of_reject hp, eq_of_commitParse rfl, fun x => read_commitParse_of_out s _, rfl, ?_,
        rfl, rfl, rfl, rfl, fun j => frmByte_of_reject s r hwf⟩
      cases r <;> rfl

/-- Two states whose TEXT agrees up to the first NUL or TLEN have one effective text. -/
theorem effText_congr {s s' : State} (hlen : s.tlen = s'.tlen)
    (htext : ∀ i, i < s.tlen.toNat → (∀ j, j < i → s.textByte j ≠ 0) → s.textByte i = s'.textByte i) :
    s.effText = s'.effText := by
  have hle := effLen_le s
  have hagree : ∀ i, i ≤ s.effLen → i < s.tlen.toNat → s.textByte i = s'.textByte i := fun i hi hlt =>
    htext i hlt fun j hj => textByte_ne_zero_of_lt_effLen (by omega)
  have heff : s'.effLen = s.effLen := by
    refine effLen_eq (hlen ▸ hle) (fun i hi => ?_) (fun hL => ?_)
    · rw [← hagree i (by omega) (by omega)]
      exact textByte_ne_zero_of_lt_effLen hi
    · rw [← hlen] at hL
      rw [← hagree _ (Nat.le_refl _) hL, textByte_effLen hL]
  rw [effText_eq, effText_eq, heff]
  refine List.map_congr_left fun i hi => ?_
  have hi := List.mem_range.1 hi
  exact hagree i (by omega) (by omega)

/-- Settles O34: the two effective texts are one, and the result alone gives the registers. -/
theorem parseIgnoresBytesPastTheText : Obligations.ParseIgnoresBytesPastTheText := by
  unfold Obligations.ParseIgnoresBytesPastTheText
  intro s s' hlen hwf hwf' htext
  have heff := effText_congr hlen htext
  cases hp : parseText s.effText with
  | accept k f =>
      refine ⟨_, _, exec_parse_of_accept hp, exec_parse_of_accept (heff ▸ hp), rfl, rfl, rfl, rfl, rfl, rfl,
        fun j hj => ?_⟩
      rw [frmByte_of_accept s k f hwf hj, frmByte_of_accept s' k f hwf' hj]
  | reject r =>
      refine ⟨_, _, exec_parse_of_reject hp, exec_parse_of_reject (heff ▸ hp), rfl, rfl, rfl, rfl, rfl, rfl,
        fun j hj => ?_⟩
      rw [frmByte_of_reject s r hwf hj, frmByte_of_reject s' r hwf' hj]

end Sys2Proof.Machine

/-!
SUPPORT. The head of a frame text (43_parser R174 to R177): what PARSE does at each outcome of the checks of
length, delimiter and identifier, and the text before and after the delimiter.
-/

namespace Sys2Proof.Machine

/-! ### The delimiter (R175) -/

theorem ch_of_length_le {t : List Byte} {k : Nat} (hk : t.length ≤ k) : ch t k = 0 := List.getD_eq_default _ _ hk

/-- A character that is not NUL lies within the text (R171). -/
theorem lt_length_of_ch_ne_zero {t : List Byte} {k : Nat} (hk : ch t k ≠ 0) : k < t.length := by
  by_contra hge
  exact hk (ch_of_length_le (Nat.not_lt.1 hge))

theorem lt_length_of_isHex_ch {t : List Byte} {k : Nat} (hk : isHex (ch t k)) : k < t.length :=
  lt_length_of_ch_ne_zero (isHex_ne_zero hk)

theorem delimiterAt_eq_none_iff (t : List Byte) : delimiterAt t = none ↔ ch t 3 ≠ 0x23 ∧ ch t 8 ≠ 0x23 := by
  unfold delimiterAt
  split_ifs <;> simp_all

/-- The delimiter is at index 3 or 8, and there is a '#' there. -/
theorem delimiterAt_some {t : List Byte} {n : Nat} (h : delimiterAt t = some n) :
    (n = 3 ∨ n = 8) ∧ ch t n = chHash := by
  unfold delimiterAt at h
  split_ifs at h with h3 h8 <;> cases h
  · exact ⟨.inl rfl, h3⟩
  · exact ⟨.inr rfl, h8⟩

theorem lt_length_of_delimiterAt {t : List Byte} {n : Nat} (h : delimiterAt t = some n) : n < t.length := by
  refine lt_length_of_ch_ne_zero ?_
  rw [(delimiterAt_some h).2]
  decide

theorem parseText_of_delimiterAt {t : List Byte} {n : Nat} (hlen : 4 ≤ t.length) (h : delimiterAt t = some n) :
    parseText t = parseFrom t n (n + 1) := by
  unfold delimiterAt at h
  rw [parseText, if_neg (Nat.not_lt.2 hlen)]
  split_ifs at h with h3 h8 <;> cases h
  · exact if_pos h3
  · exact (if_neg h3).trans (if_pos h8)

/-! ### The identifier (R176) -/

/-- An octet that is no hex digit among the digits still to read rejects the identifier. -/
theorem parseIdent_of_not_hex (t : List Byte) (n : Nat) : ∀ {left k : Nat} (id : Word) {j : Nat},
    k ≤ j → j < k + left → 15 < nib (ch t j) → parseIdent t n left k id = .error .badId
  | 0, _, _, _, hlo, hhi, _ => by omega
  | left + 1, k, id, j, hlo, hhi, hj => by
      rw [parseIdent]
      split
      · rfl
      · next hk =>
        have hne : j ≠ k := by
          rintro rfl
          exact hk hj
        exact parseIdent_of_not_hex t n _ (by omega) (by omega) hj

theorem map_ch_range_eq_take {t : List Byte} {n : Nat} (hn : n ≤ t.length) :
    (List.range n).map (ch t) = t.take n := by
  have hsplit := map_ch_range (t.take n) (t.drop n)
  rwa [List.take_append_drop, List.length_take_of_le hn] at hsplit

/-! ### The four outcomes of the head (R174 to R176) -/

theorem parseText_of_short {t : List Byte} (h : t.length < 4) : parseText t = .reject .short := if_pos h

theorem parseText_of_no_delimiter {t : List Byte} (hlen : 4 ≤ t.length) (h : delimiterAt t = none) :
    parseText t = .reject .nodelim := by
  obtain ⟨h3, h8⟩ := (delimiterAt_eq_none_iff t).1 h
  rw [parseText, if_neg (Nat.not_lt.2 hlen)]
  exact (if_neg h3).trans (if_neg h8)

theorem parseText_of_bad_digit {t : List Byte} {n k : Nat} (hlen : 4 ≤ t.length) (h : delimiterAt t = some n)
    (hk : k < n) (hbad : 15 < nib (ch t k)) : parseText t = .reject .badId := by
  rw [parseText_of_delimiterAt hlen h, parseFrom,
    parseIdent_of_not_hex t n 0 (Nat.zero_le k) (by omega) hbad]

theorem parseText_of_headOk {t : List Byte} {n : Nat} (h : headOk t n) :
    parseText t = parseSelector t (identWord (t.take n)) (n + 1) := by
  obtain ⟨hlen, hdelim, hhex⟩ := h
  have hn := lt_length_of_delimiterAt hdelim
  have hid : parseIdent t n n 0 0 = .ok (BitVec.ofNat 32 (hexValue (t.take n))) := by
    rw [← map_ch_range_eq_take hn.le]
    simpa [hexValue] using parseIdent_of_hex t hhex n 0 (Nat.zero_add n)
  have hmark := markExtended_hexValue (t.take n)
  rw [List.length_take_of_le hn.le] at hmark
  rw [parseText_of_delimiterAt hlen hdelim, parseFrom, hid]
  exact congrArg (parseSelector t · (n + 1)) hmark

/-- Every text has one of the four heads. -/
theorem head_cases (t : List Byte) :
    t.length < 4 ∨ (4 ≤ t.length ∧ delimiterAt t = none) ∨
      (∃ n k, 4 ≤ t.length ∧ delimiterAt t = some n ∧ k < n ∧ 15 < nib (ch t k)) ∨ ∃ n, headOk t n := by
  rcases Nat.lt_or_ge t.length 4 with hshort | hlen
  · exact .inl hshort
  cases hdelim : delimiterAt t with
  | none => exact .inr (.inl ⟨hlen, rfl⟩)
  | some n =>
      by_cases hhex : ∀ k, k < n → isHex (ch t k)
      · exact .inr (.inr (.inr ⟨n, hlen, hdelim, hhex⟩))
      · push Not at hhex
        obtain ⟨k, hk, hbad⟩ := hhex
        exact .inr (.inr (.inl ⟨n, k, hlen, rfl, hk, Nat.lt_of_not_le hbad⟩))

/-- Only a text with a good head is accepted. -/
theorem headOk_of_accept {t : List Byte} {k : FrameKind} {f : Frame} (h : parseText t = .accept k f) :
    ∃ n, headOk t n := by
  rcases head_cases t with hshort | ⟨hlen, hnone⟩ | ⟨n, j, hlen, hdelim, hj, hbad⟩ | hok
  · simp [parseText_of_short hshort] at h
  · simp [parseText_of_no_delimiter hlen hnone] at h
  · simp [parseText_of_bad_digit hlen hdelim hj hbad] at h
  · exact hok

/-- The delimiter of an accepted text ends a good head, and the selector gives the frame. -/
theorem parseSelector_of_accept {t : List Byte} {k : FrameKind} {f : Frame} {n : Nat}
    (h : parseText t = .accept k f) (hn : delimiterAt t = some n) :
    headOk t n ∧ parseSelector t (identWord (t.take n)) (n + 1) = .accept k f := by
  obtain ⟨m, hok⟩ := headOk_of_accept h
  have ⟨_, hm, _⟩ := hok
  obtain rfl : m = n := Option.some.inj (hm.symm.trans hn)
  exact ⟨hok, (parseText_of_headOk hok).symm.trans h⟩

/-! ### The selector (R178 to R180) -/

theorem parseSelector_of_remote {t : List Byte} {idx : Nat} (id : Word)
    (h : ch t idx = chUpperR ∨ ch t idx = chLowerR) : parseSelector t id idx = parseRemote t id idx := if_pos h

theorem parseSelector_of_hash {t : List Byte} {idx : Nat} (id : Word) (h : ch t idx = chHash) :
    parseSelector t id idx = parseFd t id idx := by
  have hremote : ¬ (ch t idx = chUpperR ∨ ch t idx = chLowerR) := by
    rw [h]
    decide
  exact (if_neg hremote).trans (if_pos h)

theorem parseSelector_of_data {t : List Byte} {idx : Nat} (id : Word)
    (hremote : ¬ (ch t idx = chUpperR ∨ ch t idx = chLowerR)) (hhash : ch t idx ≠ chHash) :
    parseSelector t id idx = parsePayload t id 0 Config.classicMax .classic idx :=
  (if_neg hremote).trans (if_neg hhash)

theorem parseFd_of_bad_flags {t : List Byte} {idx : Nat} (id : Word) (h : 15 < nib (ch t (idx + 1))) :
    parseFd t id idx = .reject .badFlag := if_pos h

theorem parseFd_of_flags {t : List Byte} {idx : Nat} (id : Word) (h : isHex (ch t (idx + 1))) :
    parseFd t id idx = parsePayload t id (nib (ch t (idx + 1))) Config.fdMax .fd (idx + 2) :=
  if_neg (Nat.not_lt.2 h)

/-- The payload loop fails for one reason only (R183). -/
theorem parsePairs_error {t : List Byte} {r : Reason} : ∀ {left idx : Nat} {data : List Byte},
    parsePairs t left idx data = .error r → r = .badData
  | 0, _, _, h => by cases h
  | left + 1, idx, data, h => by
      simp only [parsePairs] at h
      split_ifs at h
      · cases h; rfl
      · cases h; rfl
      · exact parsePairs_error h

theorem parsePayload_reject {t : List Byte} {id : Word} {flags maxlen idx : Nat} {kind : FrameKind} {r : Reason}
    (h : parsePayload t id flags maxlen kind idx = .reject r) : r = .badData := by
  unfold parsePayload at h
  split at h
  · cases h
  · next hr =>
    cases h
    exact parsePairs_error hr

/-- What the text behind a good head can be rejected for. -/
theorem parseSelector_reject {t : List Byte} {id : Word} {idx : Nat} {r : Reason}
    (h : parseSelector t id idx = .reject r) :
    r = .badData ∨ (r = .badFlag ∧ ch t idx = chHash ∧ 15 < nib (ch t (idx + 1))) := by
  by_cases hremote : ch t idx = chUpperR ∨ ch t idx = chLowerR
  · rw [parseSelector_of_remote id hremote] at h
    cases h
  by_cases hhash : ch t idx = chHash
  · rw [parseSelector_of_hash id hhash] at h
    rcases Nat.lt_or_ge 15 (nib (ch t (idx + 1))) with hbad | hgood
    · rw [parseFd_of_bad_flags id hbad] at h
      cases h
      exact .inr ⟨rfl, hhash, hbad⟩
    · rw [parseFd_of_flags id hgood] at h
      exact .inl (parsePayload_reject h)
  · rw [parseSelector_of_data id hremote hhash] at h
    exact .inl (parsePayload_reject h)

theorem parsePayload_accept_id {t : List Byte} {id : Word} {flags maxlen idx : Nat} {kind k : FrameKind} {f : Frame}
    (h : parsePayload t id flags maxlen kind idx = .accept k f) : f.id = id := by
  unfold parsePayload at h
  split at h <;> cases h
  rfl

/-- The kind and the identifier word of what the selector accepts (R178 to R180). -/
theorem parseSelector_accept {t : List Byte} {id : Word} {idx : Nat} {k : FrameKind} {f : Frame}
    (h : parseSelector t id idx = .accept k f) :
    (k = .fd ↔ ch t idx = chHash) ∧
      f.id = if ch t idx = chUpperR ∨ ch t idx = chLowerR then id ||| rtrBit else id := by
  by_cases hremote : ch t idx = chUpperR ∨ ch t idx = chLowerR
  · have hhash : ch t idx ≠ chHash := by rcases hremote with h | h <;> rw [h] <;> decide
    rw [parseSelector_of_remote id hremote] at h
    cases h
    exact ⟨by simp [hhash], (if_pos hremote).symm⟩
  rw [if_neg hremote]
  by_cases hhash : ch t idx = chHash
  · rw [parseSelector_of_hash id hhash] at h
    rcases Nat.lt_or_ge 15 (nib (ch t (idx + 1))) with hbad | hgood
    · rw [parseFd_of_bad_flags id hbad] at h
      cases h
    · rw [parseFd_of_flags id hgood] at h
      obtain ⟨rfl, -⟩ := parsePayload_accept h
      exact ⟨by simp [hhash], parsePayload_accept_id h⟩
  · rw [parseSelector_of_data id hremote hhash] at h
    obtain ⟨rfl, -⟩ := parsePayload_accept h
    exact ⟨by simp [hhash], parsePayload_accept_id h⟩

/-! ### The statements about heads and selectors -/

/-- What R174 to R180 say of a text rejected with a reason; of BADDATA they say nothing here. -/
def rejectionCause (t : List Byte) : Reason → Prop
  | .short => t.length < 4
  | .nodelim => 4 ≤ t.length ∧ ch t 3 ≠ 0x23 ∧ ch t 8 ≠ 0x23
  | .badId => 4 ≤ t.length ∧ ∃ n k, delimiterAt t = some n ∧ k < n ∧ 15 < nib (ch t k)
  | .badFlag => ∃ n, headOk t n ∧ ch t (n + 1) = 0x23 ∧ 15 < nib (ch t (n + 2))
  | .badData => True

theorem rejectionCause_of_reject {t : List Byte} {r : Reason} (h : parseText t = .reject r) :
    rejectionCause t r := by
  rcases head_cases t with hshort | ⟨hlen, hnone⟩ | ⟨n, k, hlen, hdelim, hk, hbad⟩ | ⟨n, hok⟩
  · rw [parseText_of_short hshort] at h
    cases h
    exact hshort
  · rw [parseText_of_no_delimiter hlen hnone] at h
    cases h
    exact ⟨hlen, (delimiterAt_eq_none_iff t).1 hnone⟩
  · rw [parseText_of_bad_digit hlen hdelim hk hbad] at h
    cases h
    exact ⟨hlen, n, k, hdelim, hk, hbad⟩
  · rw [parseText_of_headOk hok] at h
    rcases parseSelector_reject h with rfl | ⟨rfl, hhash, hbad⟩
    · trivial
    · exact ⟨n, hok, hhash, hbad⟩

theorem parseText_of_bad_flags {t : List Byte} {n : Nat} (hok : headOk t n) (hhash : ch t (n + 1) = chHash)
    (hbad : 15 < nib (ch t (n + 2))) : parseText t = .reject .badFlag := by
  rw [parseText_of_headOk hok, parseSelector_of_hash _ hhash, parseFd_of_bad_flags _ hbad]

/-- Settles O27: each outcome of the checks gives its reason, and no reason comes from another. -/
theorem rejectionReasonsAreTheFirstFailingChecks : Obligations.RejectionReasonsAreTheFirstFailingChecks := by
  unfold Obligations.RejectionReasonsAreTheFirstFailingChecks
  refine fun t => ⟨⟨rejectionCause_of_reject, parseText_of_short⟩, ⟨rejectionCause_of_reject, ?_⟩,
    ⟨rejectionCause_of_reject, ?_⟩, ⟨rejectionCause_of_reject, ?_⟩⟩
  · rintro ⟨hlen, hdelim⟩
    exact parseText_of_no_delimiter hlen ((delimiterAt_eq_none_iff t).2 hdelim)
  · rintro ⟨hlen, n, k, hdelim, hk, hbad⟩
    exact parseText_of_bad_digit hlen hdelim hk hbad
  · rintro ⟨n, hok, hhash, hbad⟩
    exact parseText_of_bad_flags hok hhash hbad

/-- Settles O28, from the digits of the head and the selector behind it. -/
theorem identifierWordOfAnAcceptedText : Obligations.IdentifierWordOfAnAcceptedText := by
  unfold Obligations.IdentifierWordOfAnAcceptedText
  intro t k f n h hn
  obtain ⟨-, hsel⟩ := parseSelector_of_accept h hn
  have hid := (parseSelector_accept hsel).2
  rw [identWord, List.length_take_of_le (lt_length_of_delimiterAt hn).le] at hid
  exact hid

/-- Settles O29: the selector alone decides. -/
theorem remoteFrames : Obligations.RemoteFrames := by
  unfold Obligations.RemoteFrames
  intro t n hok hremote
  refine ⟨_, (parseText_of_headOk hok).trans (parseSelector_of_remote _ hremote), ?_, rfl, rfl, rfl⟩
  simp [rtrBit]

end Sys2Proof.Machine

/-!
SUPPORT. The grammar of frame texts (43_parser R173 to R184): the payload loop reads exactly the grammar's pairs,
the selector exactly its three forms, and PARSE exactly its texts.
-/

namespace Sys2Proof.Machine

/-! ### Payloads of the grammar, from their first pair (R181 to R183) -/

theorem isPayload_zero (t : List Byte) : isPayload 0 t [] :=
  ⟨[], t, rfl, by simp, rfl, Nat.le_refl 0, .inl rfl⟩

theorem isPayload_of_separator (maxlen : Nat) (dotted : Bool) :
    isPayload maxlen (if dotted then [chDot] else []) [] := by
  refine ⟨[], _, rfl, by simp, rfl, Nat.zero_le _, .inr ?_⟩
  cases dotted
  · exact .inl rfl
  · exact .inr rfl

theorem isPayload_pair {left : Nat} {hi lo : Byte} {u data : List Byte} (dotted : Bool) (hhi : isHex hi)
    (hlo : isHex lo) (h : isPayload left u data) :
    isPayload (left + 1) ((if dotted then [chDot] else []) ++ hi :: lo :: u)
      (pairByte (nib hi) (nib lo) :: data) := by
  obtain ⟨ps, tail, rfl, hps, rfl, hlen, hend⟩ := h
  refine ⟨(dotted, hi, lo) :: ps, tail, by simp [pairsText_cons], ?_, rfl, Nat.succ_le_succ hlen,
    hend.imp_left (congrArg (· + 1))⟩
  exact List.forall_mem_cons.2 ⟨⟨hhi, hlo⟩, hps⟩

/-! ### The payload loop and the grammar -/

/-- Every text is one optional separator and a rest, and the loop goes on at that rest (R181). -/
theorem exists_skipDot_eq (pre u : List Byte) :
    ∃ (dotted : Bool) (v : List Byte), u = (if dotted then [chDot] else []) ++ v ∧
      skipDot (pre ++ u) pre.length = (pre ++ if dotted then [chDot] else []).length := by
  unfold skipDot
  rw [ch_append_length]
  by_cases hdot : u.headD 0 = chDot
  · cases u with
    | nil => exact absurd hdot (by decide)
    | cons c v =>
        obtain rfl : c = chDot := hdot
        exact ⟨true, v, rfl, by simp⟩
  · exact ⟨false, u, rfl, by rw [if_neg hdot]; simp⟩

/-- The loop stops with what it has where nothing follows the separator (R182). -/
theorem parsePairs_end {pre u : List Byte} (left : Nat) (data : List Byte)
    (h : (pre ++ u).length ≤ skipDot (pre ++ u) pre.length) :
    parsePairs (pre ++ u) (left + 1) pre.length data = .ok data := if_pos h

/-- A turn of the loop that does not fail has found the end of the text or a pair of hex digits (R182, R183). -/
theorem end_or_pair_of_parsePairs {t data out : List Byte} {left idx : Nat}
    (h : parsePairs t (left + 1) idx data = .ok out) :
    (t.length ≤ skipDot t idx ∧ out = data) ∨
      (isHex (ch t (skipDot t idx)) ∧ isHex (ch t (skipDot t idx + 1))) := by
  simp only [parsePairs] at h
  split_ifs at h with hend hhi hlo
  · cases h
    exact .inl ⟨hend, rfl⟩
  · exact .inr ⟨Nat.not_lt.1 hhi, Nat.not_lt.1 hlo⟩

/-- What the loop reads is a payload of the grammar. -/
theorem isPayload_of_parsePairs : ∀ {left : Nat} {pre u data out : List Byte},
    parsePairs (pre ++ u) left pre.length data = .ok out → ∃ d, isPayload left u d ∧ out = data ++ d
  | 0, _, u, data, _, h => by
      cases h
      exact ⟨[], isPayload_zero u, (List.append_nil data).symm⟩
  | left + 1, pre, u, data, out, h => by
      obtain ⟨dotted, v, rfl, hskip⟩ := exists_skipDot_eq pre u
      have hturn := end_or_pair_of_parsePairs h
      rw [hskip, ← List.append_assoc, ch_append_length] at hturn
      rcases hturn with ⟨hend, rfl⟩ | ⟨hhi, hlo⟩
      · obtain rfl : v = [] := by simpa using hend
        exact ⟨[], by simpa using isPayload_of_separator (left + 1) dotted, by simp⟩
      · match v, hhi, hlo with
        | [], hhi, _ => exact absurd rfl (isHex_ne_zero hhi)
        | [_], _, hlo => exact absurd (ch_append_length_succ _ _ []) (isHex_ne_zero hlo)
        | hi :: lo :: w, hhi, hlo =>
            rw [List.headD_cons] at hhi
            rw [ch_append_length_succ, List.headD_cons] at hlo
            rw [parsePairs_pair hhi hlo] at h
            obtain ⟨d, hd, rfl⟩ := isPayload_of_parsePairs (left := left)
              (pre := pre ++ (if dotted then [chDot] else []) ++ [hi, lo]) (u := w) (by simpa [Nat.add_assoc] using h)
            exact ⟨_, isPayload_pair dotted hhi hlo hd, by simp⟩

/-- The loop reads every pair before a tail that ends the payload. -/
theorem parsePairs_of_pairs : ∀ {left : Nat} {ps : List (Bool × Byte × Byte)} {tail : List Byte}
    (pre data : List Byte), (∀ p ∈ ps, isHex p.2.1 ∧ isHex p.2.2) → ps.length ≤ left →
    (ps.length = left ∨ tail = [] ∨ tail = [chDot]) →
    parsePairs (pre ++ (pairsText ps ++ tail)) left pre.length data =
      .ok (data ++ ps.map fun p => pairByte (nib p.2.1) (nib p.2.2))
  | 0, [], _, _, _, _, _, _ => by simp [parsePairs]
  | left + 1, [], tail, pre, data, _, _, hend => by
      have htail : tail = [] ∨ tail = [chDot] := hend.resolve_left (by simp)
      rw [List.map_nil, List.append_nil]
      refine parsePairs_end left data ?_
      rcases htail with rfl | rfl <;> simp [skipDot, ch, pairsText, chDot]
  | left + 1, (dotted, hi, lo) :: ps, tail, pre, data, hps, hlen, hend => by
      obtain ⟨⟨hhi, hlo⟩, hps⟩ := List.forall_mem_cons.1 hps
      have ih := parsePairs_of_pairs (left := left) (tail := tail)
        (pre ++ (if dotted then [chDot] else []) ++ [hi, lo]) (data ++ [pairByte (nib hi) (nib lo)]) hps
        (Nat.le_of_succ_le_succ hlen) (hend.imp_left Nat.succ.inj)
      rw [pairsText_cons, List.append_assoc, List.cons_append, List.cons_append, parsePairs_pair hhi hlo]
      simpa [Nat.add_assoc] using ih

/-- The payload rules accept exactly the payloads of the grammar (R181 to R184). -/
theorem parsePayload_accept_iff {pre u : List Byte} {id : Word} {flags maxlen : Nat} {kind k : FrameKind}
    {f : Frame} :
    parsePayload (pre ++ u) id flags maxlen kind pre.length = .accept k f ↔
      k = kind ∧ ∃ data, isPayload maxlen u data ∧
        f = { id := id, len := data.length, flags := flags, data := data } := by
  constructor
  · intro h
    unfold parsePayload at h
    split at h
    · next hout =>
      cases h
      obtain ⟨d, hd, rfl⟩ := isPayload_of_parsePairs hout
      exact ⟨rfl, _, hd, rfl⟩
    · cases h
  · rintro ⟨rfl, _, ⟨ps, tail, rfl, hps, rfl, hlen, hend⟩, rfl⟩
    rw [parsePayload, parsePairs_of_pairs pre [] hps hlen hend]
    rfl

/-- The same, read at an index within the text. -/
theorem parsePayload_accept_iff_drop {t : List Byte} {idx : Nat} (hidx : idx ≤ t.length) {id : Word}
    {flags maxlen : Nat} {kind k : FrameKind} {f : Frame} :
    parsePayload t id flags maxlen kind idx = .accept k f ↔
      k = kind ∧ ∃ data, isPayload maxlen (t.drop idx) data ∧
        f = { id := id, len := data.length, flags := flags, data := data } := by
  have h := @parsePayload_accept_iff (t.take idx) (t.drop idx) id flags maxlen kind k f
  rwa [List.take_append_drop, List.length_take_of_le hidx] at h

/-! ### The FD escape (R180) -/

theorem parseText_of_flags {t : List Byte} {n : Nat} (hok : headOk t n) (hhash : ch t (n + 1) = chHash)
    (hflags : isHex (ch t (n + 2))) :
    parseText t = parsePayload t (identWord (t.take n)) (nib (ch t (n + 2))) Config.fdMax .fd (n + 3) := by
  rw [parseText_of_headOk hok, parseSelector_of_hash _ hhash, parseFd_of_flags _ hflags]

/-- Settles O30: the flags digit decides between a rejection and the payload loop. -/
theorem fdEscape : Obligations.FdEscape := by
  unfold Obligations.FdEscape
  refine ⟨fun t n hok hhash => ⟨parseText_of_bad_flags hok hhash, fun hflags => ?_⟩, fun t k f n h hn => ?_⟩
  · have hlen : n + 3 ≤ t.length := lt_length_of_isHex_ch hflags
    rw [parseText_of_flags hok hhash hflags]
    cases hp : parsePayload t (identWord (t.take n)) (nib (ch t (n + 2))) Config.fdMax .fd (n + 3) with
    | reject r => exact .inl (congrArg _ (parsePayload_reject hp))
    | accept k f =>
        obtain ⟨rfl, hf, -, hmax⟩ := parsePayload_accept hp
        obtain ⟨-, data, hdata, rfl⟩ := (parsePayload_accept_iff_drop hlen).1 hp
        exact .inr ⟨_, rfl, hf, hmax, hdata⟩
  · exact (parseSelector_accept (parseSelector_of_accept h hn).2).1

/-! ### The three forms behind the delimiter (R178 to R181) -/

/-- The forms of the grammar for the text behind the delimiter, with `id` the identifier word before any RTR
flag: remote frame, FD frame, classic data frame. -/
def selectedForm (id : Word) (rest : List Byte) (k : FrameKind) (f : Frame) : Prop :=
  (∃ c more, rest = c :: more ∧ (c = chUpperR ∨ c = chLowerR) ∧ k = .classic ∧
    f = { id := id ||| rtrBit, flags := 0, data := [],
          len := if nib (more.headD 0) ≤ 8 then nib (more.headD 0) else 0 }) ∨
  (∃ d more data, rest = chHash :: d :: more ∧ isHex d ∧ k = .fd ∧ isPayload 64 more data ∧
    f = { id := id, len := data.length, flags := nib d, data := data }) ∨
  (∃ data, rest.headD 0 ≠ chUpperR ∧ rest.headD 0 ≠ chLowerR ∧ rest.headD 0 ≠ chHash ∧
    k = .classic ∧ isPayload 8 rest data ∧
    f = { id := id, len := data.length, flags := 0, data := data })

/-- A grammar text is a head and one of the forms. -/
theorem isFrameText_iff (t : List Byte) (k : FrameKind) (f : Frame) :
    isFrameText t k f ↔ ∃ ids rest, t = ids ++ chHash :: rest ∧ (ids.length = 3 ∨ ids.length = 8) ∧
      (∀ c ∈ ids, isHex c) ∧ selectedForm (identWord ids) rest k f := Iff.rfl

/-- A remote frame behind the delimiter (R179). -/
theorem parseSelector_append_remote (pre more : List Byte) (id : Word) {c : Byte}
    (hc : c = chUpperR ∨ c = chLowerR) :
    parseSelector (pre ++ c :: more) id pre.length =
      .accept .classic { id := id ||| rtrBit, flags := 0, data := [],
                         len := if nib (more.headD 0) ≤ 8 then nib (more.headD 0) else 0 } := by
  rw [parseSelector_of_remote id (by rwa [ch_append_length]), parseRemote, ch_append_length_succ]
  rfl

/-- An FD frame behind the delimiter (R180). -/
theorem parseSelector_append_fd (pre more : List Byte) (id : Word) {d : Byte} (hd : isHex d) :
    parseSelector (pre ++ chHash :: d :: more) id pre.length =
      parsePayload ((pre ++ [chHash, d]) ++ more) id (nib d) Config.fdMax .fd (pre ++ [chHash, d]).length := by
  have hflags : ch (pre ++ chHash :: d :: more) (pre.length + 1) = d := ch_append_length_succ ..
  rw [parseSelector_of_hash id (ch_append_length ..), parseFd_of_flags id (by rwa [hflags]), hflags]
  simp

/-- What the selector accepts has one of the three forms. -/
theorem selectedForm_of_parseSelector {pre rest : List Byte} {id : Word} {k : FrameKind} {f : Frame}
    (h : parseSelector (pre ++ rest) id pre.length = .accept k f) : selectedForm id rest k f := by
  have hsel := ch_append_length pre rest
  by_cases hremote : rest.headD 0 = chUpperR ∨ rest.headD 0 = chLowerR
  · match rest, hremote with
    | [], hremote => exact absurd hremote (by decide)
    | c :: more, hremote =>
        rw [List.headD_cons] at hremote
        rw [parseSelector_append_remote pre more id hremote] at h
        cases h
        exact .inl ⟨c, more, rfl, hremote, rfl, rfl⟩
  by_cases hhash : rest.headD 0 = chHash
  · match rest, hhash with
    | [], hhash => exact absurd hhash (by decide)
    | c :: more, hhash =>
        obtain rfl : c = chHash := hhash
        rw [parseSelector_of_hash id hsel] at h
        rcases Nat.lt_or_ge 15 (nib (more.headD 0)) with hbad | hgood
        · rw [parseFd_of_bad_flags id (by rwa [ch_append_length_succ])] at h
          cases h
        · match more, hgood with
          | [], hgood => exact absurd hgood (by decide)
          | d :: more, hgood =>
              rw [List.headD_cons] at hgood
              rw [← parseSelector_of_hash id hsel, parseSelector_append_fd pre more id hgood] at h
              obtain ⟨rfl, data, hdata, rfl⟩ := parsePayload_accept_iff.1 h
              exact .inr (.inl ⟨d, more, data, rfl, hgood, rfl, hdata, rfl⟩)
  · rw [parseSelector_of_data id (by rwa [hsel]) (by rwa [hsel])] at h
    obtain ⟨rfl, data, hdata, rfl⟩ := parsePayload_accept_iff.1 h
    obtain ⟨hupper, hlower⟩ := not_or.1 hremote
    exact .inr (.inr ⟨data, hupper, hlower, hhash, rfl, hdata, rfl⟩)

/-- Each form is accepted with its frame. -/
theorem parseSelector_of_selectedForm {rest : List Byte} {id : Word} {k : FrameKind} {f : Frame}
    (pre : List Byte) (h : selectedForm id rest k f) :
    parseSelector (pre ++ rest) id pre.length = .accept k f := by
  rcases h with ⟨c, more, rfl, hc, rfl, rfl⟩ | ⟨d, more, data, rfl, hd, rfl, hdata, rfl⟩ |
    ⟨data, hupper, hlower, hhash, rfl, hdata, rfl⟩
  · exact parseSelector_append_remote pre more id hc
  · rw [parseSelector_append_fd pre more id hd]
    exact parsePayload_accept_iff.2 ⟨rfl, data, hdata, rfl⟩
  · rw [← ch_append_length pre rest] at hupper hlower hhash
    rw [parseSelector_of_data id (not_or.2 ⟨hupper, hlower⟩) hhash]
    exact parsePayload_accept_iff.2 ⟨rfl, data, hdata, rfl⟩

/-! ### The grammar as a whole -/

/-- A good head is an identifier of 3 or 8 hex digits and a delimiter. -/
theorem headOk_append {ids : List Byte} (rest : List Byte) (hlen : ids.length = 3 ∨ ids.length = 8)
    (hids : ∀ c ∈ ids, isHex c) : headOk (ids ++ chHash :: rest) ids.length := by
  have hdigit : ∀ k, k < ids.length → isHex (ch (ids ++ chHash :: rest) k) := fun k hk =>
    ch_append_left (chHash :: rest) hk ▸ hids _ (ch_mem hk)
  have hdelim : ch (ids ++ chHash :: rest) ids.length = 0x23 := ch_append_length ids _
  refine ⟨by simp; omega, ?_, hdigit⟩
  rcases hlen with h3 | h8
  · rw [h3] at hdelim ⊢
    exact if_pos hdelim
  · have hthree : ch (ids ++ chHash :: rest) 3 ≠ 0x23 := isHex_ne (hdigit 3 (by omega)) (by decide)
    rw [h8] at hdelim ⊢
    exact (if_neg hthree).trans (if_pos hdelim)

theorem exists_append_of_headOk {t : List Byte} {n : Nat} (h : headOk t n) :
    ∃ ids rest, t = ids ++ chHash :: rest ∧ ids.length = n ∧ (n = 3 ∨ n = 8) ∧ ∀ c ∈ ids, isHex c := by
  obtain ⟨-, hdelim, hhex⟩ := h
  have hn := lt_length_of_delimiterAt hdelim
  obtain ⟨hplace, hhash⟩ := delimiterAt_some hdelim
  rw [ch, List.getD_eq_getElem _ _ hn] at hhash
  refine ⟨t.take n, t.drop (n + 1), ?_, List.length_take_of_le hn.le, hplace, fun c hc => ?_⟩
  · rw [← hhash, ← List.drop_eq_getElem_cons hn, List.take_append_drop]
  · rw [← map_ch_range_eq_take hn.le] at hc
    obtain ⟨k, hk, rfl⟩ := List.mem_map.1 hc
    exact hhex k (List.mem_range.1 hk)

/-- PARSE of a text with a good head, by what stands behind the delimiter. -/
theorem parseText_append {ids : List Byte} (rest : List Byte) (hlen : ids.length = 3 ∨ ids.length = 8)
    (hids : ∀ c ∈ ids, isHex c) :
    parseText (ids ++ chHash :: rest) =
      parseSelector ((ids ++ [chHash]) ++ rest) (identWord ids) (ids ++ [chHash]).length := by
  rw [parseText_of_headOk (headOk_append rest hlen hids)]
  simp

/-- Settles O31: an accepted text has a good head, and behind it the selector and the grammar agree. -/
theorem parserAcceptsExactlyTheGrammar : Obligations.ParserAcceptsExactlyTheGrammar := by
  unfold Obligations.ParserAcceptsExactlyTheGrammar
  intro t k f
  rw [isFrameText_iff]
  constructor
  · intro h
    obtain ⟨n, hok⟩ := headOk_of_accept h
    obtain ⟨ids, rest, rfl, rfl, hlen, hids⟩ := exists_append_of_headOk hok
    rw [parseText_append rest hlen hids] at h
    exact ⟨ids, rest, rfl, hlen, hids, selectedForm_of_parseSelector h⟩
  · rintro ⟨ids, rest, rfl, hlen, hids, hform⟩
    rw [parseText_append rest hlen hids]
    exact parseSelector_of_selectedForm _ hform

end Sys2Proof.Machine

/-!
SUPPORT. How far PARSE looks (43_parser R187): each part of it reads the same from a text and from the first
characters of the text.
-/

namespace Sys2Proof.Machine

section
variable {t : List Byte} {bound : Nat}

theorem ch_take {i : Nat} (hi : i < bound) : ch (t.take bound) i = ch t i := by
  simp [ch, hi]

theorem skipDot_take {idx : Nat} (hidx : idx < bound) : skipDot (t.take bound) idx = skipDot t idx := by
  rw [skipDot, skipDot, ch_take hidx]

theorem skipDot_le (t : List Byte) (idx : Nat) : skipDot t idx ≤ idx + 1 := by
  unfold skipDot
  split <;> omega

/-- An identifier ends `left` digits on (R176). -/
theorem parseIdent_take (n : Nat) : ∀ (left k : Nat) (id : Word), k + left ≤ bound →
    parseIdent (t.take bound) n left k id = parseIdent t n left k id
  | 0, _, _, _ => rfl
  | left + 1, k, id, h => by
      simp only [parseIdent, ch_take (t := t) (show k < bound by omega),
        parseIdent_take n left (k + 1) _ (show k + 1 + left ≤ bound by omega)]

/-- A pair takes at most three characters, the separator and two digits (R181, R183). -/
theorem parsePairs_take : ∀ (left idx : Nat) (data : List Byte), idx + 3 * left ≤ bound →
    parsePairs (t.take bound) left idx data = parsePairs t left idx data
  | 0, _, _, _ => rfl
  | left + 1, idx, data, h => by
      have hskip := skipDot_le t idx
      have hend : skipDot t idx ≥ (t.take bound).length ↔ skipDot t idx ≥ t.length := by
        rw [List.length_take]
        omega
      simp only [parsePairs, skipDot_take (t := t) (show idx < bound by omega), hend,
        ch_take (t := t) (show skipDot t idx < bound by omega),
        ch_take (t := t) (show skipDot t idx + 1 < bound by omega),
        parsePairs_take left (skipDot t idx + 2) _ (by omega)]

theorem parsePayload_take (id : Word) (flags : Nat) {maxlen idx : Nat} (kind : FrameKind)
    (h : idx + 3 * maxlen ≤ bound) :
    parsePayload (t.take bound) id flags maxlen kind idx = parsePayload t id flags maxlen kind idx := by
  rw [parsePayload, parsePayload, parsePairs_take maxlen idx [] h]

/-- The furthest the selector reaches is an FD payload of 64 bytes, two characters on (R180). -/
theorem parseSelector_take (id : Word) {idx : Nat} (h : idx + 194 ≤ bound) :
    parseSelector (t.take bound) id idx = parseSelector t id idx := by
  have hfd : idx + 2 + 3 * Config.fdMax ≤ bound := h
  have hclassic : idx + 3 * Config.classicMax ≤ bound := le_trans (by unfold Config.classicMax; omega) h
  simp only [parseSelector, parseRemote, parseFd, ch_take (t := t) (show idx < bound by omega),
    ch_take (t := t) (show idx + 1 < bound by omega), parsePayload_take id _ .fd hfd,
    parsePayload_take id _ .classic hclassic]

theorem parseFrom_take {n idx : Nat} (hn : n ≤ bound) (h : idx + 194 ≤ bound) :
    parseFrom (t.take bound) n idx = parseFrom t n idx := by
  simp only [parseFrom, parseIdent_take n n 0 0 (show 0 + n ≤ bound by omega), parseSelector_take _ h]

end

/-- Settles O33: of the two heads the one of 8 digits reaches further, its selector being at index 9. -/
theorem parserReadsNoIndexAbove202 : Obligations.ParserReadsNoIndexAbove202 := by
  unfold Obligations.ParserReadsNoIndexAbove202
  intro t
  have hshort : (t.take 203).length < 4 ↔ t.length < 4 := by
    rw [List.length_take]
    omega
  simp only [parseText, hshort, ch_take (t := t) (show 3 < 203 by decide), ch_take (t := t) (show 8 < 203 by decide),
    parseFrom_take (t := t) (show 3 ≤ 203 by decide) (show 4 + 194 ≤ 203 by decide),
    parseFrom_take (t := t) (show 8 ≤ 203 by decide) (show 9 + 194 ≤ 203 by decide)]

end Sys2Proof.Machine

/-!
SUPPORT. The frame-format state machine (43_parser R189) against the algorithm of R173: from each state of the
table, the part of the algorithm still to run, and a bound on the transitions it takes.
-/

namespace Sys2Proof.Machine

/-! ### Reaching a result -/

/-- Within `bound` transitions from `f` the machine has the result `r`. -/
def Fsm.Reaches (t : List Byte) (bound : Nat) (f : Fsm) (r : ParseResult) : Prop :=
  ∃ k, k ≤ bound ∧ (Fsm.iterate t k f).outcome = some r

section
variable {t : List Byte} {bound : Nat} {f : Fsm} {r : ParseResult}

theorem Fsm.Reaches.step {g : Fsm} (hnext : f.next t = g) (h : Fsm.Reaches t bound g r) :
    Fsm.Reaches t (bound + 1) f r := by
  subst hnext
  obtain ⟨k, hk, hr⟩ := h
  exact ⟨k + 1, Nat.succ_le_succ hk, hr⟩

theorem Fsm.Reaches.mono {bound' : Nat} (h : Fsm.Reaches t bound f r) (hle : bound ≤ bound') :
    Fsm.Reaches t bound' f r := by
  obtain ⟨k, hk, hr⟩ := h
  exact ⟨k, hk.trans hle, hr⟩

/-- A transition to an end. -/
theorem Fsm.reaches_of_outcome (h : (f.next t).outcome = some r) : Fsm.Reaches t (bound + 1) f r :=
  ⟨1, Nat.succ_le_succ (Nat.zero_le bound), h⟩

end

/-! ### The payload states (R181 to R184) -/

/-- The result of a payload loop: the rest of `parsePayload` after it. -/
def payloadResult (id : Word) (flags : Nat) (kind : FrameKind) : Except Reason (List Byte) → ParseResult
  | .ok data => .accept kind { id := id, len := data.length, flags := flags, data := data }
  | .error r => .reject r

theorem parsePayload_eq (t : List Byte) (id : Word) (flags maxlen : Nat) (kind : FrameKind) (idx : Nat) :
    parsePayload t id flags maxlen kind idx = payloadResult id flags kind (parsePairs t maxlen idx []) := by
  unfold parsePayload payloadResult
  split <;> simp only [*]

/-- A byte takes three transitions, and one more finds the end. -/
theorem reaches_of_sDsep (t : List Byte) : ∀ (left : Nat) (f : Fsm), f.label = .sDsep → f.i + left = f.maxlen →
    f.data.length = f.i →
    Fsm.Reaches t (3 * left + 1) f (payloadResult f.id f.flags f.kind (parsePairs t left f.idx f.data))
  | 0, f, hlabel, hleft, hdata => by
      have hfull : ¬ f.i < f.maxlen := by omega
      refine Fsm.reaches_of_outcome ?_
      simp only [Fsm.next, hlabel, if_neg hfull, Fsm.outcome, payloadResult, parsePairs, hdata]
  | left + 1, f, hlabel, hleft, hdata => by
      have hroom : f.i < f.maxlen := by omega
      rw [parsePairs]
      by_cases hend : skipDot t f.idx ≥ t.length
      · refine Fsm.reaches_of_outcome ?_
        simp only [Fsm.next, hlabel, if_pos hroom, if_pos hend, Fsm.outcome, payloadResult, hdata]
      let fhi := { f with label := .sDhi, idx := skipDot t f.idx }
      have hsep : f.next t = fhi := by simp only [Fsm.next, hlabel, if_pos hroom, if_neg hend, fhi]
      refine Fsm.Reaches.step (bound := 3 * left + 3) hsep ?_
      simp only [if_neg hend]
      by_cases hhi : nib (ch t (skipDot t f.idx)) > 15
      · refine Fsm.reaches_of_outcome ?_
        simp only [fhi, Fsm.next, if_pos hhi, Fsm.outcome, payloadResult]
      let flo := { fhi with label := .sDlo, hi := nib (ch t (skipDot t f.idx)), idx := skipDot t f.idx + 1 }
      have hdhi : fhi.next t = flo := by simp only [fhi, flo, Fsm.next, if_neg hhi]
      refine Fsm.Reaches.step (bound := 3 * left + 2) hdhi ?_
      simp only [if_neg hhi]
      by_cases hlo : nib (ch t (skipDot t f.idx + 1)) > 15
      · refine Fsm.reaches_of_outcome ?_
        simp only [flo, Fsm.next, if_pos hlo, Fsm.outcome, payloadResult]
      refine Fsm.Reaches.step (bound := 3 * left + 1) rfl ?_
      simp only [flo, fhi, Fsm.next, if_neg hlo]
      exact reaches_of_sDsep t left _ rfl (by simp only; omega) (by simp [hdata])

theorem reaches_of_sData (t : List Byte) {f : Fsm} (hlabel : f.label = .sData) (hdata : f.data = []) :
    Fsm.Reaches t (3 * f.maxlen + 2) f (parsePayload t f.id f.flags f.maxlen f.kind f.idx) := by
  have hnext : f.next t = { f with label := .sDsep, i := 0 } := by simp only [Fsm.next, hlabel]
  have h := reaches_of_sDsep t f.maxlen { f with label := .sDsep, i := 0 } rfl (Nat.zero_add _) (by simp [hdata])
  rw [parsePayload_eq, ← hdata]
  exact h.step hnext

/-! ### The states of the selector (R178 to R180) -/

/-- Nothing of the frame but the identifier has been read: the values of R173's start. -/
structure Fsm.Fresh (f : Fsm) : Prop where
  len    : f.len = 0
  flags  : f.flags = 0
  data   : f.data = []
  maxlen : f.maxlen = Config.classicMax
  kind   : f.kind = .classic

theorem reaches_of_sRtr (t : List Byte) {f : Fsm} (hlabel : f.label = .sRtr) (hfresh : f.Fresh) :
    Fsm.Reaches t 1 f (parseRemote t f.id f.idx) := by
  obtain ⟨hlen, hflags, hdata, -, -⟩ := hfresh
  refine Fsm.reaches_of_outcome ?_
  simp only [Fsm.next, hlabel, Fsm.outcome, parseRemote, hlen, hflags, hdata]

theorem reaches_of_sFdf (t : List Byte) {f : Fsm} (hlabel : f.label = .sFdf) (hfresh : f.Fresh) :
    Fsm.Reaches t 195 f (parseFd t f.id f.idx) := by
  rcases Nat.lt_or_ge 15 (nib (ch t (f.idx + 1))) with hbad | hgood
  · refine Fsm.reaches_of_outcome ?_
    simp only [parseFd_of_bad_flags f.id hbad, Fsm.next, hlabel, if_pos hbad, Fsm.outcome]
  · let g := { f with label := .sData, flags := nib (ch t (f.idx + 1)), maxlen := Config.fdMax, kind := .fd,
                      idx := f.idx + 2 }
    have hnext : f.next t = g := by simp only [Fsm.next, hlabel, if_neg (Nat.not_lt.2 hgood), g]
    rw [parseFd_of_flags f.id hgood]
    exact (reaches_of_sData t (f := g) rfl hfresh.data).step hnext

theorem reaches_of_sSel (t : List Byte) {f : Fsm} (hlabel : f.label = .sSel) (hfresh : f.Fresh) :
    Fsm.Reaches t 196 f (parseSelector t f.id f.idx) := by
  by_cases hremote : ch t f.idx = chUpperR ∨ ch t f.idx = chLowerR
  · have hnext : f.next t = { f with label := .sRtr } := by simp only [Fsm.next, hlabel, if_pos hremote]
    have hrtr := reaches_of_sRtr t (f := { f with label := .sRtr }) rfl { hfresh with }
    rw [parseSelector_of_remote f.id hremote]
    exact (hrtr.step hnext).mono (by decide)
  by_cases hhash : ch t f.idx = chHash
  · have hnext : f.next t = { f with label := .sFdf } := by
      simp only [Fsm.next, hlabel, if_neg hremote, if_pos hhash]
    rw [parseSelector_of_hash f.id hhash]
    exact (reaches_of_sFdf t (f := { f with label := .sFdf }) rfl { hfresh with }).step hnext
  · have hnext : f.next t = { f with label := .sData } := by
      simp only [Fsm.next, hlabel, if_neg hremote, if_neg hhash]
    obtain ⟨-, hflags, hdata, hmaxlen, hkind⟩ := hfresh
    have hpayload := (reaches_of_sData t (f := { f with label := .sData }) rfl hdata).step hnext
    simp only [hflags, hmaxlen, hkind] at hpayload
    rw [parseSelector_of_data f.id hremote hhash]
    exact hpayload.mono (by decide)

/-! ### The states of the head (R174 to R177) -/

/-- The result from an identifier on: the rest of `parseFrom` after it. -/
def identResult (t : List Byte) (n idx : Nat) : Except Reason Word → ParseResult
  | .ok id => parseSelector t (markExtended n id) idx
  | .error r => .reject r

theorem parseFrom_eq (t : List Byte) (n idx : Nat) :
    parseFrom t n idx = identResult t n idx (parseIdent t n n 0 0) := by
  unfold parseFrom identResult
  split <;> simp only [*]

theorem reaches_of_sEff (t : List Byte) {f : Fsm} (hlabel : f.label = .sEff) (hfresh : f.Fresh) :
    Fsm.Reaches t 197 f (parseSelector t (markExtended f.n f.id) f.idx) := by
  let g := { f with label := .sSel, id := markExtended f.n f.id }
  have hnext : f.next t = g := by simp only [Fsm.next, hlabel, g]
  exact (reaches_of_sSel t (f := g) rfl { hfresh with }).step hnext

/-- A digit takes one transition, and `left + 1` are still to read. -/
theorem reaches_of_sId (t : List Byte) : ∀ (left : Nat) (f : Fsm), f.label = .sId → f.k + (left + 1) = f.n →
    f.Fresh → Fsm.Reaches t (left + 198) f (identResult t f.n f.idx (parseIdent t f.n (left + 1) f.k f.id))
  | left, f, hlabel, hleft, hfresh => by
      rw [parseIdent]
      by_cases hbad : nib (ch t f.k) > 15
      · refine Fsm.reaches_of_outcome ?_
        simp only [Fsm.next, hlabel, if_pos hbad, Fsm.outcome, identResult]
      let g := { f with label := if f.k + 1 < f.n then .sId else .sEff,
                        id := f.id ||| (BitVec.ofNat 32 (nib (ch t f.k)) <<< (4 * (f.n - 1 - f.k))),
                        k := f.k + 1 }
      have hnext : f.next t = g := by simp only [Fsm.next, hlabel, if_neg hbad, g]
      have hg : g.Fresh := { hfresh with }
      simp only [if_neg hbad]
      match left, hleft with
      | 0, hleft =>
          have hlast : g.label = .sEff := if_neg (by omega)
          exact (reaches_of_sEff t hlast hg).step hnext
      | left + 1, hleft =>
          have hmore : g.label = .sId := if_pos (by omega)
          have hk : g.k + (left + 1) = g.n := by
            simp only [g]
            omega
          exact (reaches_of_sId t left g hmore hk hg).step hnext

theorem fresh_start : Fsm.start.Fresh := ⟨rfl, rfl, rfl, rfl, rfl⟩

/-- The state S_DELIM leads to when the delimiter is at `n` (R175). -/
def Fsm.delimited (n : Nat) : Fsm := { Fsm.start with label := .sId, n := n, k := 0, idx := n + 1 }

theorem reaches_of_delimited (t : List Byte) {left : Nat} (hleft : left + 1 ≤ 8) :
    Fsm.Reaches t 205 (Fsm.delimited (left + 1)) (parseFrom t (left + 1) (left + 2)) := by
  have h := reaches_of_sId t left (Fsm.delimited (left + 1)) rfl (Nat.zero_add _) { fresh_start with }
  rw [parseFrom_eq]
  exact h.mono (by omega)

theorem reaches_of_sDelim {t : List Byte} (hlen : ¬ t.length < 4) :
    Fsm.Reaches t 206 { Fsm.start with label := .sDelim } (parseText t) := by
  rw [parseText, if_neg hlen]
  by_cases h3 : ch t 3 = chHash
  · rw [if_pos h3]
    exact (reaches_of_delimited t (left := 2) (by decide)).step (if_pos h3)
  rw [if_neg h3]
  by_cases h8 : ch t 8 = chHash
  · rw [if_pos h8]
    exact (reaches_of_delimited t (left := 7) (by decide)).step ((if_neg h3).trans (if_pos h8))
  · refine Fsm.reaches_of_outcome ?_
    simp only [Fsm.next, if_neg h3, if_neg h8, Fsm.outcome]

/-- Settles O32, by the transition of S_LEN and the bound from S_DELIM. -/
theorem stateMachineComputesTheAlgorithm : Obligations.StateMachineComputesTheAlgorithm := by
  unfold Obligations.StateMachineComputesTheAlgorithm
  intro t
  change Fsm.Reaches t 207 Fsm.start (parseText t)
  by_cases hshort : t.length < 4
  · refine Fsm.reaches_of_outcome ?_
    simp only [Fsm.next, Fsm.start, if_pos hshort, Fsm.outcome, parseText_of_short hshort]
  · exact (reaches_of_sDelim hshort).step (if_neg hshort)

end Sys2Proof.Machine

/-!
SUPPORT. Commands from acceptance to completion (44_control R210 to R213): a command does not look at the
handshake or at the host's side of the bus, so its result may be computed at its acceptance; what a write to
CMD does with a command's word; and what the steps of a running command come to.
-/

namespace Sys2Proof.Machine

/-! ### What a command does not look at -/

/-- A command reads neither BUSY nor DONE nor the hidden state, and overwrites them all (R212). -/
theorem exec_complete {i : Instr} (hi : i ≠ .srst) (s : State) : exec i s.complete = exec i s := by
  cases i with
  | nop => rfl
  | parse =>
      change execParse s.complete = execParse s
      rw [execParse_eq, execParse_eq, ← complete_commitParse]
      rfl
  | pack slot pos size dlc =>
      simp only [exec, execPack, complete_params]
      cases packCheck s.params.nacc slot pos size dlc <;> rfl
  | render slot dlc idl =>
      simp only [exec, execRender, complete_params]
      cases renderCheck s.params.nacc slot dlc <;> rfl
  | srst => exact absurd rfl hi

/-- Two states that differ in the handshake alone give a command one result. -/
theorem exec_eq_of_complete_eq {i : Instr} (hi : i ≠ .srst) {s t : State} (h : s.complete = t.complete) :
    exec i s = exec i t := by
  rw [← exec_complete hi s, h, exec_complete hi t]

/-- `s` with the host's side of the bus as `h` has it. -/
def State.withHostOf (s h : State) : State :=
  { s with bus := h.bus, loaded := h.loaded, reads := h.reads, fresh := h.fresh }

@[simp] theorem withHostOf_params (s h : State) : (s.withHostOf h).params = s.params := rfl
@[simp] theorem withHostOf_effText (s h : State) : (s.withHostOf h).effText = s.effText := rfl

/-- No command reads or writes the host's side of the bus. -/
theorem exec_withHostOf {i : Instr} {s t : State} (ht : exec i s = .next t) (h : State) :
    exec i (s.withHostOf h) = .next (t.withHostOf h) := by
  cases i with
  | nop | srst => cases ht; rfl
  | parse =>
      revert ht
      simp only [exec, execParse_eq, withHostOf_effText, Host.Outcome.next.injEq]
      rintro rfl
      cases parseText s.effText <;> simp only [State.commitParse, State.complete, State.withHostOf]
  | pack slot pos size dlc =>
      revert ht
      simp only [exec, execPack, withHostOf_params]
      cases packCheck s.params.nacc slot pos size dlc <;> (rintro ⟨⟩; rfl)
  | render slot dlc idl =>
      revert ht
      simp only [exec, execRender, withHostOf_params]
      cases renderCheck s.params.nacc slot dlc <;> (rintro ⟨⟩; rfl)

theorem withHostOf_of_exec {i : Instr} {s t : State} (ht : exec i s = .next t) : t.withHostOf s = t := by
  have h : exec i s = .next (t.withHostOf s) := exec_withHostOf ht s
  exact Host.Outcome.next.inj (h.symm.trans ht)

/-- Settles O35, by the meaning of NOP. -/
theorem nopOnlyCompletes : Obligations.NopOnlyCompletes := by
  unfold Obligations.NopOnlyCompletes
  exact fun _ => rfl

/-- Settles O38, from the outcome of a meaning, what it leaves of the sticky bits, and what it leaves of the
host's side. -/
theorem completionSetsTheHandshake : Obligations.CompletionSetsTheHandshake := by
  unfold Obligations.CompletionSetsTheHandshake
  intro i s hi
  obtain ⟨t, ht, hc, hbus, hreads, hfresh, hparams, hdone⟩ := exec_cases i s
  obtain ⟨hill, hbuserr, hwbusy⟩ := exec_sticky ht hi
  have hloaded : t.loaded = s.loaded := (congrArg State.loaded (withHostOf_of_exec ht)).symm
  exact ⟨t, ht, (not_busy_iff t).2 hc, hdone.trans (bne_iff_ne.2 hi), hill, hbuserr, hwbusy, hparams, hbus,
    hloaded, hreads, hfresh⟩

/-! ### Writing a command's word to CMD (20_memory R68 steps 3 and 6, R210) -/

/-- What an idle block does with the word of a command. -/
theorem memWrite_cmd_of_decode {s : State} {v : Word} {i : Instr} (hb : s.busy = false) (hd : decode v = .ok i)
    (lat : Nat) :
    s.memWrite 0x008 4 v lat = if lat = 0 ∨ i = .srst then exec i s else .next (s.accept i lat) := by
  by_cases hv : v = srstWord
  · subst hv
    obtain rfl : Instr.srst = i := Except.ok.inj hd
    rw [if_pos (.inr rfl)]
    rfl
  · have hi : i ≠ .srst := by
      rintro rfl
      exact hv (decode_srst_word v hd)
    simp [memWrite_cmd_of_idle hb hv, dispatchWord, hd, hi]

/-- Settles O39: the word of a well-formed command decodes to it. -/
theorem cmdWriteAcceptsTheCommand : Obligations.CmdWriteAcceptsTheCommand := by
  unfold Obligations.CmdWriteAcceptsTheCommand
  intro s i hb hwf hi
  have hwrite := memWrite_cmd_of_decode hb (decodeInvertsEncode i hwf)
  refine ⟨fun lat hlat => ⟨s.accept i lat, ?_, rfl, rfl, _, rfl, rfl, rfl⟩, ?_⟩
  · rw [hwrite, if_neg (by simp [hi, hlat.ne'])]
  · rw [hwrite, if_pos (.inl rfl)]

/-! ### Steps by the command they run -/

/-- An idle block serves a write to CMD at once. -/
theorem step_cmdWrite {s : State} {v : Word} {lat : Nat} {rest : List HostOp} (hc : s.current = none)
    (hbus : s.bus = .write (s.params.base + 0x008) 4 v lat :: rest) :
    step s = (s.dequeued rest).memWrite 0x008 4 v lat := by
  have hw : windowOffset (s.dequeued rest).params (s.params.base + 0x008) = some 0x008 :=
    windowOffset_base (by decide)
  simp [step, tick, hc, serveNext, hbus, serve, State.hostWrite, hw]

/-- A step of an idle block whose next access writes a command's word to CMD. -/
theorem step_command {s : State} {v : Word} {lat : Nat} {rest : List HostOp} {i : Instr} (hc : s.current = none)
    (hbus : s.bus = .write (s.params.base + 0x008) 4 v lat :: rest) (hd : decode v = .ok i) :
    step s = if lat = 0 ∨ i = .srst then exec i (s.dequeued rest)
      else .next ((s.dequeued rest).accept i lat) :=
  (step_cmdWrite hc hbus).trans (memWrite_cmd_of_decode ((not_busy_iff (s.dequeued rest)).2 hc) hd lat)

theorem step_completion {s : State} {r : Running} (hr : s.current = some r) (hl : r.left = 0) :
    step s = exec r.cmd s := by
  simp [step, tick, hr, hl]

theorem step_running {s : State} {r : Running} {left : Nat} (hr : s.current = some r) (hl : r.left = left + 1) :
    step s = serveNext (s.cycle r left) := by
  simp [step, tick, hr, hl]

theorem decode_of_decodeTableWord {w : Nat} {i : Instr} (h : decodeTableWord 32 w = some i) :
    decode (BitVec.ofNat 32 (w % 2 ^ 32)) = .ok i := by
  unfold decodeTableWord at h
  rw [if_neg (by decide)] at h
  split at h
  · next hd => rw [hd, Option.some.inj h]
  · cases h

/-- Settles O40, from the step of a completion and the step of a CMD write. -/
theorem stepRunsTheDecodedCommand : Obligations.StepRunsTheDecodedCommand := by
  unfold Obligations.StepRunsTheDecodedCommand
  refine fun s => ⟨fun r => step_completion, fun v lat rest i hc hbus hd => ?_, fun w i hw => ?_⟩
  · rw [step_command hc hbus hd]
    exact ⟨fun h => if_pos h, fun ⟨hlat, hi⟩ => if_neg (by simp [hi, hlat.ne'])⟩
  · rw [step_command rfl rfl (decode_of_decodeTableWord hw), if_pos (.inl rfl)]
    rfl

/-! ### Completion within LAT + 1 steps (R212) -/

theorem serveNext_next (s : State) : ∃ t, serveNext s = .next t := by
  unfold serveNext
  split
  · exact ⟨s, rfl⟩
  · exact serve_next _ _

/-- A run ends at BUSY = 0 within the cycles left and the completion: a cycle that does not end the command
leaves it with one cycle less. -/
theorem run_reaches_idle : ∀ {left : Nat} {s : State} {r : Running}, s.current = some r → r.left = left →
    ∃ k t, k ≤ left + 1 ∧ Host.Core.run Sys2Proof.core k s = .next t ∧ t.busy = false
  | 0, s, r, hr, hl => by
      obtain ⟨t, ht, hc, -⟩ := exec_cases r.cmd s
      exact ⟨1, t, le_rfl, run_succ ((step_completion hr hl).trans ht) 0, (not_busy_iff t).2 hc⟩
  | left + 1, s, r, hr, hl => by
      obtain ⟨t, ht⟩ := serveNext_next (s.cycle r left)
      have hstep : step s = .next t := (step_running hr hl).trans ht
      cases hb : t.busy with
      | false => exact ⟨1, t, by omega, run_succ hstep 0, hb⟩
      | true =>
          obtain ⟨-, r₀, r', hr₀, hr', -, hleft⟩ :=
            nothingMovesWhileACommandRuns s t ((busy_iff s).2 ⟨r, hr⟩) hstep hb
          cases hr.symm.trans hr₀
          obtain ⟨k, u, hk, hu, hub⟩ := run_reaches_idle hr' (by omega : r'.left = left)
          exact ⟨k + 1, u, by omega, (run_succ hstep k).trans hu, hub⟩

/-- Settles O41, by induction on the cycles of LAT left. -/
theorem everyAcceptedCommandCompletes : Obligations.EveryAcceptedCommandCompletes := by
  unfold Obligations.EveryAcceptedCommandCompletes
  exact fun s r hr => run_reaches_idle hr rfl

/-! ### A host that waits (R215) -/

theorem serve_wait_of_idle {s : State} (hb : s.busy = false) :
    serve .wait s = .next (State.returnWord (s.statusWord, s)) := by
  obtain ⟨t, ht⟩ := serve_next .wait s
  obtain ⟨hreads, heq, -, hbus⟩ := waitPollsUntilIdle s t ht
  rw [ht, heq, hreads, hbus hb]
  rfl

theorem serve_wait_of_busy {s : State} (hb : s.busy = true) :
    serve .wait s = .next ((State.returnWord (s.statusWord, s)).requeue .wait) := by
  obtain ⟨t, ht⟩ := serve_next .wait s
  obtain ⟨hreads, heq, hbus, -⟩ := waitPollsUntilIdle s t ht
  rw [ht, heq, hreads, hbus hb]
  rfl

/-- The last poll of a `wait`. -/
theorem step_poll_idle {s : State} {rest : List HostOp} (hc : s.current = none) (hbus : s.bus = .wait :: rest) :
    step s = .next (State.returnWord (s.statusWord, s.dequeued rest)) := by
  simp only [step, tick, hc, serveNext, hbus]
  exact serve_wait_of_idle ((not_busy_iff (s.dequeued rest)).2 hc)

theorem statusWord_cycle {s : State} {r : Running} (hr : s.current = some r) (left : Nat) :
    (s.cycle r left).statusWord = s.statusWord := by
  simp [State.statusWord, State.busy, hr]

/-- A poll of a `wait` while the command runs. -/
theorem step_poll_busy {s : State} {r : Running} {left : Nat} {rest : List HostOp} (hr : s.current = some r)
    (hl : r.left = left + 1) (hbus : s.bus = .wait :: rest) :
    step s = .next (State.returnWord (s.statusWord, s.cycle r left)) := by
  rw [step_running hr hl, serveNext, cycle_bus, hbus]
  refine (serve_wait_of_busy (s := (s.cycle r left).dequeued rest) rfl).trans ?_
  rw [show ((s.cycle r left).dequeued rest).statusWord = s.statusWord from statusWord_cycle hr left]
  simp [State.requeue, State.returnWord, State.dequeued, State.cycle, hbus]

/-- With nothing pending, the cycles of LAT and the completion give what the command gives at once. -/
theorem run_running_alone : ∀ {left : Nat} {s : State} {r : Running}, s.current = some r → r.left = left →
    r.cmd ≠ .srst → s.bus = [] → Host.Core.run Sys2Proof.core (left + 1) s = exec r.cmd s
  | 0, s, r, hr, hl, _, _ => by
      obtain ⟨t, ht, -⟩ := exec_cases r.cmd s
      rw [ht]
      exact run_succ ((step_completion hr hl).trans ht) 0
  | left + 1, s, r, hr, hl, hi, hbus => by
      have hstep : step s = .next (s.cycle r left) := by
        rw [step_running hr hl, serveNext, cycle_bus, hbus]
      rw [run_succ hstep, run_running_alone (s := s.cycle r left) rfl rfl hi hbus]
      exact exec_eq_of_complete_eq hi rfl

/-- With a `wait` pending, each cycle of LAT is a poll that shows the STATUS of the running command; then
the command gives what it gives at once. -/
theorem run_running_waits {t : State} {rest : List HostOp} (k : Nat) : ∀ {left : Nat} {s : State} {r : Running},
    s.current = some r → r.left = left → r.cmd ≠ .srst → s.bus = .wait :: rest →
    exec r.cmd { s with reads := List.replicate left s.statusWord ++ s.reads } = .next t →
    Host.Core.run Sys2Proof.core (left + 1 + k) s = Host.Core.run Sys2Proof.core k t
  | 0, s, r, hr, hl, _, _, ht => by
      rw [Nat.zero_add, Nat.add_comm]
      exact run_succ ((step_completion hr hl).trans ht) k
  | left + 1, s, r, hr, hl, hi, hbus, ht => by
      have hword : (State.returnWord (s.statusWord, s.cycle r left)).statusWord = s.statusWord :=
        statusWord_cycle hr left
      rw [Nat.add_right_comm (left + 1), run_succ (step_poll_busy hr hl hbus)]
      refine run_running_waits k (s := State.returnWord (s.statusWord, s.cycle r left)) rfl rfl hi hbus ?_
      rw [← ht, hword]
      refine exec_eq_of_complete_eq hi ?_
      simp [State.complete, State.returnWord, State.cycle, List.replicate_succ']

section Command
variable {s : State} {v : Word} {i : Instr} {lat : Nat} {rest : List HostOp}

/-- A command with nothing after it. -/
theorem run_command_alone (hc : s.current = none) (hd : decode v = .ok i) (hi : i ≠ .srst)
    (hbus : s.bus = [.write (s.params.base + 0x008) 4 v lat]) :
    Host.Core.run Sys2Proof.core (lat + 2) s = exec i (s.dequeued []) := by
  have hstep := step_command hc hbus hd
  cases lat with
  | zero =>
      obtain ⟨t, ht, htc, htbus, -⟩ := exec_cases i (s.dequeued [])
      have hidle : step t = .next t := by
        simp only [step, tick, htc, serveNext, htbus]
        rfl
      rw [run_succ (hstep.trans ht), run_succ hidle]
      exact ht.symm
  | succ n =>
      rw [run_succ (hstep.trans (if_neg (by simp [hi])))]
      refine (run_running_alone (s := (s.dequeued []).accept i (n + 1)) rfl rfl hi rfl).trans ?_
      exact exec_eq_of_complete_eq hi rfl

/-- `s` with a `wait` as the next access, after the words `words` have been returned. -/
def State.waiting (s : State) (rest : List HostOp) (words : List Word) : State :=
  { s with bus := .wait :: rest, reads := words }

/-- The poll that ends a `wait`, made in the state a command has left. -/
theorem run_last_poll {u : State} {words : List Word} (hu : exec i (s.dequeued rest) = .next u) :
    Host.Core.run Sys2Proof.core 1 (u.withHostOf (s.waiting rest words)) =
      .next { u with reads := u.statusWord :: words } := by
  obtain ⟨u', hu', huc, -⟩ := exec_cases i (s.dequeued rest)
  obtain rfl := Host.Outcome.next.inj (hu'.symm.trans hu)
  calc Host.Core.run Sys2Proof.core 1 (u'.withHostOf (s.waiting rest words))
      = .next { u'.withHostOf (s.dequeued rest) with reads := u'.statusWord :: words } :=
        run_succ (step_poll_idle (s := u'.withHostOf (s.waiting rest words)) huc rfl) 0
    _ = .next { u' with reads := u'.statusWord :: words } := by rw [withHostOf_of_exec hu]

/-- A command with a `wait` after it. -/
theorem run_command_waits {u : State} (hc : s.current = none) (hd : decode v = .ok i) (hi : i ≠ .srst)
    (hbus : s.bus = .write (s.params.base + 0x008) 4 v lat :: .wait :: rest)
    (hu : exec i (s.dequeued rest) = .next u) :
    Host.Core.run Sys2Proof.core (if lat = 0 then 2 else lat + 3) s =
      .next { u with reads := u.statusWord ::
        (List.replicate lat (s.accept i lat).statusWord ++ s.reads) } := by
  have hstep := step_command hc hbus hd
  have hexec := exec_withHostOf hu
    (s.waiting rest (List.replicate lat (s.accept i lat).statusWord ++ s.reads))
  refine Eq.trans ?_ (run_last_poll hu)
  cases lat with
  | zero => exact run_succ (hstep.trans hexec) 1
  | succ n =>
      rw [if_neg n.succ_ne_zero, run_succ (hstep.trans (if_neg (by simp [hi])))]
      refine run_running_waits (s := (s.dequeued (.wait :: rest)).accept i (n + 1)) 1 rfl rfl hi rfl ?_
      rw [← hexec]
      exact exec_eq_of_complete_eq hi rfl

end Command

/-- Settles O42: the word of a well-formed command decodes to it, and both runs come to its result. -/
theorem waitingForACommandIsRunningItAtOnce : Obligations.WaitingForACommandIsRunningItAtOnce := by
  unfold Obligations.WaitingForACommandIsRunningItAtOnce
  intro s i lat hc hwf hi
  have hd := decodeInvertsEncode i hwf
  refine ⟨fun hbus => run_command_alone hc hd hi hbus, fun rest hbus => ?_⟩
  obtain ⟨u, hu, -⟩ := exec_cases i (s.dequeued rest)
  exact ⟨u, hu, run_command_waits hc hd hi hbus hu⟩

end Sys2Proof.Machine

/-!
SUPPORT. Errors (60_exceptions): every step answers a next state (R230), and a step sets an error bit of
STATUS only at its event in the list of R231.
-/

namespace Sys2Proof.Machine

/-! ### Every step answers (R230) -/

theorem step_of_idle {s : State} (hc : s.current = none) : step s = serveNext s := by
  simp [step, tick, hc]

/-- Settles O43, by the three kinds of step: a completion, a cycle of a running command, a cycle of an idle
block. -/
theorem theBlockNeverStops : Obligations.TheBlockNeverStops := by
  unfold Obligations.TheBlockNeverStops
  intro s
  cases hc : s.current with
  | none =>
      rw [step_of_idle hc]
      exact serveNext_next s
  | some r =>
      cases hl : r.left with
      | zero =>
          obtain ⟨t, ht, -⟩ := exec_cases r.cmd s
          exact ⟨t, (step_completion hc hl).trans ht⟩
      | succ left =>
          rw [step_running hc hl]
          exact serveNext_next _

/-! ### Setting error bits -/

/-- From `s` to `t`, ILLCMD is set only if `ill` holds, BUSERR only if `bus` does, WBUSY only if `wb` does. -/
structure State.SetsOnlyIf (s t : State) (ill bus wb : Prop) : Prop where
  illcmd : s.illcmd = false → t.illcmd = true → ill
  buserr : s.buserr = false → t.buserr = true → bus
  wbusy  : s.wbusy = false → t.wbusy = true → wb

section SetsOnlyIf
variable {s t : State} {ill bus wb : Prop}

/-- A bit that does not rise is not set. -/
theorem not_set_of_le {a b : Bool} {p : Prop} (h : b ≤ a) : a = false → b = true → p := by
  rintro rfl rfl
  exact absurd h (by decide)

theorem setsOnlyIf_of_le (hi : t.illcmd ≤ s.illcmd) (hb : t.buserr ≤ s.buserr) (hw : t.wbusy ≤ s.wbusy) :
    s.SetsOnlyIf t ill bus wb :=
  ⟨not_set_of_le hi, not_set_of_le hb, not_set_of_le hw⟩

theorem setsOnlyIf_of_eq (h : t.illcmd = s.illcmd ∧ t.buserr = s.buserr ∧ t.wbusy = s.wbusy) :
    s.SetsOnlyIf t ill bus wb := by
  obtain ⟨hi, hb, hw⟩ := h
  exact setsOnlyIf_of_le hi.le hb.le hw.le

theorem setsOnlyIf_setIllcmd (h : ill) : s.SetsOnlyIf s.setIllcmd ill bus wb :=
  ⟨fun _ _ => h, not_set_of_le le_rfl, not_set_of_le le_rfl⟩

theorem setsOnlyIf_setBuserr (h : bus) : s.SetsOnlyIf s.setBuserr ill bus wb :=
  ⟨not_set_of_le le_rfl, fun _ _ => h, not_set_of_le le_rfl⟩

theorem setsOnlyIf_setWbusy (h : wb) : s.SetsOnlyIf s.setWbusy ill bus wb :=
  ⟨not_set_of_le le_rfl, not_set_of_le le_rfl, fun _ _ => h⟩

theorem State.SetsOnlyIf.imp {ill' bus' wb' : Prop} (h : s.SetsOnlyIf t ill bus wb) (hi : ill → ill')
    (hb : bus → bus') (hw : wb → wb') : s.SetsOnlyIf t ill' bus' wb' :=
  ⟨fun h₀ h₁ => hi (h.illcmd h₀ h₁), fun h₀ h₁ => hb (h.buserr h₀ h₁), fun h₀ h₁ => hw (h.wbusy h₀ h₁)⟩

theorem State.SetsOnlyIf.returnWord (h : s.SetsOnlyIf t ill bus wb) (w : Word) :
    s.SetsOnlyIf (State.returnWord (w, t)) ill bus wb :=
  ⟨h.illcmd, h.buserr, h.wbusy⟩

/-- A STATUS write sets no bit (10_state R25). -/
theorem setsOnlyIf_clearStatus (v : Word) : s.SetsOnlyIf (s.clearStatus v) ill bus wb :=
  setsOnlyIf_of_le (Bool.and_le_left _ _) (Bool.and_le_left _ _) (Bool.and_le_left _ _)

/-- A reset sets no error bit (70_reset_and_hazards R261). -/
theorem setsOnlyIf_softReset : s.SetsOnlyIf s.softReset ill bus wb :=
  setsOnlyIf_of_le (Bool.false_le _) (Bool.false_le _) (Bool.false_le _)

theorem setsOnlyIf_storeLoc (v : Word) (l : Loc) : s.SetsOnlyIf (s.storeLoc v l) ill bus wb := by
  obtain ⟨-, hi, hb, hw, -⟩ := storeLoc_frame s v l
  exact setsOnlyIf_of_eq ⟨hi, hb, hw⟩

/-- No command sets an error bit (10_state R28). -/
theorem setsOnlyIf_of_exec {i : Instr} (h : exec i s = .next t) : s.SetsOnlyIf t ill bus wb := by
  by_cases hi : i = .srst
  · subst hi
    cases h
    exact setsOnlyIf_softReset
  · exact setsOnlyIf_of_eq (exec_sticky h hi)

/-! ### By the operations of the bus (20_memory R62, R68, R69; 44_control R211) -/

theorem setsOnlyIf_of_dispatchWord {v : Word} {lat : Nat} (h : dispatchWord v lat s = .next t) :
    s.SetsOnlyIf t (∃ e, decode v = .error e) bus wb := by
  rcases dispatchWord_cases v lat s with ⟨he, h'⟩ | ⟨i, -, -, h'⟩ | ⟨i, -, -, h'⟩ <;>
    have ht := h'.symm.trans h
  · cases ht
    exact setsOnlyIf_setIllcmd he
  · exact setsOnlyIf_of_exec ht
  · cases ht
    exact setsOnlyIf_of_eq ⟨rfl, rfl, rfl⟩

theorem not_validAccess_of_none {p : Params} {off n : Nat} (h : validLoc p off n = none) :
    ¬ validAccess p.nacc off n := by
  rw [← validAccessesAreThoseOfTheMap p off n, h]
  simp

/-- No two mapped locations share an offset (20_memory R63). -/
theorem eq_of_offset_eq {p : Params} {l l' : Loc} (hm : l.Mapped p.nacc) (hm' : l'.Mapped p.nacc)
    (h : l.offset = l'.offset) : l = l' :=
  Option.some.inj ((locate_offset hm).symm.trans (h ▸ locate_offset hm'))

/-- A read sets BUSERR only if it is invalid, and no other bit. -/
theorem setsOnlyIf_memRead (s : State) (off n : Nat) :
    s.SetsOnlyIf (State.returnWord (s.memRead off n)) ill (¬ validAccess s.params.nacc off n) wb := by
  rcases memRead_cases s off n with ⟨hl, h⟩ | ⟨l, -, -, h⟩ | ⟨l, -, -, h⟩ <;> rw [h]
  · exact (setsOnlyIf_setBuserr (not_validAccess_of_none hl)).returnWord 0
  · exact setsOnlyIf_of_eq ⟨rfl, rfl, rfl⟩
  · exact setsOnlyIf_of_eq ⟨rfl, rfl, rfl⟩

/-- A write sets ILLCMD only if an idle block has an illegal word written to CMD; BUSERR only if it is
invalid, or goes to an RO offset of an idle block; WBUSY only if it is valid, the block busy, and it is
neither to STATUS nor of SRST to CMD. -/
theorem setsOnlyIf_of_memWrite {off n lat : Nat} {v : Word} (h : s.memWrite off n v lat = .next t) :
    s.SetsOnlyIf t (s.busy = false ∧ n = 4 ∧ off = 0x008 ∧ ∃ e, decode v = .error e)
      (¬ validAccess s.params.nacc off n ∨ (s.busy = false ∧ n = 4 ∧ readOnlyOffset off))
      (s.busy = true ∧ n = 4 ∧ validAccess s.params.nacc off 4 ∧ off ≠ 0x00C ∧
        ¬ (off = 0x008 ∧ v = 0x0000000F)) := by
  rcases memWrite_cases s off n v lat with ⟨hl, h'⟩ | ⟨l, hl, hcases⟩
  · cases h'.symm.trans h
    exact setsOnlyIf_setBuserr (.inl (not_validAccess_of_none hl))
  obtain ⟨rfl, rfl, hm⟩ := validLoc_eq_some_iff.1 hl
  rcases hcases with ⟨-, h'⟩ | ⟨-, -, h'⟩ | ⟨hst, hcmd, hb, h'⟩ | ⟨hb, hro, h'⟩ | ⟨hb, rfl, -, h'⟩ |
    ⟨-, -, -, -, h'⟩ <;> have ht := h'.symm.trans h
  · cases ht
    exact setsOnlyIf_clearStatus v
  · exact setsOnlyIf_of_exec ht
  · cases ht
    exact setsOnlyIf_setWbusy ⟨hb, rfl, validAccess_offset hm,
      fun ho => hst (eq_of_offset_eq (l' := .status) hm trivial ho),
      fun ⟨ho, hv⟩ => hcmd ⟨eq_of_offset_eq (l' := .cmd) hm trivial ho, hv⟩⟩
  · cases ht
    exact setsOnlyIf_setBuserr (.inr ⟨hb, rfl, (readOnlyOffset_offset hm).2 hro⟩)
  · exact (setsOnlyIf_of_dispatchWord ht).imp (fun he => ⟨hb, rfl, rfl, he⟩) .inl id
  · cases ht
    exact setsOnlyIf_storeLoc v l

end SetsOnlyIf

/-! ### The events of R231 -/

/-- The next access writes an illegal word to CMD of an idle block (44_control R211). -/
def State.IllegalWordNext (s : State) : Prop :=
  s.busy = false ∧ ∃ v, s.WriteNext 0x008 v ∧ ∃ e, decode v = .error e

/-- The next access is invalid, or writes an RO offset of an idle block (20_memory R62, R69). -/
def State.RefusedNext (s : State) : Prop :=
  (∃ off n, s.AccessNext off n ∧ ¬ validAccess s.params.nacc off n) ∨
    (s.busy = false ∧ ∃ off v, s.WriteNext off v ∧ readOnlyOffset off)

/-- The next access is a write that a busy block drops (20_memory R68 step 4). -/
def State.DroppedNext (s : State) : Prop :=
  s.busy = true ∧ ∃ off v, s.WriteNext off v ∧ validAccess s.params.nacc off 4 ∧
    off ≠ 0x00C ∧ ¬ (off = 0x008 ∧ v = 0x0000000F)

/-! Below, `q` is the state in which the next access of `s` is served. -/

section Events
variable {s q t : State} {rest : List HostOp} (hp : q.params = s.params)
include hp

theorem setsOnlyIf_of_read {addr n off : Nat} (hbus : s.bus = .read addr n :: rest)
    (hw : windowOffset s.params addr = some off) :
    q.SetsOnlyIf (State.returnWord (q.memRead off n)) s.IllegalWordNext s.RefusedNext s.DroppedNext := by
  have hset := setsOnlyIf_memRead (ill := False) (wb := False) q off n
  rw [hp] at hset
  exact hset.imp False.elim (fun hinv => .inl ⟨off, n, ⟨addr, rest, hw, .inl hbus⟩, hinv⟩) False.elim

variable (hb : q.busy = s.busy)
include hb

theorem setsOnlyIf_of_write {addr n lat off : Nat} {v : Word} (hbus : s.bus = .write addr n v lat :: rest)
    (hw : windowOffset s.params addr = some off) (h : q.memWrite off n v lat = .next t) :
    q.SetsOnlyIf t s.IllegalWordNext s.RefusedNext s.DroppedNext := by
  have hnext : n = 4 → s.WriteNext off v := by
    rintro rfl
    exact ⟨addr, lat, rest, hw, hbus⟩
  have hset := setsOnlyIf_of_memWrite h
  rw [hp, hb] at hset
  refine hset.imp ?_ ?_ ?_
  · rintro ⟨hidle, hn, rfl, he⟩
    exact ⟨hidle, v, hnext hn, he⟩
  · rintro (hinv | ⟨hidle, hn, hro⟩)
    · exact .inl ⟨off, n, ⟨addr, rest, hw, .inr ⟨v, lat, hbus⟩⟩, hinv⟩
    · exact .inr ⟨hidle, off, v, hnext hn, hro⟩
  · rintro ⟨hbusy, hn, hdropped⟩
    exact ⟨hbusy, off, v, hnext hn, hdropped⟩

theorem setsOnlyIf_of_serve {op : HostOp} (hbus : s.bus = op :: rest) (h : serve op q = .next t) :
    q.SetsOnlyIf t s.IllegalWordNext s.RefusedNext s.DroppedNext := by
  rcases serve_cases op q with ⟨_, _, -, -, h'⟩ | ⟨addr, n, off, rfl, hw, h'⟩ | ⟨_, _, _, _, -, -, h'⟩ |
    ⟨addr, n, v, lat, off, rfl, hw, h'⟩ | ⟨-, -, h'⟩ | ⟨-, -, h'⟩ | ⟨-, h'⟩ <;> have ht := h'.symm.trans h
  · cases ht
    exact setsOnlyIf_of_eq ⟨rfl, rfl, rfl⟩
  · cases ht
    exact setsOnlyIf_of_read hp hbus (hp ▸ hw)
  · cases ht
    exact setsOnlyIf_of_eq ⟨rfl, rfl, rfl⟩
  · exact setsOnlyIf_of_write hp hb hbus (hp ▸ hw) ht
  · cases ht
    exact setsOnlyIf_of_eq ⟨rfl, rfl, rfl⟩
  · cases ht
    exact setsOnlyIf_of_eq ⟨rfl, rfl, rfl⟩
  · cases ht
    exact setsOnlyIf_softReset

end Events

/-- A step sets bits as its completion, or the service of its access, does: a cycle of the engine sets none. -/
theorem setsOnlyIf_of_step {s t : State} (h : step s = .next t) :
    s.SetsOnlyIf t s.IllegalWordNext s.RefusedNext s.DroppedNext := by
  rcases step_cases h with ⟨r, -, -, ht⟩ | ⟨u, hu, hserve⟩
  · exact setsOnlyIf_of_exec ht
  obtain ⟨hi, hbe, hwb, hp, hb, -⟩ := servesFrom_frame hu
  rcases hserve with ⟨-, rfl⟩ | ⟨op, rest, hbus, hs⟩
  · exact setsOnlyIf_of_eq ⟨hi, hbe, hwb⟩
  · have hset := setsOnlyIf_of_serve (q := u.dequeued rest) hp hb hbus hs
    exact ⟨fun h₀ => hset.illcmd (hi.trans h₀), fun h₀ => hset.buserr (hbe.trans h₀),
      fun h₀ => hset.wbusy (hwb.trans h₀)⟩

/-- Settles O48, by the error bits that the access of the step, or the command it completes, can set. -/
theorem errorBitsAreSetOnlyByTheirEvents : Obligations.ErrorBitsAreSetOnlyByTheirEvents := by
  unfold Obligations.ErrorBitsAreSetOnlyByTheirEvents
  intro s t hstep
  obtain ⟨hill, hbuserr, hwbusy⟩ := setsOnlyIf_of_step hstep
  exact ⟨hill, hbuserr, hwbusy⟩

end Sys2Proof.Machine

/-!
SUPPORT. The resets (70_reset_and_hazards R260, R261): one state, with every register at its reset value.
-/

namespace Sys2Proof.Machine

@[simp] theorem softReset_statusWord (s : State) : s.softReset.statusWord = 0 := by
  simp [State.statusWord]

@[simp] theorem softReset_textByte (s : State) (i : Nat) : s.softReset.textByte i = 0 := by
  simp [State.textByte, Memory.read]

@[simp] theorem softReset_ridByte (s : State) (k : Nat) : s.softReset.ridByte k = 0 := rfl

@[simp] theorem softReset_frmByte (s : State) (j : Nat) : s.softReset.frmByte j = 0 := rfl

@[simp] theorem softReset_accAt (s : State) (k : Nat) : s.softReset.accAt k = 0 :=
  accAt_resetWith s.params k

/-- The word of SRST is taken whether a command runs or not (20_memory R68 step 3). -/
theorem memWrite_srst (s : State) (lat : Nat) : s.memWrite 0x008 4 srstWord lat = .next s.softReset := rfl

/-- Settles O36: all three answer the state of a reset, whose registers the lemmas above read. -/
theorem resetsClearEverything : Obligations.ResetsClearEverything := by
  unfold Obligations.ResetsClearEverything
  intro s lat
  refine ⟨s.softReset, rfl, rfl, memWrite_srst s lat, ?_⟩
  simp

/-- The machine after reset is one that has just been reset. -/
theorem softReset_reset : State.reset.softReset = State.reset := rfl

/-- Settles O37: every register reads as after a reset, and the parameters are those of this hardware. -/
theorem resetState : Obligations.ResetState := by
  unfold Obligations.ResetState
  rw [← softReset_reset]
  simp [State.reset, State.resetWith, Config.params]

/-- Settles O44: NACC 16 is in its range, and a reset leaves the invariants. -/
theorem invariantsHoldAtReset : Obligations.InvariantsHoldAtReset := by
  unfold Obligations.InvariantsHoldAtReset
  exact inv_resetWith (p := Config.params) ⟨by decide, by decide⟩

end Sys2Proof.Machine

/-!
SUPPORT. The busy discipline (70_reset_and_hazards R265): each entry of a disciplined program, served, leaves
the rest of the program disciplined, and uses no free value (20_memory R79).
-/

namespace Sys2Proof.Machine

/-! ### The discipline, entry by entry -/

/-- What may be done while a command may be running may be done on an idle block. -/
theorem disciplined_idle {p : Params} : ∀ {ops : List HostOp} {pending : Bool},
    disciplined p pending ops = true → disciplined p false ops = true
  | _, false, h => h
  | [], true, _ => rfl
  | .wait :: _, true, h => h
  | .hwReset :: _, true, h => h
  | .read addr n :: rest, true, h => by
      simp only [disciplined, Bool.and_eq_true] at h
      exact disciplined_idle (ops := rest) h.2
  | .write addr n v lat :: rest, true, h => by
      rw [disciplined] at h ⊢
      split at h
      · next hcmd => rwa [if_pos hcmd]
      · next hcmd =>
          simp only [if_true, Bool.and_eq_true, isAccessTo, beq_iff_eq] at h
          obtain ⟨⟨hw, -⟩, hrest⟩ := h
          rw [if_neg hcmd]
          simpa [isAccessTo, hw] using disciplined_idle hrest

theorem isAccessTo_iff {p : Params} {off addr n : Nat} :
    isAccessTo p off addr n = true ↔ windowOffset p addr = some off ∧ n = 4 := by
  simp [isAccessTo]

/-- A read in a disciplined program: of STATUS, while a command may be running. -/
theorem disciplined_read_iff {p : Params} {pending : Bool} {addr n : Nat} {rest : List HostOp} :
    disciplined p pending (.read addr n :: rest) = true ↔
      (pending = true → windowOffset p addr = some 0x00C ∧ n = 4) ∧ disciplined p pending rest = true := by
  rw [disciplined, Bool.and_eq_true, ← isAccessTo_iff]
  cases pending <;> simp

/-- A write in a disciplined program: of SRST to CMD, or to STATUS while a command may be running, or on an
idle block, where a write to CMD may leave a command running. -/
theorem disciplined_write_cases {p : Params} {pending : Bool} {addr n lat : Nat} {v : Word}
    {rest : List HostOp} (h : disciplined p pending (.write addr n v lat :: rest) = true) :
    (windowOffset p addr = some 0x008 ∧ n = 4 ∧ v = srstWord ∧ disciplined p false rest = true) ∨
    (pending = true ∧ windowOffset p addr = some 0x00C ∧ n = 4 ∧ disciplined p true rest = true) ∨
    (pending = false ∧ disciplined p (isAccessTo p 0x008 addr n) rest = true) := by
  rw [disciplined] at h
  split at h
  · next hcmd =>
      simp only [Bool.and_eq_true, isAccessTo_iff, beq_iff_eq] at hcmd
      obtain ⟨⟨hw, hn⟩, hv⟩ := hcmd
      exact .inl ⟨hw, hn, hv, h⟩
  · cases pending with
    | true =>
        simp only [if_true, Bool.and_eq_true, isAccessTo_iff] at h
        obtain ⟨⟨hw, hn⟩, hrest⟩ := h
        exact .inr (.inl ⟨rfl, hw, hn, hrest⟩)
    | false => exact .inr (.inr ⟨rfl, h⟩)

/-! ### The service of a disciplined access -/

/-- The pending accesses of `t` keep the discipline, and nothing between `q` and `t` used a free value. -/
def State.GoesOnTo (q t : State) : Prop := t.Disciplined ∧ t.fresh = q.fresh

/-- Where the program stays and no command starts, the discipline goes on. -/
theorem goesOnTo_of_frame {q t : State} {pending : Bool} (h : disciplined q.params pending q.bus = true)
    (hp : t.params = q.params) (hbus : t.bus = q.bus) (hf : t.fresh = q.fresh)
    (hb : t.busy = pending ∨ t.busy = false) : q.GoesOnTo t := by
  refine ⟨?_, hf⟩
  unfold State.Disciplined
  rw [hp, hbus]
  rcases hb with hb | hb <;> rw [hb]
  · exact h
  · exact disciplined_idle h

/-- A read of an idle block, or of STATUS, is exact (20_memory R79). -/
theorem memRead_fresh {q : State} {off n : Nat} (h : q.busy = true → off = 0x00C ∧ n = 4) :
    (q.memRead off n).2.fresh = q.fresh := by
  cases hb : q.busy with
  | true =>
      obtain ⟨rfl, rfl⟩ := h hb
      rw [memRead_status]
  | false =>
      have hu : ∀ l, q.unspecified l = false := fun l => by
        simp [State.unspecified, (not_busy_iff q).1 hb]
      rcases memRead_cases q off n with ⟨-, h'⟩ | ⟨l, -, hl, -⟩ | ⟨l, -, -, h'⟩
      · rw [h']; rfl
      · simp [hu] at hl
      · rw [h']

theorem memRead_frame (q : State) (off n : Nat) :
    (q.memRead off n).2.params = q.params ∧ (q.memRead off n).2.bus = q.bus ∧
      (q.memRead off n).2.busy = q.busy := by
  rcases memRead_cases q off n with ⟨-, h⟩ | ⟨l, -, -, h⟩ | ⟨l, -, -, h⟩ <;> rw [h] <;>
    exact ⟨rfl, rfl, rfl⟩

theorem goesOnTo_of_exec {q t : State} {pending : Bool} {i : Instr}
    (h : disciplined q.params pending q.bus = true) (ht : exec i q = .next t) : q.GoesOnTo t := by
  obtain ⟨t', ht', hc, hbus, -, hf, hp, -⟩ := exec_cases i q
  cases ht'.symm.trans ht
  exact goesOnTo_of_frame h hp hbus hf (.inr ((not_busy_iff t).2 hc))

/-- The dispatch of a word leaves at most the command running that the discipline allows for. -/
theorem goesOnTo_of_dispatchWord {q t : State} {v : Word} {lat : Nat}
    (h : disciplined q.params true q.bus = true) (hb : q.busy = false)
    (ht : dispatchWord v lat q = .next t) : q.GoesOnTo t := by
  rcases dispatchWord_cases v lat q with ⟨-, h'⟩ | ⟨i, -, -, h'⟩ | ⟨i, -, -, h'⟩
  · cases h'.symm.trans ht
    exact goesOnTo_of_frame h rfl rfl rfl (.inr hb)
  · exact goesOnTo_of_exec h (h'.symm.trans ht)
  · cases h'.symm.trans ht
    exact goesOnTo_of_frame h rfl rfl rfl (.inl rfl)

/-- A write to an idle block (20_memory R68). -/
theorem goesOnTo_of_memWrite_idle {q t : State} {addr off n lat : Nat} {v : Word}
    (h : disciplined q.params (isAccessTo q.params 0x008 addr n) q.bus = true)
    (hw : windowOffset q.params addr = some off) (hb : q.busy = false)
    (ht : q.memWrite off n v lat = .next t) : q.GoesOnTo t := by
  have hkept : ∀ {u : State}, u.params = q.params → u.bus = q.bus → u.fresh = q.fresh →
      u.busy = false → q.GoesOnTo u := fun hp hbus hf hub => goesOnTo_of_frame h hp hbus hf (.inr hub)
  rcases memWrite_cases q off n v lat with ⟨-, h'⟩ | ⟨l, hl, ⟨-, h'⟩ | ⟨-, -, h'⟩ | ⟨-, -, hb', -⟩ |
    ⟨-, -, h'⟩ | ⟨-, rfl, -, h'⟩ | ⟨-, -, -, -, h'⟩⟩
  · cases h'.symm.trans ht
    exact hkept rfl rfl rfl hb
  · cases h'.symm.trans ht
    exact hkept rfl rfl rfl hb
  · exact goesOnTo_of_exec h (h'.symm.trans ht)
  · simp [hb] at hb'
  · cases h'.symm.trans ht
    exact hkept rfl rfl rfl hb
  · obtain ⟨rfl, rfl⟩ := validLoc_cmd hl
    rw [isAccessTo_iff.2 ⟨hw, rfl⟩] at h
    exact goesOnTo_of_dispatchWord h hb (h'.symm.trans ht)
  · cases h'.symm.trans ht
    obtain ⟨-, -, -, -, -, -, -, -, -, -, -, -, hp, hc, hbus, -, hf⟩ := storeLoc_frame q v l
    exact hkept hp hbus hf ((not_busy_iff _).2 (hc.trans ((not_busy_iff q).1 hb)))

theorem goesOnTo_of_memWrite {q t : State} {addr off n lat : Nat} {v : Word}
    (h : disciplined q.params q.busy (.write addr n v lat :: q.bus) = true)
    (hw : windowOffset q.params addr = some off) (ht : q.memWrite off n v lat = .next t) :
    q.GoesOnTo t := by
  rcases disciplined_write_cases h with ⟨hw', rfl, rfl, hrest⟩ | ⟨hb, hw', rfl, hrest⟩ |
    ⟨hb, hrest⟩
  · cases hw.symm.trans hw'
    exact goesOnTo_of_exec (i := .srst) hrest ht
  · cases hw.symm.trans hw'
    cases ht
    exact goesOnTo_of_frame hrest rfl rfl rfl (.inl hb)
  · exact goesOnTo_of_memWrite_idle hrest hw hb ht

/-- The service of an access, where it and what is pending after it keep the discipline. -/
theorem goesOnTo_of_serve {q t : State} {op : HostOp}
    (h : disciplined q.params q.busy (op :: q.bus) = true) (ht : serve op q = .next t) : q.GoesOnTo t := by
  rcases serve_cases op q with ⟨addr, n, rfl, -, h'⟩ | ⟨addr, n, off, rfl, hw, h'⟩ |
    ⟨addr, n, v, lat, rfl, hw, h'⟩ | ⟨addr, n, v, lat, off, rfl, hw, h'⟩ | ⟨rfl, -, h'⟩ |
    ⟨rfl, hb, h'⟩ | ⟨rfl, h'⟩ <;> have ht := h'.symm.trans ht
  · cases ht
    exact goesOnTo_of_frame (disciplined_read_iff.1 h).2 rfl rfl rfl (.inl rfl)
  · cases ht
    obtain ⟨hst, hrest⟩ := disciplined_read_iff.1 h
    obtain ⟨hp, hbus, hb⟩ := memRead_frame q off n
    refine goesOnTo_of_frame hrest hp hbus (memRead_fresh fun hbusy => ?_) (.inl hb)
    obtain ⟨hw', hn⟩ := hst hbusy
    exact ⟨Option.some.inj (hw.symm.trans hw'), hn⟩
  · cases ht
    rcases disciplined_write_cases h with ⟨hw', -⟩ | ⟨-, hw', -⟩ | ⟨hb, hrest⟩
    · simp [hw] at hw'
    · simp [hw] at hw'
    · exact goesOnTo_of_frame hrest rfl rfl rfl (.inr hb)
  · exact goesOnTo_of_memWrite h hw ht
  · cases ht
    exact ⟨h, rfl⟩
  · cases ht
    exact goesOnTo_of_frame (pending := false) h rfl rfl rfl (.inr hb)
  · cases ht
    exact goesOnTo_of_frame (pending := false) h rfl rfl rfl (.inr rfl)

theorem goesOnTo_of_step {s t : State} (h : s.Disciplined) (ht : step s = .next t) : s.GoesOnTo t := by
  rcases step_cases ht with ⟨r, -, -, hexec⟩ | ⟨u, hu, hserve⟩
  · exact goesOnTo_of_exec h hexec
  obtain ⟨-, -, -, hp, hb, hbus, hf, -⟩ := servesFrom_frame hu
  rcases hserve with ⟨-, rfl⟩ | ⟨op, rest, hop, hs⟩
  · exact goesOnTo_of_frame h hp hbus hf (.inl hb)
  · have hd : disciplined s.params s.busy (op :: rest) = true := hop ▸ h
    rw [← hp, ← hb] at hd
    obtain ⟨ht, hfresh⟩ := goesOnTo_of_serve (q := u.dequeued rest) hd hs
    exact ⟨ht, hfresh.trans hf⟩

/-- A disciplined host's next access is no write that a busy block drops (20_memory R68 step 4). -/
theorem not_droppedNext_of_disciplined {s : State} (h : s.Disciplined) : ¬ s.DroppedNext := by
  rintro ⟨hb, off, v, ⟨addr, lat, rest, hw, hbus⟩, -, hst, hcmd⟩
  unfold State.Disciplined at h
  rw [hbus] at h
  rcases disciplined_write_cases h with ⟨hw', -, hv, -⟩ | ⟨-, hw', -⟩ | ⟨hb', -⟩
  · exact hcmd ⟨Option.some.inj (hw.symm.trans hw'), hv⟩
  · exact hst (Option.some.inj (hw.symm.trans hw'))
  · simp [hb] at hb'

/-- Settles O46: the discipline goes on by the access served, and WBUSY is set by dropped writes only. -/
theorem disciplinedHostsLoseNothing : Obligations.DisciplinedHostsLoseNothing := by
  unfold Obligations.DisciplinedHostsLoseNothing
  intro s t h hstep
  obtain ⟨ht, hf⟩ := goesOnTo_of_step h hstep
  refine ⟨ht, hf, fun hset => ?_⟩
  by_contra hclear
  exact not_droppedNext_of_disciplined h
    ((setsOnlyIf_of_step hstep).wbusy (Bool.eq_false_iff.2 hclear) hset)

end Sys2Proof.Machine

/-!
SUPPORT. The lock of several masters (70_reset_and_hazards R268): which programs are of several masters, what
each entry does to the lock and to what its masters have put, and what that makes of a whole program.
-/

namespace Sys2Proof.Machine

/-! ### Programs of several masters -/

/-- Two masters use the block in a program exactly when two of its accesses are uses by different masters. -/
theorem severalMasters_iff {p : Params} {prog : List MasterOp} :
    severalMasters p prog = true ↔
      ∃ m ∈ prog.filterMap (userOf p), ∃ m' ∈ prog.filterMap (userOf p), m ≠ m' := by
  unfold severalMasters
  split
  · next hnil => simp [hnil]
  · next m rest hcons =>
      rw [hcons]
      constructor
      · intro h
        obtain ⟨m', hm', hne⟩ := List.any_eq_true.1 h
        exact ⟨m', List.mem_cons_of_mem m hm', m, List.mem_cons_self, bne_iff_ne.1 hne⟩
      · rintro ⟨a, ha, b, hb, hab⟩
        obtain hne | hne : a ≠ m ∨ b ≠ m := not_and_or.1 fun ⟨ham, hbm⟩ => hab (ham.trans hbm.symm)
        · exact List.any_eq_true.2 ⟨a, (List.mem_cons.1 ha).resolve_left hne, bne_iff_ne.2 hne⟩
        · exact List.any_eq_true.2 ⟨b, (List.mem_cons.1 hb).resolve_left hne, bne_iff_ne.2 hne⟩

/-- The masters that use the block are those of the accesses that use it. -/
theorem mem_users_iff {p : Params} {prog : List MasterOp} {m : Nat} :
    m ∈ prog.filterMap (userOf p) ↔ ∃ op, .access m op ∈ prog ∧ usesBlock p op = true := by
  rw [List.mem_filterMap]
  constructor
  · rintro ⟨e, he, hm⟩
    cases e with
    | acquire _ | release _ => cases hm
    | access k op =>
        simp only [userOf, Option.ite_none_right_eq_some, Option.some.injEq] at hm
        obtain ⟨hu, rfl⟩ := hm
        exact ⟨op, he, hu⟩
  · rintro ⟨op, he, hu⟩
    exact ⟨_, he, if_pos hu⟩

/-- A program whose first part is of several masters is of several masters. -/
theorem severalMasters_append {p : Params} {a : List MasterOp} (h : severalMasters p a = true)
    (b : List MasterOp) : severalMasters p (a ++ b) = true := by
  obtain ⟨m, hm, m', hm', hne⟩ := severalMasters_iff.1 h
  rw [severalMasters_iff, List.filterMap_append]
  exact ⟨m, List.mem_append_left _ hm, m', List.mem_append_left _ hm', hne⟩

/-- A program that keeps the lock rule keeps it in its first part. -/
theorem keepsLock_of_append {p : Params} {a b : List MasterOp} (h : keepsLock p (a ++ b) = true) :
    keepsLock p a = true := by
  unfold keepsLock at *
  rw [LockWalk.run_append] at h
  exact Option.isSome_of_isSome_bind h

/-- What is to be refused stays so whatever comes after it. -/
theorem admits_of_append {p : Params} {a b : List MasterOp} (h : admits p (a ++ b) = true) :
    admits p a = true := by
  simp only [admits, Bool.or_eq_true, Bool.not_eq_true'] at *
  rcases h with h | h
  · exact .inl (Bool.eq_false_iff.2 fun ha => Bool.eq_false_iff.1 h (severalMasters_append ha b))
  · exact .inr (keepsLock_of_append h)

theorem load_of_admits {s : State} {prog : List MasterOp}
    (h : admits s.params (s.loaded ++ prog) = true) :
    s.load prog =
      .next { s with bus := s.bus ++ prog.filterMap MasterOp.delivered, loaded := s.loaded ++ prog } :=
  if_pos h

theorem load_of_not_admits {s : State} {prog : List MasterOp}
    (h : admits s.params (s.loaded ++ prog) = false) : s.load prog = .refused .mastersWithoutLock :=
  if_neg (Bool.eq_false_iff.1 h)

/-- Settles O56: both ways of loading check the same list, and its first part alone is checked on the way. -/
theorem loadingInPartsIsLoadingAtOnce : Obligations.LoadingInPartsIsLoadingAtOnce := by
  unfold Obligations.LoadingInPartsIsLoadingAtOnce
  intro s a b
  rcases load_cases s a with ⟨-, ha⟩ | ⟨hadm, ha⟩ <;> rw [ha]
  · refine ⟨fun t ht => ?_, nofun⟩
    rw [← Host.Outcome.next.inj ht]
    simp [State.load]
  · refine ⟨fun _ ht => (nomatch ht), fun _ => load_of_not_admits ?_⟩
    rw [← List.append_assoc]
    exact Bool.eq_false_iff.2 fun hab => Bool.eq_false_iff.1 hadm (admits_of_append hab)

/-! ### The lock, entry by entry -/

namespace LockWalk
variable {p : Params} {w w' : LockWalk} {m : Nat}

theorem next_acquire_iff :
    w.next p (.acquire m) = some w' ↔ w.holder = none ∧ { w with holder := some m } = w' := by
  simp [LockWalk.next]

theorem next_release_iff :
    w.next p (.release m) = some w' ↔ w.holder = some m ∧
      { LockWalk.start with left := w.left, past := w.own.map (fun x => (m, x)) ++ w.past } = w' := by
  simp [LockWalk.next]

/-- An access leaves the lock and the earlier holdings, and adds to the present one what it puts, which its
master may do as the holder only. -/
theorem next_access_frame {op : HostOp} (h : w.next p (.access m op) = some w') :
    w'.holder = w.holder ∧ w'.past = w.past ∧
      ∃ new, w'.own = new ++ w.own ∧ ∀ y ∈ new, w.holder = some m ∧ y.byte ∈ puts p op := by
  rcases next_access_cases h with ⟨-, rfl⟩ | ⟨-, -, rfl⟩ | ⟨-, -, -, rfl⟩ | ⟨-, hm, -, rfl⟩
  · exact ⟨rfl, rfl, [], rfl, nofun⟩
  · exact ⟨rfl, rfl, [], rfl, nofun⟩
  · exact ⟨rfl, rfl, [], rfl, nofun⟩
  · split
    · exact ⟨rfl, rfl, [], rfl, nofun⟩
    · refine ⟨rfl, rfl, _, rfl, fun y hy => ⟨hm, ?_⟩⟩
      obtain ⟨x, hx, rfl⟩ := List.mem_map.1 hy
      exact hx

theorem usesBlock_of_accessLoc {op : HostOp} {l : Loc} (h : accessLoc p op = some l) :
    usesBlock p op = true := by
  cases op with
  | read addr n | write addr n v lat =>
      obtain ⟨off, hw, -⟩ := Option.bind_eq_some_iff.1 h
      simp [usesBlock, hw]
  | wait => rfl
  | hwReset => cases h

/-- An access to a shared location is the holder's, and the holder may use the bytes it takes. -/
theorem next_shared_access {op : HostOp} (hs : (accessLoc p op).any Loc.shared = true)
    (h : w.next p (.access m op) = some w') :
    w.holder = some m ∧ (∀ x ∈ takes p w op, w.covers m x = true) ∧
      w' = if resets p op then w.afterReset else w.afterAccess p op := by
  rcases next_access_cases h with ⟨rfl, -⟩ | ⟨-, hu, -⟩ | ⟨-, -, hns, -⟩ | ⟨-, hm, hc, hw'⟩
  · cases hs
  · cases hl : accessLoc p op with
    | none => simp [hl] at hs
    | some l => simp [usesBlock_of_accessLoc hl] at hu
  · simp [hs] at hns
  · exact ⟨hm, hc, hw'⟩

/-- While a master holds the lock, the block is used by it alone. -/
theorem next_use_of_holder {k : Nat} {op : HostOp} (hw : w.holder = some m)
    (hu : usesBlock p op = true) (h : w.next p (.access k op) = some w') : k = m := by
  rcases next_access_cases h with ⟨rfl, -⟩ | ⟨-, hu', -⟩ | ⟨-, hnone, -⟩ | ⟨-, hk, -⟩
  · cases hu
  · simp [hu] at hu'
  · simp [hw] at hnone
  · exact Option.some.inj (hk.symm.trans hw)

/-! ### The walk of a program -/

theorem run_cons_iff {e : MasterOp} {rest : List MasterOp} :
    w.run p (e :: rest) = some w' ↔ ∃ u, w.next p e = some u ∧ u.run p rest = some w' := by
  rw [LockWalk.run]
  cases w.next p e <;> simp

theorem run_append_iff {a b : List MasterOp} :
    w.run p (a ++ b) = some w' ↔ ∃ u, w.run p a = some u ∧ u.run p b = some w' := by
  rw [run_append, Option.bind_eq_some_iff]

/-- The walk of a program passes through each of its entries. -/
theorem run_through_iff {before after : List MasterOp} {e : MasterOp} :
    w.run p (before ++ e :: after) = some w' ↔
      ∃ u, w.run p before = some u ∧ ∃ u', u.next p e = some u' ∧ u'.run p after = some w' := by
  simp only [run_append_iff, run_cons_iff]

/-- What each entry of a program keeps, the program keeps. -/
theorem run_keeps {I : LockWalk → Prop} : ∀ {prog : List MasterOp} {w w' : LockWalk},
    (∀ e ∈ prog, ∀ {u u' : LockWalk}, u.next p e = some u' → I u → I u') →
    w.run p prog = some w' → I w → I w'
  | [], _, _, _, h, hw => Option.some.inj h ▸ hw
  | e :: rest, _, _, hkeeps, h, hw => by
      obtain ⟨u, hu, hrest⟩ := run_cons_iff.1 h
      exact run_keeps (fun e' he' => hkeeps e' (List.mem_cons_of_mem e he')) hrest
        (hkeeps e List.mem_cons_self hu hw)

/-- A program in which no master takes the lock leaves it free. -/
theorem run_holder_none {prog : List MasterOp} (hacq : ∀ m, .acquire m ∉ prog)
    (h : w.run p prog = some w') (hw : w.holder = none) : w'.holder = none := by
  refine run_keeps (I := fun u => u.holder = none) (fun e he u u' hnext hu => ?_) h hw
  cases e with
  | acquire m => exact absurd he (hacq m)
  | release m =>
      obtain ⟨hm, -⟩ := next_release_iff.1 hnext
      simp [hu] at hm
  | access m op => exact (next_access_frame hnext).1.trans hu

/-- A master holds the lock over a program in which it does not give it up. -/
theorem run_holder_some {prog : List MasterOp} (hrel : .release m ∉ prog)
    (h : w.run p prog = some w') (hw : w.holder = some m) : w'.holder = some m := by
  refine run_keeps (I := fun u => u.holder = some m) (fun e he u u' hnext hu => ?_) h hw
  cases e with
  | acquire k =>
      obtain ⟨hnone, -⟩ := next_acquire_iff.1 hnext
      simp [hu] at hnone
  | release k =>
      obtain ⟨hk, -⟩ := next_release_iff.1 hnext
      obtain rfl := Option.some.inj (hk.symm.trans hu)
      exact absurd he hrel
  | access k op => exact (next_access_frame hnext).1.trans hu

/-- Who holds the lock has taken it and not given it up since. -/
theorem exists_acquire_of_holder {prog : List MasterOp} : ∀ {w : LockWalk},
    LockWalk.start.run p prog = some w → w.holder = some m →
    ∃ before since, prog = before ++ .acquire m :: since ∧ .release m ∉ since := by
  induction prog using List.reverseRecOn with
  | nil =>
      rintro _ ⟨⟩ ⟨⟩
  | append_singleton prog e ih =>
      intro w h hw
      obtain ⟨u, hu, w', hnext, hw'⟩ := run_through_iff.1 h
      obtain rfl := Option.some.inj hw'
      cases e with
      | acquire k =>
          obtain ⟨-, rfl⟩ := next_acquire_iff.1 hnext
          obtain rfl := Option.some.inj hw
          exact ⟨prog, [], rfl, List.not_mem_nil⟩
      | release k =>
          obtain ⟨-, rfl⟩ := next_release_iff.1 hnext
          cases hw
      | access k op =>
          obtain ⟨before, since, rfl, hrel⟩ := ih hu ((next_access_frame hnext).1.symm.trans hw)
          exact ⟨before, since ++ [.access k op], by simp, by simpa using hrel⟩

end LockWalk

/-- Every location but ID, PARAM and STATUS is shared (R268). -/
theorem shared_of_ne {p : Params} {op : HostOp} {l : Loc} (hl : accessLoc p op = some l)
    (hid : l ≠ .id) (hparam : l ≠ .param) (hstatus : l ≠ .status) :
    (accessLoc p op).any Loc.shared = true := by
  rw [hl]
  cases l <;> first | rfl | contradiction

/-- A program with a shared access and no `acquire` breaks the lock rule. -/
theorem not_keepsLock_of_no_acquire {p : Params} {prog : List MasterOp} {m : Nat} {op : HostOp}
    (hacq : ∀ k, .acquire k ∉ prog) (hop : .access m op ∈ prog)
    (hs : (accessLoc p op).any Loc.shared = true) : keepsLock p prog = false := by
  obtain ⟨before, after, rfl⟩ := List.append_of_mem hop
  rw [keepsLock, Option.isSome_eq_false_iff, Option.isNone_iff_eq_none,
    Option.eq_none_iff_forall_ne_some]
  intro w hw
  obtain ⟨u, hu, w', hnext, -⟩ := LockWalk.run_through_iff.1 hw
  have hfree : u.holder = none :=
    LockWalk.run_holder_none (fun k hk => hacq k (List.mem_append_left _ hk)) hu rfl
  obtain ⟨hm, -⟩ := LockWalk.next_shared_access hs hnext
  simp [hfree] at hm

/-- Settles O55: with no `acquire` the shared access finds the lock free; and a program all of whose uses are
one master's is not of several masters. -/
theorem mastersWithoutTheLockAreRefused : Obligations.MastersWithoutTheLockAreRefused := by
  unfold Obligations.MastersWithoutTheLockAreRefused
  refine fun s prog => ⟨?_, fun m hm => load_of_admits ?_⟩
  · rintro ⟨m, m', op, op', hop, hop', hne, hu, hu'⟩ ⟨k, opk, l, hopk, hl, hid, hparam, hstatus⟩ hacq
    have hseveral : severalMasters s.params (s.loaded ++ prog) = true :=
      severalMasters_iff.2 ⟨m, mem_users_iff.2 ⟨op, hop, hu⟩,
        m', mem_users_iff.2 ⟨op', hop', hu'⟩, hne⟩
    have hs := shared_of_ne hl hid hparam hstatus
    exact load_of_not_admits (by simp [admits, hseveral, not_keepsLock_of_no_acquire hacq hopk hs])
  · have hone : severalMasters s.params (s.loaded ++ prog) = false := by
      rw [Bool.eq_false_iff, Ne, severalMasters_iff]
      rintro ⟨a, ha, b, hb, hab⟩
      obtain ⟨opa, hopa, hua⟩ := mem_users_iff.1 ha
      obtain ⟨opb, hopb, hub⟩ := mem_users_iff.1 hb
      exact hab ((hm a opa hopa hua).trans (hm b opb hopb hub).symm)
    simp [admits, hone]

/-- Settles O57: a shared access is the holder's, who has taken the lock; and over the entries between, the
holder stays. -/
theorem admittedMastersHoldTheLock : Obligations.AdmittedMastersHoldTheLock := by
  unfold Obligations.AdmittedMastersHoldTheLock
  intro s t prog hload hseveral
  obtain ⟨w, hw⟩ := run_of_load hload hseveral
  refine ⟨fun pre m op l suf hprog hl hid hparam hstatus => ?_,
    fun pre m mid suf hprog hrel k op hop hu => ?_⟩
  · rw [hprog] at hw
    obtain ⟨u, hu, u', hnext, -⟩ := LockWalk.run_through_iff.1 hw
    obtain ⟨hm, -⟩ := LockWalk.next_shared_access (shared_of_ne hl hid hparam hstatus) hnext
    exact LockWalk.exists_acquire_of_holder hu hm
  · obtain ⟨before, after, rfl⟩ := List.append_of_mem hop
    rw [hprog] at hw
    simp only [List.append_assoc, List.cons_append] at hw
    obtain ⟨_, -, v, hacq, hrest⟩ := LockWalk.run_through_iff.1 hw
    obtain ⟨v', hbefore, _, hnext, -⟩ := LockWalk.run_through_iff.1 hrest
    obtain ⟨-, rfl⟩ := LockWalk.next_acquire_iff.1 hacq
    have hheld : v'.holder = some m :=
      LockWalk.run_holder_some (fun h => hrel (List.mem_append_left _ h)) hbefore rfl
    exact LockWalk.next_use_of_holder hheld hu hnext

/-! ### What a master has put -/

/-- A reset puts nothing. -/
theorem puts_of_resets {p : Params} {op : HostOp} (h : resets p op = true) : puts p op = [] := by
  simp only [resets, Bool.or_eq_true, decide_eq_true_eq, beq_iff_eq] at h
  rcases h with rfl | h
  · rfl
  · unfold puts
    rw [h]
    rfl

theorem role_of_sharedBytes {r : Role} {off n : Nat} {x : SharedByte} (h : x ∈ sharedBytes r off n) :
    x.role = r := by
  obtain ⟨k, -, rfl⟩ := List.mem_map.1 h
  rfl

theorem role_of_commandLeaves {p : Params} {i : Instr} {x : SharedByte} (h : x ∈ commandLeaves p i) :
    x.role = .result := by
  cases i with
  | nop | srst => cases h
  | pack slot pos size dlc => exact role_of_sharedBytes h
  | parse => rcases List.mem_append.1 h with h | h <;> exact role_of_sharedBytes h
  | render slot dlc idl =>
      rcases List.mem_append.1 h with h | h
      · exact role_of_sharedBytes h
      · split at h
        · rcases List.mem_append.1 h with h | h <;> exact role_of_sharedBytes h
        · cases h

/-- All the bytes of one access's puts are of one role: operands a host writes, or results a command leaves. -/
theorem exists_role_of_puts (p : Params) (op : HostOp) : ∃ r, ∀ x ∈ puts p op, x.role = r := by
  unfold puts
  cases startedBy p op with
  | some i => exact ⟨.result, fun x => role_of_commandLeaves⟩
  | none =>
      refine ⟨.operand, fun x hx => ?_⟩
      simp only at hx
      split at hx
      · split at hx
        · exact role_of_sharedBytes hx
        · cases hx
      · cases hx

/-- The first entry that fits stays the first that fits a stricter test, where it passes the test. -/
theorem find?_and_of_find? {α : Type} {f q : α → Bool} {a : α} {xs : List α}
    (h : xs.find? f = some a) (hq : q a = true) :
    xs.find? (fun x => f x && q x) = some a := by
  rw [List.find?_eq_some_iff_append] at *
  obtain ⟨hf, as, bs, rfl, has⟩ := h
  exact ⟨by simp [hf, hq], as, bs, rfl, fun x hx => by rw [Bool.not_and, has x hx, Bool.true_or]⟩

namespace LockWalk
variable {p : Params} {w w' : LockWalk} {m : Nat}

/-- What master `m` has put, in its present holding and in earlier ones, newest first. -/
def putsBy (w : LockWalk) (m : Nat) : List SharedPut :=
  (if w.holder = some m then w.own else []) ++ (w.past.filter (fun e => e.1 == m)).map Prod.snd

/-- While the lock is free, nothing is put in the present holding. -/
def FreeOwnsNothing (w : LockWalk) : Prop := w.holder = none → w.own = []

theorem freeOwnsNothing_of_next {e : MasterOp} (h : w.next p e = some w') (hw : w.FreeOwnsNothing) :
    w'.FreeOwnsNothing := by
  intro hfree
  cases e with
  | acquire m =>
      obtain ⟨-, rfl⟩ := next_acquire_iff.1 h
      cases hfree
  | release m =>
      obtain ⟨-, rfl⟩ := next_release_iff.1 h
      rfl
  | access m op =>
      obtain ⟨hholder, -, new, hown, hnew⟩ := next_access_frame h
      rw [hholder] at hfree
      have hnil : new = [] := List.eq_nil_iff_forall_not_mem.2 fun y hy => by
        simpa [hfree] using (hnew y hy).1
      rw [hown, hnil, hw hfree]
      rfl

/-- From `w` to `w'`, over `prog`, what master `m` has put grows only by what accesses of `m` in `prog` put. -/
def GainsOnlyPuts (p : Params) (prog : List MasterOp) (m : Nat) (w w' : LockWalk) : Prop :=
  ∃ new, w'.putsBy m = new ++ w.putsBy m ∧ ∀ y ∈ new, ∃ op, .access m op ∈ prog ∧ y.byte ∈ puts p op

theorem gainsOnlyPuts_of_next {e : MasterOp} (h : w.next p e = some w') (hw : w.FreeOwnsNothing) (m : Nat) :
    GainsOnlyPuts p [e] m w w' := by
  cases e with
  | acquire k =>
      obtain ⟨hfree, rfl⟩ := next_acquire_iff.1 h
      exact ⟨[], by simp [putsBy, hfree, hw hfree], nofun⟩
  | release k =>
      obtain ⟨hk, rfl⟩ := next_release_iff.1 h
      refine ⟨[], ?_, nofun⟩
      by_cases hkm : k = m <;>
        simp [putsBy, LockWalk.start, hk, hkm, List.filter_map, Function.comp_def]
  | access k op =>
      obtain ⟨hholder, hpast, new, hown, hnew⟩ := next_access_frame h
      by_cases hm : w.holder = some m
      · refine ⟨new, by simp [putsBy, hholder, hpast, hown, hm], fun y hy => ?_⟩
        obtain ⟨hk, hput⟩ := hnew y hy
        obtain rfl := Option.some.inj (hk.symm.trans hm)
        exact ⟨op, List.mem_singleton_self _, hput⟩
      · exact ⟨[], by simp [putsBy, hholder, hpast, hm], nofun⟩

theorem GainsOnlyPuts.cons {u : LockWalk} {e : MasterOp} {rest : List MasterOp}
    (he : GainsOnlyPuts p [e] m w u) (hrest : GainsOnlyPuts p rest m u w') :
    GainsOnlyPuts p (e :: rest) m w w' := by
  obtain ⟨new, hputs, hnew⟩ := he
  obtain ⟨new', hputs', hnew'⟩ := hrest
  refine ⟨new' ++ new, by rw [hputs', hputs, List.append_assoc], fun y hy => ?_⟩
  rcases List.mem_append.1 hy with hy | hy
  · obtain ⟨op, hop, hput⟩ := hnew' y hy
    exact ⟨op, List.mem_cons_of_mem e hop, hput⟩
  · obtain ⟨op, hop, hput⟩ := hnew y hy
    exact ⟨op, List.mem_singleton.1 hop ▸ List.mem_cons_self, hput⟩

theorem gainsOnlyPuts_of_run : ∀ {prog : List MasterOp} {w w' : LockWalk}, w.run p prog = some w' →
    w.FreeOwnsNothing → ∀ m, GainsOnlyPuts p prog m w w'
  | [], _, _, h, _, _ => Option.some.inj h ▸ ⟨[], rfl, nofun⟩
  | e :: rest, _, _, h, hw, m => by
      obtain ⟨u, hnext, hrest⟩ := run_cons_iff.1 h
      exact (gainsOnlyPuts_of_next hnext hw m).cons
        (gainsOnlyPuts_of_run hrest (freeOwnsNothing_of_next hnext hw) m)

theorem freeOwnsNothing_of_run {prog : List MasterOp} (h : w.run p prog = some w')
    (hw : w.FreeOwnsNothing) : w'.FreeOwnsNothing :=
  run_keeps (fun _ _ _ _ hnext hu => freeOwnsNothing_of_next hnext hu) h hw

/-- What has been put in the present holding are puts of its holder in `prog`. -/
def OwnPutIn (p : Params) (prog : List MasterOp) (w : LockWalk) : Prop :=
  ∀ y ∈ w.own, ∃ k op, w.holder = some k ∧ .access k op ∈ prog ∧ y.byte ∈ puts p op

theorem ownPutIn_of_run {prog : List MasterOp} (h : w.run p prog = some w') (hw : w.own = []) :
    OwnPutIn p prog w' := by
  refine run_keeps (I := OwnPutIn p prog) (fun e he u u' hnext hu y hy => ?_) h (by simp [OwnPutIn, hw])
  cases e with
  | acquire k =>
      obtain ⟨hfree, rfl⟩ := next_acquire_iff.1 hnext
      obtain ⟨k', op, hk', -⟩ := hu y hy
      simp [hfree] at hk'
  | release k =>
      obtain ⟨-, rfl⟩ := next_release_iff.1 hnext
      cases hy
  | access k op =>
      obtain ⟨hholder, -, new, hown, hnew⟩ := next_access_frame hnext
      rw [hown] at hy
      rw [hholder]
      rcases List.mem_append.1 hy with hy | hy
      · obtain ⟨hk, hput⟩ := hnew y hy
        exact ⟨k, op, hk, he, hput⟩
      · exact hu y hy

/-- The newest put of the byte at `off` by master `m`. -/
def newestPut (w : LockWalk) (m off : Nat) : Option SharedPut :=
  (w.putsBy m).find? (fun y => y.byte.off == off)

/-- An access that puts the byte makes its newest put, in its role. -/
theorem newestPut_of_next {op : HostOp} {off : Nat} {r : Role} (h : w.next p (.access m op) = some w')
    (hput : { off := off, role := r } ∈ puts p op) :
    ∃ y, w'.newestPut m off = some y ∧ y.byte.role = r := by
  obtain ⟨hm, -, hw'⟩ := next_shared_access (shared_of_puts hput) h
  have hres : resets p op ≠ true := fun h => by simp [puts_of_resets h] at hput
  rw [if_neg hres] at hw'
  subst hw'
  have hfound : (((puts p op).map (fun x => ({ byte := x, sure := w.left == 0 } : SharedPut))).find?
      (fun y => y.byte.off == off)).isSome := by
    rw [List.find?_isSome]
    exact ⟨_, List.mem_map_of_mem hput, by simp⟩
  obtain ⟨y, hy⟩ := Option.isSome_iff_exists.1 hfound
  refine ⟨y, by simp [newestPut, putsBy, hm, hy], ?_⟩
  obtain ⟨x, hx, rfl⟩ := List.mem_map.1 (List.mem_of_find?_eq_some hy)
  obtain ⟨r', hr'⟩ := exists_role_of_puts p op
  exact (hr' x hx).trans (hr' _ hput).symm

/-- A program in which `m` does not put the byte leaves its newest put. -/
theorem newestPut_of_run {prog : List MasterOp} {off : Nat} (h : w.run p prog = some w')
    (hw : w.FreeOwnsNothing)
    (hno : ∀ op, .access m op ∈ prog → ∀ y ∈ puts p op, y.off ≠ off) :
    w'.newestPut m off = w.newestPut m off := by
  obtain ⟨new, hputs, hnew⟩ := gainsOnlyPuts_of_run h hw m
  have hnone : new.find? (fun y => y.byte.off == off) = none := by
    rw [List.find?_eq_none]
    intro y hy
    obtain ⟨op, hop, hput⟩ := hnew y hy
    simpa using hno op hop _ hput
  rw [newestPut, hputs, List.find?_append, hnone, Option.none_or]
  rfl

/-- A master may not use a byte whose newest put, fit for the use, lies in an earlier holding. -/
theorem not_covers_of_newestPut {off : Nat} {r : Role} {y : SharedPut}
    (hown : ∀ x ∈ w.own, x.byte.off ≠ off) (hnewest : w.newestPut m off = some y)
    (hr : r = .operand ∨ y.byte.role = .result) : w.covers m { off := off, role := r } = false := by
  have hownAny : w.own.any (fun x => x.byte.off == off && x.sure) = false := by
    simpa using fun x hx h => absurd h (hown x hx)
  have hpresent : (if w.holder = some m then w.own else []).find? (fun x => x.byte.off == off) = none := by
    split
    · simpa using hown
    · rfl
  have hpast : w.past.find? (fun e => e.1 == m && e.2.byte.off == off) = some (m, y) := by
    rw [newestPut, putsBy, List.find?_append, hpresent, Option.none_or, List.find?_map,
      List.find?_filter, Option.map_eq_some_iff] at hnewest
    obtain ⟨⟨m', y'⟩, hfind, rfl⟩ := hnewest
    obtain ⟨hm', -⟩ : m' = m ∧ y'.byte.off = off := by simpa using List.find?_some hfind
    subst hm'
    simpa only [Function.comp_apply, Bool.decide_and, Bool.decide_eq_true] using hfind
  simp only [covers, hownAny, Bool.false_or]
  cases r with
  | operand =>
      have hany : w.past.any (fun e => e.1 == m && e.2.byte.off == off) = true :=
        List.any_eq_true.2 ⟨_, List.mem_of_find?_eq_some hpast, by simpa using List.find?_some hpast⟩
      simp [hany]
  | result =>
      have hres : y.byte.role = .result := by simpa using hr
      have hlast := find?_and_of_find? hpast (q := fun e => e.2.sure || e.2.byte.role == .result)
        (by simp [hres])
      simp [hlast, hres]

end LockWalk

/-- Settles O58: if the lock were given up between, the newest put would lie in an earlier holding. -/
theorem theLockLastsFromOperandToResult : Obligations.TheLockLastsFromOperandToResult := by
  unfold Obligations.TheLockLastsFromOperandToResult
  intro s t prog pre mid suf m off op op' k k' w hload hseveral hprog hw hput htake hrole hno hrel
  obtain ⟨w₀, hpre, w₁, hop, hmid⟩ := LockWalk.run_through_iff.1 hw
  obtain ⟨v, hv⟩ := run_of_load hload hseveral
  rw [hprog] at hv
  obtain ⟨w', hw', v', hop', -⟩ := LockWalk.run_through_iff.1 hv
  obtain rfl := Option.some.inj (hw.symm.trans hw')
  obtain ⟨hm, hcovers, -⟩ := LockWalk.next_shared_access (shared_of_takes htake) hop'
  have hfree : w₁.FreeOwnsNothing :=
    LockWalk.freeOwnsNothing_of_next hop (LockWalk.freeOwnsNothing_of_run hpre fun _ => rfl)
  obtain ⟨y, hy, hyrole⟩ := LockWalk.newestPut_of_next hop hput
  rw [← LockWalk.newestPut_of_run hmid hfree hno] at hy
  have hown : ∀ x ∈ w.own, x.byte.off ≠ off := by
    obtain ⟨before, after, rfl⟩ := List.append_of_mem hrel
    obtain ⟨u, -, u', hu', hafter⟩ := LockWalk.run_through_iff.1 hmid
    obtain ⟨-, rfl⟩ := LockWalk.next_release_iff.1 hu'
    intro x hx
    obtain ⟨j, o, hj, ho, hxput⟩ := LockWalk.ownPutIn_of_run hafter rfl x hx
    obtain rfl := Option.some.inj (hj.symm.trans hm)
    exact hno o (by simp [ho]) _ hxput
  have hnot := LockWalk.not_covers_of_newestPut hown hy (hrole.imp_right hyrole.trans)
  simp [hcovers _ htake] at hnot

end Sys2Proof.Machine
